-- ==== Sys2Proof/Word.lean ====
section
/-! DEFINITION. The values the block's cells hold and the names of its cells.
spec/10_state.md R24 to R28, spec/40_bit_primitives.md R110. A value is a natural number (decision D14, log 17). -/

namespace Sys2Proof

/-- R110: the two-phase witness value. `unresolved` is not a number. -/
inductive Val where
  | unresolved
  | known (n : Nat)
  deriving DecidableEq, Repr

/-- R24: a cell was never written, or holds a `Val`. -/
inductive Cell where
  | unassigned
  | assigned (v : Val)
  deriving DecidableEq, Repr

/-- R24: the five columns whose cells hold a `Val`. -/
inductive CellCol where
  | ld | ls | w0 | w1 | w2
  deriving DecidableEq, Repr

/-- R24: the four columns of single bits: the lookup enable and the three gate-enable flags. -/
inductive BitCol where
  | lq | sf1 | sch | scn
  deriving DecidableEq, Repr

/-- R24: a reference to a cell is a pair of column and row. -/
structure CellRef where
  col : CellCol
  row : Nat
  deriving DecidableEq, Repr

/-- R28: one entry of `EQ`, two cells that must hold the same value. The pair is unordered: `left` and `right` only say
which was written first, and the copy clause (R202) reads them alike (log 20). -/
structure EqEntry where
  left : CellRef
  right : CellRef
  deriving DecidableEq, Repr

/-- R24: one row of `REGION`, nine columns. -/
structure RegionRow where
  ld : Cell
  ls : Cell
  lq : Bool
  w0 : Cell
  w1 : Cell
  w2 : Cell
  sf1 : Bool
  sch : Bool
  scn : Bool
  deriving DecidableEq, Repr

/-- R36: a row at its reset values. -/
def RegionRow.blank : RegionRow :=
  { ld := .unassigned, ls := .unassigned, lq := false, w0 := .unassigned, w1 := .unassigned, w2 := .unassigned,
    sf1 := false, sch := false, scn := false }

end Sys2Proof
end

