-- ==== Sys2Proof/Config.lean ====
section
/-! DEFINITION. What the spec leaves to the implementation (spec/00_scope.md R10): the launch values that `State.reset`
takes, and the free values. The widths the source fixes (R9) stand as the spec's pseudocode writes them, `2 ^ 16` and so on. -/

namespace Sys2Proof.Config

/-- R10 `N_ROWS` of `State.reset`. The spec leaves it open (D17). DESIGN CHOICE, unsafe (log 3): the number the spec's
programs use. The model reads `State.nRows`, never this constant, outside `State.reset` and `decodeTableWord`. -/
def nRows : Nat := 16

/-- R10 `CHNEG_LINK_CHECK`, the spec's default (D9); an argument of `Satisfied` (log 6). -/
def chnegLinkCheck : Bool := false

/-- FREE VALUE (log 8): the rows of `REGION` after the k-th abort, which R227 leaves unspecified. No body. -/
opaque abortedRegion : Nat → List (Nat × RegionRow)

/-- FREE VALUE (log 8): the entries of `EQ` after the k-th abort, which R227 leaves unspecified. No body. -/
opaque abortedEq : Nat → List EqEntry

end Sys2Proof.Config
end

