-- ==== Sys2Proof/Machine/Bits.lean ====
section
/-! DEFINITION. Bits, slices and the combinational units of spec/40_bit_primitives.md, over natural numbers
(spec/00_scope.md R11 to R13), and the combinators of the two-phase value. The units are total functions: outside the input
range a rule gives, the value is the model's choice (log 26), and no command offers such an input but to `negSpread` (log 25). -/

namespace Sys2Proof.Machine

/-- R11: bit `i` of `v`. -/
def bit (v i : Nat) : Nat := v / 2 ^ i % 2

/-- R12: `v[lo + width - 1 : lo]`. -/
def slice (v lo width : Nat) : Nat := v / 2 ^ lo % 2 ^ width

/-- The sum of `f i` over `i < n`, the form in which R100, R103, R104 and R109 are given. -/
def sumBelow : Nat → (Nat → Nat) → Nat
  | 0, _ => 0
  | n + 1, f => sumBelow n f + f n

/-- R12: the low and the high half-word of a 32-bit value. -/
def lo16 (x : Nat) : Nat := slice x 0 16

@[inherit_doc lo16]
def hi16 (x : Nat) : Nat := slice x 16 16

/-- R12: the low and the high half of a 64-bit value. -/
def lo32 (m : Nat) : Nat := slice m 0 32

@[inherit_doc lo32]
def hi32 (m : Nat) : Nat := slice m 32 32

/-- R13: `NOT_w(x) = 2^w - 1 - x`. -/
def notW (w x : Nat) : Nat := 2 ^ w - 1 - x

/-- R100: `spread_n(d)`, bit `i` of `d` at bit `2i`. -/
def spread (n d : Nat) : Nat := sumBelow n fun i => bit d i * 4 ^ i

/-- R100: the table's spread of a half-word. -/
def spread16 (d : Nat) : Nat := spread 16 d

/-- R17: `M16`, every even-position bit of a 32-bit word. -/
def m16 : Nat := 0x55555555

/-- R103, R104, R113: the bits of `v` at positions `2i + sel`, for `i < n`. -/
def parityBits (n sel v : Nat) : Nat := sumBelow n fun i => bit v (2 * i + sel) * 2 ^ i

/-- R103: the bits of a 32-bit value at positions 0, 2, .., 30. -/
def evenBits (v : Nat) : Nat := parityBits 16 0 v

/-- R104: the bits of a 32-bit value at positions 1, 3, .., 31. -/
def oddBits (v : Nat) : Nat := parityBits 16 1 v

/-- R102: every odd-position bit of a 32-bit value is zero. -/
def isFresh (s : Nat) : Bool := decide (s &&& 0xAAAAAAAA = 0)

/-- R102: the same for a 64-bit value. -/
def isFresh64 (s : Nat) : Bool := decide (s &&& 0xAAAAAAAAAAAAAAAA = 0)

/-- R107: flip the even-position bits (decision D7, conflict C2). -/
def negSpread (s : Nat) : Nat := s ^^^ m16

/-- R109: `toBits_w(v)`, the bits of `v`, least significant first. DESIGN CHOICE (log 26): a value of 2^w or more, which has
no `toBits_w`, yields its low `w` bits. No command calls it. -/
def toBits : Nat → Nat → List Nat
  | 0, _ => []
  | w + 1, v => v % 2 :: toBits w (v / 2)

/-- R109: the integer of a bit sequence, least significant first. -/
def fromBits : List Nat → Nat
  | [] => 0
  | b :: bs => b + 2 * fromBits bs

/-- R160, R77(b): the spread integer of an operand from its two spread halves. -/
def joinHalves (a b : Nat) : Nat := a + 2 ^ 32 * b

/-- The least `k' ≥ k`, at most `fuel` steps on, with `n ≤ 2^k'`. -/
def leastPow (n : Nat) : Nat → Nat → Nat
  | 0, k => k
  | fuel + 1, k => if n ≤ 2 ^ k then k else leastPow n fuel (k + 1)

/-- R10: `ROW_W = ceil(log2 N_ROWS)`. -/
def rowWidth (nRows : Nat) : Nat := leastPow nRows nRows 0

end Sys2Proof.Machine

namespace Sys2Proof

/-- R111: `vmap(f, a)`. -/
def Val.vmap (f : Nat → Nat) : Val → Val
  | .unresolved => .unresolved
  | .known n => .known (f n)

/-- R112: `vzip(f, a, b)`. -/
def Val.vzip (f : Nat → Nat → Nat) : Val → Val → Val
  | .known x, .known y => .known (f x y)
  | _, _ => .unresolved

/-- R112: `vzip3(f, a, b, c)`. -/
def Val.vzip3 (f : Nat → Nat → Nat → Nat) : Val → Val → Val → Val
  | .known x, .known y, .known z => .known (f x y z)
  | _, _, _ => .unresolved

end Sys2Proof
end

