-- ==== Sys2Proof/Syntax.lean ====
section
/-! DEFINITION. The six commands of spec/30_encoding.md R73 and opcode_table.json, with the fields R76 says each reads.
A handle is a row index (spec/10_state.md R31). -/

namespace Sys2Proof

/-- R138, `cmd_sel`: which projection of a certified pair. -/
inductive Proj where
  | dense
  | spread
  deriving DecidableEq, Repr

/-- R139, `cmd_col`: a destination column of COPY. -/
inductive WCol where
  | w0 | w1 | w2
  deriving DecidableEq, Repr

/-- R32: an operand is a pair of handles, low half first (R267). -/
structure Operand where
  lo : Nat
  hi : Nat
  deriving DecidableEq, Repr

/-- R73: the commands. -/
inductive Instr where
  /-- R134 `CERTIFY t, v`. -/
  | certify (t : Nat) (v : Val)
  /-- R139 `COPY h.sel, Wk, t`. -/
  | copy (h : Nat) (sel : Proj) (w : WCol) (t : Nat)
  /-- R143 `CERT4 t, v0_even, v0_odd, v1_even, v1_odd`. -/
  | cert4 (t : Nat) (v0Even v0Odd v1Even v1Odd : Val)
  /-- R165 `F1 t, B, C, D`. -/
  | f1 (t : Nat) (b c d : Operand)
  /-- R175 `CH t, X, Y`. -/
  | ch (t : Nat) (x y : Operand)
  /-- R185 `CHNEG t, X, Z`. -/
  | chneg (t : Nat) (x z : Operand)
  deriving DecidableEq, Repr

end Sys2Proof
end

