-- ==== Sys2Proof/WellFormed.lean ====
section
/-! DEFINITION. Which instructions the command port can carry when a row index has `rw` bits: every field within its width
(spec/30_encoding.md R74). Bounds on the region (R51) are checked by the meanings, not here. -/

namespace Sys2Proof

/-- A row field (`cmd_t`, `cmd_h0` .. `cmd_h5`) holds `rw` bits. -/
def rowFits (rw t : Nat) : Bool := decide (t < 2 ^ rw)

/-- A candidate field holds `Unresolved`, or a number of `CAND_W` bits. -/
def Val.fits : Val → Bool
  | .unresolved => true
  | .known n => decide (n < 2 ^ 32)

/-- Both handles of an operand fit their fields. -/
def Operand.fits (rw : Nat) (x : Operand) : Bool := rowFits rw x.lo && rowFits rw x.hi

/-- R74: every field of the instruction fits. -/
def Instr.wellFormed (rw : Nat) : Instr → Bool
  | .certify t v => rowFits rw t && v.fits
  | .copy h _ _ t => rowFits rw h && rowFits rw t
  | .cert4 t a b c d => rowFits rw t && a.fits && b.fits && c.fits && d.fits
  | .f1 t b c d => rowFits rw t && b.fits rw && c.fits rw && d.fits rw
  | .ch t x y => rowFits rw t && x.fits rw && y.fits rw
  | .chneg t x z => rowFits rw t && x.fits rw && z.fits rw

end Sys2Proof
end

