-- ==== Sys2Proof/Decode.lean ====
section
/-! DEFINITION. The packed command word of spec/30_encoding.md R74: the decoder, and after it the encoder.
A word is a number; `rw` is `ROW_W`. The lsb of each field is the one opcode_table.json gives. -/

namespace Sys2Proof

open Machine (slice)

/-- Why a word is no command (R78: refused by the decoder). -/
inductive DecodeError where
  /-- The number has more bits than the port (log 13). -/
  | wordTooWide
  /-- R78: `cmd_op` is 000 or 111. -/
  | reservedOpcode (code : Nat)
  /-- R78: COPY with `cmd_col` 3. -/
  | reservedColumn
  deriving DecidableEq, Repr

/-- R74: the lsb of `cmd_v0`, after the operation code and seven row fields. -/
def candBase (rw : Nat) : Nat := 3 + 7 * rw

/-- R74: the width of the packed word. -/
def cmdWidth (rw : Nat) : Nat := candBase rw + 135

/-- R73: `cmd_op`. -/
def fieldOp (w : Nat) : Nat := slice w 0 3

/-- R74: `cmd_t`. -/
def fieldT (rw w : Nat) : Nat := slice w 3 rw

/-- R74: `cmd_h<k>`. -/
def fieldH (rw k w : Nat) : Nat := slice w (3 + (k + 1) * rw) rw

/-- R71, R74: `cmd_v<k>`, the value below the tag `known`. -/
def fieldV (rw k w : Nat) : Val :=
  if slice w (candBase rw + 33 * k + 32) 1 = 0 then .unresolved
  else .known (slice w (candBase rw + 33 * k) 32)

/-- R74: `cmd_sel`. -/
def fieldSel (rw w : Nat) : Proj := if slice w (candBase rw + 132) 1 = 0 then .dense else .spread

/-- R74: `cmd_col`; `none` on the reserved code 3. -/
def fieldCol (rw w : Nat) : Option WCol :=
  match slice w (candBase rw + 133) 2 with
  | 0 => some .w0
  | 1 => some .w1
  | 2 => some .w2
  | _ => none

/-- R76: the operand whose low half is `cmd_h<k>`. -/
def fieldOperand (rw k w : Nat) : Operand := { lo := fieldH rw k w, hi := fieldH rw (k + 1) w }

/-- R73, R76, R78: the command a word carries. Fields the operation does not read are ignored. -/
def decode (rw w : Nat) : Except DecodeError Instr :=
  if 2 ^ cmdWidth rw ≤ w then .error .wordTooWide
  else
    match fieldOp w with
    | 1 => .ok (.certify (fieldT rw w) (fieldV rw 0 w))
    | 2 =>
      match fieldCol rw w with
      | some c => .ok (.copy (fieldH rw 0 w) (fieldSel rw w) c (fieldT rw w))
      | none => .error .reservedColumn
    | 3 => .ok (.cert4 (fieldT rw w) (fieldV rw 0 w) (fieldV rw 1 w) (fieldV rw 2 w) (fieldV rw 3 w))
    | 4 => .ok (.f1 (fieldT rw w) (fieldOperand rw 0 w) (fieldOperand rw 2 w) (fieldOperand rw 4 w))
    | 5 => .ok (.ch (fieldT rw w) (fieldOperand rw 0 w) (fieldOperand rw 2 w))
    | 6 => .ok (.chneg (fieldT rw w) (fieldOperand rw 0 w) (fieldOperand rw 2 w))
    | code => .error (.reservedOpcode code)

/-- R74: fields packed from the least significant, each a value and its width. -/
def packFields : List (Nat × Nat) → Nat
  | [] => 0
  | (v, width) :: rest => v + 2 ^ width * packFields rest

/-- R71: a candidate as its two fields, `value` then `known`. -/
def candFields : Val → List (Nat × Nat)
  | .unresolved => [(0, 32), (0, 1)]
  | .known n => [(n, 32), (1, 1)]

/-- R74: the whole word in the order of the fields; fields an operation does not read are given as zero. -/
def packCommand (rw op t : Nat) (h0 h1 h2 h3 h4 h5 : Nat) (v0 v1 v2 v3 : Val) (sel col : Nat) : Nat :=
  packFields <|
    [(op, 3), (t, rw), (h0, rw), (h1, rw), (h2, rw), (h3, rw), (h4, rw), (h5, rw)]
      ++ candFields v0 ++ candFields v1 ++ candFields v2 ++ candFields v3 ++ [(sel, 1), (col, 2)]

/-- R74: the code of `cmd_sel`. -/
def Proj.code : Proj → Nat
  | .dense => 0
  | .spread => 1

/-- R74: the code of `cmd_col`. -/
def WCol.code : WCol → Nat
  | .w0 => 0
  | .w1 => 1
  | .w2 => 2

/-- R73: the operation code. -/
def Instr.opcode : Instr → Nat
  | .certify _ _ => 1
  | .copy _ _ _ _ => 2
  | .cert4 _ _ _ _ _ => 3
  | .f1 _ _ _ _ => 4
  | .ch _ _ _ => 5
  | .chneg _ _ _ => 6

/-- R74, R76: the command word of an instruction. -/
def encode (rw : Nat) : Instr → Nat
  | .certify t v => packCommand rw 1 t 0 0 0 0 0 0 v .unresolved .unresolved .unresolved 0 0
  | .copy h sel w t =>
    packCommand rw 2 t h 0 0 0 0 0 .unresolved .unresolved .unresolved .unresolved sel.code w.code
  | .cert4 t a b c d => packCommand rw 3 t 0 0 0 0 0 0 a b c d 0 0
  | .f1 t b c d =>
    packCommand rw 4 t b.lo b.hi c.lo c.hi d.lo d.hi .unresolved .unresolved .unresolved .unresolved 0 0
  | .ch t x y => packCommand rw 5 t x.lo x.hi y.lo y.hi 0 0 .unresolved .unresolved .unresolved .unresolved 0 0
  | .chneg t x z => packCommand rw 6 t x.lo x.hi z.lo z.hi 0 0 .unresolved .unresolved .unresolved .unresolved 0 0

/-- The host's question about one row of opcode_table.json: the instruction the decoder reads from the low `nbits` bits of
`w`, every bit above them 0, on a port of the `N_ROWS` of `State.reset` (log 3). -/
def decodeTableWord (nbits w : Nat) : Option Instr :=
  match decode (Machine.rowWidth Config.nRows) (w % 2 ^ nbits) with
  | .ok i => some i
  | .error _ => none

end Sys2Proof
end

