-- ==== Sys2Proof/Machine/State.lean ====
section
/-! DEFINITION. The architectural state S = (TABLE, REGION, EQ, PHASE, STATUS) of spec/10_state.md R20, the ports and the
launch values beside it, the reasons a step stops, and reset. Plain data throughout. -/

namespace Sys2Proof.Machine

/-- R29: `DESCRIBE` is encoded 0, `WITNESS` 1. -/
inductive Phase where
  | describe
  | witness
  deriving DecidableEq, Repr

/-- R30 `state`: `OK` is 0, `ABORTED` 1. -/
inductive RunState where
  | ok
  | aborted
  deriving DecidableEq, Repr

/-- R30: the status register. `row` is the number in its `ROW_W` bits (log 22). -/
structure Status where
  state : RunState
  cause : BitVec 2
  subcause : BitVec 1
  row : Nat
  deriving DecidableEq, Repr

/-- R36: (OK, 0, 0, 0). -/
def Status.clear : Status := { state := .ok, cause := 0, subcause := 0, row := 0 }

/-- R75: the result handles; `none` where the operation returns no such handle (R76), whose line is then not meaningful. -/
structure Handles where
  h0 : Option Nat
  h1 : Option Nat
  h2 : Option Nat
  h3 : Option Nat
  deriving DecidableEq, Repr

/-- R75: the response port (log 10). -/
structure Response where
  ok : Bool
  handles : Handles
  cause : BitVec 2
  subcause : BitVec 1
  row : Nat
  deriving DecidableEq, Repr

/-- R220, R221: the exceptions, each with the row it records. -/
inductive Raise where
  /-- R222: cause 1, with the destination row of the copy. -/
  | missingPriorAssignment (row : Nat)
  /-- R223: cause 2, sub-cause 0, with the row being certified. -/
  | candidateWidth (row : Nat)
  /-- R224: cause 2, sub-cause 1, with the row being certified. -/
  | candidateNoRow (row : Nat)
  deriving DecidableEq, Repr

/-- A move of the host: it presents a command word (R72) or applies reset with the launch input `PHASE` (R250). -/
inductive HostMove where
  | command (word : Nat)
  | reset (phase : Phase)
  deriving DecidableEq, Repr

/-- The reasons the machine stops. -/
inductive Fault where
  /-- R228, U4: a command when `STATUS.state = ABORTED` has no step. Raised by every meaning. Safe (log 11). -/
  | abortedRun
  deriving DecidableEq, Repr

/-- The reasons a command has no meaning. R16, R226: a broken precondition of the caller has no next state. -/
inductive Refusal where
  /-- An instruction the model gives no meaning. Raised by `exec` alone; no arm does now. Safe. -/
  | notModelled (mnemonic : String)
  /-- R78, U7: `cmd_op` is 000 or 111. Raised by the step's decoder. Safe. -/
  | reservedOpcode (code : Nat)
  /-- R78, U7: COPY with `cmd_col` 3. Raised by the step's decoder. Safe. -/
  | reservedColumn
  /-- The number presented is wider than the command port. Raised by the step's decoder. Safe (log 13). -/
  | wordTooWide
  /-- R51, U2: a row the command writes is not below `N_ROWS`. Raised by every meaning. Safe. -/
  | rowOutOfRange (row : Nat)
  /-- R53, U1: a cell the command would write is already assigned. Raised by every meaning. Safe. -/
  | cellAssigned (cell : CellRef)
  /-- R54, U1: a bit the command would set is already 1. Raised by every meaning but COPY's. Safe. -/
  | bitAlreadySet (col : BitCol) (row : Nat)
  /-- R138, U3: a handle out of range or whose row nothing certified. Raised by COPY, F1, CH, CHNEG. Safe. -/
  | invalidHandle (h : Nat)
  /-- U14: a valid handle whose cell is `Unassigned`, in no state with the invariant R33. Raised by COPY, F1, CH, CHNEG.
  Safe (log 15). -/
  | unassignedRead (cell : CellRef)
  /-- R162, U5: an accumulator would be 2^64 or more. Raised by F1, CH, CHNEG. Safe. -/
  | accumulatorTooWide
  deriving DecidableEq, Repr

/-- R20, with the fields INVENTORY.md lists beside it. -/
structure State where
  /-- R10, R51: `N_ROWS`, constant (log 3). -/
  nRows : Nat
  /-- R23: `TABLE` as its differences from the spread relation: an unlisted dense value reads as its spread, a listed one
  as the entry, `none` for an absent row (log 5). -/
  table : List (Nat × Option Nat)
  /-- R24: `REGION` by row; an unlisted row reads as `RegionRow.blank` (log 7). -/
  region : List (Nat × RegionRow)
  /-- R28: `EQ`, oldest first. -/
  eqList : List EqEntry
  /-- R29: `PHASE`. -/
  phase : Phase
  /-- R30: `STATUS`. -/
  status : Status
  /-- R75: the response port; `none` before the first response (log 10). -/
  rsp : Option Response
  /-- R34, R72: the host's moves still to come, next first (log 1). -/
  host : List HostMove
  /-- The model's own counter of free values (log 8, log 9). -/
  freeCount : Nat
  deriving DecidableEq, Repr

/-- R36, R250: the state after reset, for the launch inputs `N_ROWS`, `TABLE` and `PHASE`. -/
def State.launch (nRows : Nat) (table : List (Nat × Option Nat)) (phase : Phase) : State :=
  { nRows := nRows, table := table, region := [], eqList := [], phase := phase, status := .clear, rsp := none,
    host := [], freeCount := 0 }

/-- R36: the machine right after reset. The launch inputs are DESIGN CHOICE: `N_ROWS` 16 (log 3), the phase WITNESS
(log 4), the full spread relation as table (log 5). -/
def State.reset : State := State.launch Config.nRows [] .witness

end Sys2Proof.Machine
end

