-- ==== Sys2Proof/Machine/Ops.lean ====
section
/-! DEFINITION. The access primitives of spec/20_memory.md R52, R53, R55, R56, the abort of spec/60_exceptions.md R227 and
reset of spec/70_reset_and_hazards.md R250, and the frame in which every command runs. -/

namespace Sys2Proof.Machine

/-! ## Sparse maps: a list of keys and values, where an unlisted key `k` reads as `dflt k` -/

/-- The value at key `k`. -/
def sparseGet {α : Type} (dflt : Nat → α) : List (Nat × α) → Nat → α
  | [], k => dflt k
  | (k', v) :: m, k => if k' = k then v else sparseGet dflt m k

/-- List `k` with value `v`, keys rising. -/
def sparseInsert {α : Type} (k : Nat) (v : α) : List (Nat × α) → List (Nat × α)
  | [] => [(k, v)]
  | (k', v') :: m =>
    if k < k' then (k, v) :: (k', v') :: m
    else if k = k' then (k, v) :: m
    else (k', v') :: sparseInsert k v m

/-- Make key `k` read as `v`: no entry when an unlisted key reads so. -/
def sparseSet {α : Type} [DecidableEq α] (dflt : Nat → α) (m : List (Nat × α)) (k : Nat) (v : α) : List (Nat × α) :=
  if v = dflt k then m.filter fun e => e.1 ≠ k else sparseInsert k v m

/-- The canonical form: keys strictly rising, no entry equal to what an unlisted key reads as. -/
def sparseWf {α : Type} [DecidableEq α] (dflt : Nat → α) (m : List (Nat × α)) : Bool :=
  decide ((m.map Prod.fst).Pairwise (· < ·)) && m.all fun e => e.2 ≠ dflt e.1

/-- What an unlisted row of `REGION` reads as (R36). -/
def blankRow (_ : Nat) : RegionRow := .blank

/-- What an unlisted dense value of `TABLE` reads as: its spread below 2^16 (R131), no row from there on (R23). -/
def fullTable (d : Nat) : Option Nat := if d < 2 ^ 16 then some (spread16 d) else none

/-- A table in canonical form whose keys have 16 bits and whose spread values 32 (R23). -/
def tableWf (tb : List (Nat × Option Nat)) : Bool :=
  sparseWf fullTable tb && tb.all fun e => decide (e.1 < 2 ^ 16) && decide (e.2.getD 0 < 2 ^ 32)

/-- A region in canonical form that lists no row at or above `N_ROWS` (R24). -/
def regionWf (nRows : Nat) (rg : List (Nat × RegionRow)) : Bool :=
  sparseWf blankRow rg && rg.all fun e => decide (e.1 < nRows)

/-- The canonical form of both memories. -/
def Memory.wf (s : State) : Bool := tableWf s.table && regionWf s.nRows s.region

end Sys2Proof.Machine

namespace Sys2Proof

/-- The cell of a row in a column. -/
def RegionRow.cell (r : RegionRow) : CellCol → Cell
  | .ld => r.ld
  | .ls => r.ls
  | .w0 => r.w0
  | .w1 => r.w1
  | .w2 => r.w2

/-- The row with one cell assigned. -/
def RegionRow.assign (r : RegionRow) (col : CellCol) (v : Val) : RegionRow :=
  match col with
  | .ld => { r with ld := .assigned v }
  | .ls => { r with ls := .assigned v }
  | .w0 => { r with w0 := .assigned v }
  | .w1 => { r with w1 := .assigned v }
  | .w2 => { r with w2 := .assigned v }

/-- The bit of a row in a column. -/
def RegionRow.bit (r : RegionRow) : BitCol → Bool
  | .lq => r.lq
  | .sf1 => r.sf1
  | .sch => r.sch
  | .scn => r.scn

/-- The row with one bit set. -/
def RegionRow.set (r : RegionRow) (col : BitCol) : RegionRow :=
  match col with
  | .lq => { r with lq := true }
  | .sf1 => { r with sf1 := true }
  | .sch => { r with sch := true }
  | .scn => { r with scn := true }

end Sys2Proof

namespace Sys2Proof.Machine

/-! ## Access primitives -/

/-- The whole row `r` of `REGION`. -/
def rowRead (s : State) (r : Nat) : RegionRow := sparseGet blankRow s.region r

/-- Store a whole row. -/
def rowWrite (r : Nat) (row : RegionRow) (s : State) : State :=
  { s with region := sparseSet blankRow s.region r row }

/-- R52: `CellRead(col, row)`. -/
def cellRead (s : State) (col : CellCol) (row : Nat) : Cell := (rowRead s row).cell col

/-- R53: `CellWrite(col, row, v)`. Its requirement, that the cell is `Unassigned`, is among the command's (R16). -/
def cellWrite (col : CellCol) (row : Nat) (v : Val) (s : State) : State :=
  rowWrite row ((rowRead s row).assign col v) s

/-- R55: `TableRead(d)`. -/
def tableRead (tb : List (Nat × Option Nat)) (d : Nat) : Option Nat := sparseGet fullTable tb d

/-- R55: `InTable(d, s)`. -/
def inTable (tb : List (Nat × Option Nat)) (d x : Nat) : Bool := decide (d < 2 ^ 16) && decide (tableRead tb d = some x)

/-- R56: `AddEq(a, b)`. -/
def addEq (a b : CellRef) (s : State) : State := { s with eqList := s.eqList ++ [{ left := a, right := b }] }

/-! ## The response -/

/-- No result handle. -/
def noHandles : Handles := { h0 := none, h1 := none, h2 := none, h3 := none }

/-- R76: the one handle of CERTIFY. -/
def oneHandle (a : Nat) : Handles := { noHandles with h0 := some a }

/-- R76: the result pair (low16, high16) of a gadget. -/
def pairHandles (p : Operand) : Handles := { noHandles with h0 := some p.lo, h1 := some p.hi }

/-- R75: the response with these handles and copies of the `STATUS` fields; `rsp_ok` is 1 exactly when the run is not
aborted. -/
def respond (hs : Handles) (s : State) : State :=
  { s with rsp := some { ok := decide (s.status.state = .ok), handles := hs, cause := s.status.cause,
                         subcause := s.status.subcause, row := s.status.row } }

/-! ## Taking an exception -/

/-- R221: the cause code. -/
def Raise.cause : Raise → BitVec 2
  | .missingPriorAssignment _ => 1
  | .candidateWidth _ => 2
  | .candidateNoRow _ => 2

/-- R221: the sub-cause code. -/
def Raise.subcause : Raise → BitVec 1
  | .missingPriorAssignment _ => 0
  | .candidateWidth _ => 0
  | .candidateNoRow _ => 1

/-- R221: the row recorded. -/
def Raise.row : Raise → Nat
  | .missingPriorAssignment r => r
  | .candidateWidth r => r
  | .candidateNoRow r => r

/-- FREE VALUE (log 8): the region of the k-th aborted state, any region of `nRows` rows, in canonical form. -/
def freeRegion (nRows k : Nat) : List (Nat × RegionRow) :=
  ((Config.abortedRegion k).filter fun e => decide (e.1 < nRows)).foldl
    (fun m e => sparseSet blankRow m e.1 e.2) []

/-- R227 (1): the status after the exception. -/
def raiseStatus (e : Raise) : Status := { state := .aborted, cause := e.cause, subcause := e.subcause, row := e.row }

/-- R227: `raise E(info)` from the state before the command. `STATUS` is written, `REGION` and `EQ` become free values
(log 8), the response has `rsp_ok = 0` and no handle. -/
def abortRun (e : Raise) (s : State) : State :=
  respond noHandles
    { s with status := raiseStatus e, region := freeRegion s.nRows s.freeCount,
             eqList := Config.abortedEq s.freeCount, freeCount := s.freeCount + 1 }

/-- R231, R250, R252: reset, the only way out of an abort. Cells, bits, `EQ` and `STATUS` take their values of R36,
`PHASE` the launch input; `TABLE` and `N_ROWS` stay (log 16). -/
def applyReset (phase : Phase) (s : State) : State :=
  { State.launch s.nRows s.table phase with host := s.host, freeCount := s.freeCount }

/-! ## The frame of a command -/

/-- Why a command's body has no result: an exception, or a precondition it broke. -/
inductive Halt where
  | raise (e : Raise)
  | refuse (r : Refusal)
  deriving DecidableEq, Repr

/-- R16: the first broken precondition of a list. -/
def firstBroken : List (Bool × Refusal) → Option Refusal
  | [] => none
  | (true, _) :: rest => firstBroken rest
  | (false, r) :: _ => some r

/-- R16, R227 to R229: a command. After an abort it has no step (log 11); a broken precondition is a refusal; an exception
aborts the run from the state before the command; otherwise its effects stand and its handles are returned. -/
def runCommand (requires : List (Bool × Refusal)) (body : Except Halt (State × Handles)) (s : State) :
    Host.Outcome State Fault Refusal :=
  match s.status.state with
  | .aborted => .fault .abortedRun
  | .ok =>
    match firstBroken requires with
    | some r => .refused r
    | none =>
      match body with
      | .ok (s', hs) => .next (respond hs s')
      | .error (.raise e) => .next (abortRun e s)
      | .error (.refuse r) => .refused r

end Sys2Proof.Machine
end

