-- ==== Sys2Proof/Machine/Flags.lean ====
section
/-! DEFINITION. The bits of `REGION`: the lookup enable and the gate-enable flags (spec/10_state.md R25, R27,
spec/20_memory.md R54), and when a row is free to be written (R53, R54). -/

namespace Sys2Proof.Machine

/-- R24: a bit of `REGION`. -/
def bitRead (s : State) (col : BitCol) (row : Nat) : Bool := (rowRead s row).bit col

/-- R54: `BitSet(col, row)`. Its requirement, that the bit is 0, is among the command's (R16). No primitive clears a bit. -/
def bitSet (col : BitCol) (row : Nat) (s : State) : State := rowWrite row ((rowRead s row).set col) s

/-- R51: a row the command touches is in the region. -/
def requireRow (s : State) (row : Nat) : Bool × Refusal := (decide (row < s.nRows), .rowOutOfRange row)

/-- R53: the cell is `Unassigned`. -/
def requireCell (s : State) (col : CellCol) (row : Nat) : Bool × Refusal :=
  (decide (cellRead s col row = .unassigned), .cellAssigned { col := col, row := row })

/-- R54: the bit is 0. -/
def requireBit (s : State) (col : BitCol) (row : Nat) : Bool × Refusal :=
  (!bitRead s col row, .bitAlreadySet col row)

/-- R134: `LD`, `LS` and `LQ` of the row are free. -/
def requireLookupRow (s : State) (row : Nat) : List (Bool × Refusal) :=
  [requireCell s .ld row, requireCell s .ls row, requireBit s .lq row]

/-- R143: the four lookup rows from `t` are free. -/
def requireLookupRows (s : State) (t : Nat) : List (Bool × Refusal) :=
  requireLookupRow s t ++ requireLookupRow s (t + 1) ++ requireLookupRow s (t + 2) ++ requireLookupRow s (t + 3)

/-- R163: a witness column is free at rows `t` and `t + 1`. -/
def requireWitnessPair (s : State) (col : CellCol) (t : Nat) : List (Bool × Refusal) :=
  [requireCell s col t, requireCell s col (t + 1)]

end Sys2Proof.Machine
end

