-- ==== Sys2Proof/Machine/Operands.lean ====
section
/-! DEFINITION. The operand forms: a handle and its projections (spec/41_lookup_enforcer.md R138), an operand of two halves
(spec/30_encoding.md R77, spec/42_boolean_gadgets.md R160), the four candidates of an accumulator (R161), and the
pseudo-instruction OPERAND (R81). -/

namespace Sys2Proof

/-- R138: the column of a projection. -/
def Proj.col : Proj → CellCol
  | .dense => .ld
  | .spread => .ls

/-- R139: the witness column of a destination. -/
def WCol.col : WCol → CellCol
  | .w0 => .w0
  | .w1 => .w1
  | .w2 => .w2

end Sys2Proof

namespace Sys2Proof.Machine

/-- R31: a valid handle. -/
def validHandle (s : State) (h : Nat) : Bool := decide (h < s.nRows) && bitRead s .lq h

/-- R138: the handle is valid, and its cell is assigned (so in every state with the invariant R33, log 15). -/
def requireHandle (s : State) (sel : Proj) (h : Nat) : List (Bool × Refusal) :=
  [(validHandle s h, .invalidHandle h),
   (decide (cellRead s sel.col h ≠ .unassigned), .unassignedRead { col := sel.col, row := h })]

/-- R165, R175, R185: both handles of an operand, of which the gadgets read the spread projections (R140). -/
def requireOperand (s : State) (x : Operand) : List (Bool × Refusal) :=
  requireHandle s .spread x.lo ++ requireHandle s .spread x.hi

/-- R138: `resolve(h, sel, row)`, after its `require`. -/
def resolve (h : Nat) (sel : Proj) (row : Nat) (s : State) : Except Halt Val :=
  match cellRead s sel.col h with
  | .unassigned => .error (.refuse (.unassignedRead { col := sel.col, row := h }))
  | .assigned .unresolved =>
    match s.phase with
    | .witness => .error (.raise (.missingPriorAssignment row))
    | .describe => .ok .unresolved
  | .assigned (.known n) => .ok (.known n)

/-- R160: `join64(s_lo, s_hi)`. -/
def join64 (lo hi : Val) : Val := Val.vzip joinHalves lo hi

/-- R161: the four candidates of an accumulator, in the order of R143. -/
structure Candidates where
  v0Even : Val
  v0Odd : Val
  v1Even : Val
  v1Odd : Val
  deriving DecidableEq, Repr

/-- R161: `split4(acc)`. -/
def split4 (acc : Val) : Candidates :=
  { v0Even := (acc.vmap lo32).vmap evenBits, v0Odd := (acc.vmap lo32).vmap oddBits,
    v1Even := (acc.vmap hi32).vmap evenBits, v1Odd := (acc.vmap hi32).vmap oddBits }

/-- R162, U5: the accumulator fits 64 bits. A known accumulator has only known operands, so no copy raises before this
check, and it stands with the `require`s of R16 (log 19). -/
def requireAccumulator (acc : Val) : Except Halt Unit :=
  match acc with
  | .unresolved => .ok ()
  | .known n => if n < 2 ^ 64 then .ok () else .error (.refuse .accumulatorTooWide)

/-- R81: `OPERAND t, x`, the two commands it stands for. -/
def operandCommands (t : Nat) (x : Val) : List Instr := [.certify t (x.vmap lo16), .certify (t + 1) (x.vmap hi16)]

end Sys2Proof.Machine
end

