-- ==== Sys2Proof/Machine/Enforcer.lean ====
section
/-! DEFINITION. The lookup table enforcer: CERTIFY, COPY and CERT4 (spec/41_lookup_enforcer.md). Each body is the rule's
pseudocode after its `require`s, which the command evaluates first, on the state before it (spec/00_scope.md R16). -/

namespace Sys2Proof.Machine

/-! ## CERTIFY -/

/-- R134: the three writes of a certification. -/
def bindRow (t : Nat) (dense spread : Val) (s : State) : State :=
  bitSet .lq t (cellWrite .ls t spread (cellWrite .ld t dense s))

/-- R134 to R137: `certify(v, t)`. The width check comes before the table (R135). -/
def certify (v : Val) (t : Nat) (s : State) : Except Halt State :=
  match v with
  | .unresolved => .ok (bindRow t .unresolved .unresolved s)
  | .known c =>
    if 2 ^ 16 ≤ c then .error (.raise (.candidateWidth t))
    else
      match tableRead s.table c with
      | none => .error (.raise (.candidateNoRow t))
      | some x => .ok (bindRow t (.known c) (.known x) s)

/-- R134: `CERTIFY t, v`. -/
def execCertify (t : Nat) (v : Val) (s : State) : Host.Outcome State Fault Refusal :=
  runCommand (requireRow s t :: requireLookupRow s t)
    (do
      let s1 ← certify v t s
      pure (s1, oneHandle t))
    s

/-! ## COPY -/

/-- R139: `copy(h, sel, Wk, t)`, which also returns the value. -/
def copy (h : Nat) (sel : Proj) (w : WCol) (t : Nat) (s : State) : Except Halt (Val × State) := do
  let v ← resolve h sel t s
  pure (v, addEq { col := sel.col, row := h } { col := w.col, row := t } (cellWrite w.col t v s))

/-- R139: `COPY h.sel, Wk, t`. -/
def execCopy (h : Nat) (sel : Proj) (w : WCol) (t : Nat) (s : State) : Host.Outcome State Fault Refusal :=
  runCommand (requireRow s t :: requireCell s w.col t :: requireHandle s sel h)
    (do
      let (_, s1) ← copy h sel w t s
      pure (s1, noHandles))
    s

/-! ## CERT4 -/

/-- R143: `cert4(t, ..)`, candidate k at row t + k. -/
def cert4 (t : Nat) (c : Candidates) (s : State) : Except Halt State := do
  let s1 ← certify c.v0Even t s
  let s2 ← certify c.v0Odd (t + 1) s1
  let s3 ← certify c.v1Even (t + 2) s2
  certify c.v1Odd (t + 3) s3

/-- R143, R144: the handles of the even-typed outputs, low then high. -/
def evenPair (t : Nat) : Operand := { lo := t, hi := t + 2 }

/-- R143, R144: the handles of the odd-typed outputs, low then high. -/
def oddPair (t : Nat) : Operand := { lo := t + 1, hi := t + 3 }

/-- R76: CERT4 returns the even pair, then the odd pair. -/
def cert4Handles (t : Nat) : Handles :=
  { h0 := some (evenPair t).lo, h1 := some (evenPair t).hi, h2 := some (oddPair t).lo, h3 := some (oddPair t).hi }

/-- R143: `CERT4 t, v0_even, v0_odd, v1_even, v1_odd`. -/
def execCert4 (t : Nat) (v0Even v0Odd v1Even v1Odd : Val) (s : State) : Host.Outcome State Fault Refusal :=
  runCommand (requireRow s (t + 3) :: requireLookupRows s t)
    (do
      let s1 ← cert4 t { v0Even := v0Even, v0Odd := v0Odd, v1Even := v1Even, v1Odd := v1Odd } s
      pure (s1, cert4Handles t))
    s

end Sys2Proof.Machine
end

