-- ==== Sys2Proof/Machine/Gadgets.lean ====
section
/-! DEFINITION. The gadgets F1, CH and CHNEG (spec/42_boolean_gadgets.md). Each body is the rule's pseudocode after its
`require`s; the order of effects is that of R164. -/

namespace Sys2Proof.Machine

/-- R163: copy the spread halves of an operand into a witness column, low half at `t`, high half at `t + 1`. -/
def copyOperand (x : Operand) (w : WCol) (t : Nat) (s : State) : Except Halt (Val × Val × State) := do
  let (lo, s1) ← copy x.lo .spread w t s
  let (hi, s2) ← copy x.hi .spread w (t + 1) s1
  pure (lo, hi, s2)

/-- R161, R142: check the accumulator, split it and certify its four candidates from row `t`. -/
def certifyAccumulator (t : Nat) (acc : Val) (s : State) : Except Halt State := do
  requireAccumulator acc
  cert4 t (split4 acc) s

/-- R165: `f1(t, B, C, D)`. The result is the even pair. -/
def f1Body (t : Nat) (b c d : Operand) (s : State) : Except Halt (State × Handles) := do
  let (bLo, bHi, s1) ← copyOperand b .w0 t s
  let (cLo, cHi, s2) ← copyOperand c .w1 t s1
  let (dLo, dHi, s3) ← copyOperand d .w2 t s2
  let s4 := bitSet .sf1 t s3
  let m := Val.vzip3 (fun x y z => x + y + z) (join64 bLo bHi) (join64 cLo cHi) (join64 dLo dHi)
  let s5 ← certifyAccumulator t m s4
  pure (s5, pairHandles (evenPair t))

/-- R165: `F1 t, B, C, D`. -/
def execF1 (t : Nat) (b c d : Operand) (s : State) : Host.Outcome State Fault Refusal :=
  runCommand
    (requireRow s (t + 3) :: (requireWitnessPair s .w0 t ++ requireWitnessPair s .w1 t ++ requireWitnessPair s .w2 t
      ++ [requireBit s .sf1 t] ++ requireLookupRows s t
      ++ requireOperand s b ++ requireOperand s c ++ requireOperand s d))
    (f1Body t b c d s) s

/-- R175: `ch(t, X, Y)`. The result is the odd pair. -/
def chBody (t : Nat) (x y : Operand) (s : State) : Except Halt (State × Handles) := do
  let (xLo, xHi, s1) ← copyOperand x .w0 t s
  let (yLo, yHi, s2) ← copyOperand y .w1 t s1
  let s3 := bitSet .sch t s2
  let p := Val.vzip (fun a b => a + b) (join64 xLo xHi) (join64 yLo yHi)
  let s4 ← certifyAccumulator t p s3
  pure (s4, pairHandles (oddPair t))

/-- R175: `CH t, X, Y`. `W2` is not touched. -/
def execCh (t : Nat) (x y : Operand) (s : State) : Host.Outcome State Fault Refusal :=
  runCommand
    (requireRow s (t + 3) :: (requireWitnessPair s .w0 t ++ requireWitnessPair s .w1 t
      ++ [requireBit s .sch t] ++ requireLookupRows s t ++ requireOperand s x ++ requireOperand s y))
    (chBody t x y s) s

/-- R185 to R187: `chneg(t, X, Z)`. The complemented halves go to `W2`, with no `EQ` entry and no lookup. -/
def chnegBody (t : Nat) (x z : Operand) (s : State) : Except Halt (State × Handles) := do
  let (xLo, xHi, s1) ← copyOperand x .w0 t s
  let (zLo, zHi, s2) ← copyOperand z .w1 t s1
  let nLo := xLo.vmap negSpread
  let nHi := xHi.vmap negSpread
  let s3 := cellWrite .w2 (t + 1) nHi (cellWrite .w2 t nLo s2)
  let s4 := bitSet .scn t s3
  let q := Val.vzip (fun a b => a + b) (join64 nLo nHi) (join64 zLo zHi)
  let s5 ← certifyAccumulator t q s4
  pure (s5, pairHandles (oddPair t))

/-- R185: `CHNEG t, X, Z`. -/
def execChneg (t : Nat) (x z : Operand) (s : State) : Host.Outcome State Fault Refusal :=
  runCommand
    (requireRow s (t + 3) :: (requireWitnessPair s .w0 t ++ requireWitnessPair s .w1 t ++ requireWitnessPair s .w2 t
      ++ [requireBit s .scn t] ++ requireLookupRows s t ++ requireOperand s x ++ requireOperand s z))
    (chnegBody t x z s) s

end Sys2Proof.Machine
end

