-- ==== Sys2Proof/Machine/Dispatch.lean ====
section
/-! DEFINITION. One arm per command, each a direct call of its meaning. -/

namespace Sys2Proof.Machine

def exec (i : Instr) (s : State) : Host.Outcome State Fault Refusal :=
  match i with
  | .certify t v => Sys2Proof.Machine.execCertify t v s
  | .copy h sel w t => Sys2Proof.Machine.execCopy h sel w t s
  | .cert4 t a b c d => Sys2Proof.Machine.execCert4 t a b c d s
  | .f1 t b c d => Sys2Proof.Machine.execF1 t b c d s
  | .ch t x y => Sys2Proof.Machine.execCh t x y s
  | .chneg t x z => Sys2Proof.Machine.execChneg t x z s

end Sys2Proof.Machine
end

