-- ==== Sys2Proof/Machine/Port.lean ====
section
/-! DEFINITION. The command port: the host's next move (spec/30_encoding.md R72, spec/70_reset_and_hazards.md R250, R251)
and the decoding of a command word with the region's row width (R74). -/

namespace Sys2Proof.Machine

/-- What the next move of the host asks of the block. -/
inductive Move where
  /-- R251: no command is presented; the block waits. -/
  | idle
  /-- R250: the state after reset. -/
  | reset (s : State)
  /-- R78: the word is no command. -/
  | refuse (r : Refusal)
  /-- The command and the state in which it runs, the move taken. -/
  | run (i : Instr) (s : State)
  deriving DecidableEq, Repr

/-- R78: the refusal of a word that is no command. -/
def decodeRefusal : DecodeError → Refusal
  | .wordTooWide => .wordTooWide
  | .reservedOpcode code => .reservedOpcode code
  | .reservedColumn => .reservedColumn

/-- The state with the host's moves replaced. -/
def withHost (moves : List HostMove) (s : State) : State := { s with host := moves }

/-- Take the host's next move. -/
def takeMove (s : State) : Move :=
  match s.host with
  | [] => .idle
  | .reset phase :: rest => .reset (applyReset phase (withHost rest s))
  | .command w :: rest =>
    match decode (rowWidth s.nRows) w with
    | .ok i => .run i (withHost rest s)
    | .error e => .refuse (decodeRefusal e)

/-- The host presents the word `w` next, before the moves it had still to make (log 21). -/
def presentWord (w : Nat) (s : State) : State := withHost (.command w :: s.host) s

end Sys2Proof.Machine
end

