-- ==== Sys2Proof/Machine/Step.lean ====
section
/-! DEFINITION. One step: the host's next move (spec/00_scope.md R8, spec/30_encoding.md R72). -/

namespace Sys2Proof.Machine

/-- R8: one command is one step. With no move of the host the block waits (R251). -/
def step (s : State) : Host.Outcome State Fault Refusal :=
  match takeMove s with
  | .idle => .next s
  | .reset s' => .next s'
  | .refuse r => .refused r
  | .run i s' => exec i s'

/-- The low `nbits` bits of `w` as the next command word on the port, every bit above them 0 (log 21). -/
def State.withFetchWord (s : State) (nbits w : Nat) : State := presentWord (w % 2 ^ nbits) s

end Sys2Proof.Machine
end

