-- ==== Sys2Proof/Machine/Constraints.lean ====
section
/-! DEFINITION. The enforced relations as one predicate, `Satisfied` (spec/43_constraint_system.md R200 to R205), and the
layout `Shape` (R204). -/

namespace Sys2Proof.Machine

/-- The number a cell holds, if it holds one. -/
def numRead (s : State) (col : CellCol) (row : Nat) : Option Nat :=
  match cellRead s col row with
  | .assigned (.known n) => some n
  | _ => none

/-- R200: every assigned cell of the region holds a number. -/
abbrev AllKnown (s : State) : Prop :=
  ∀ r < s.nRows, ∀ col ∈ [CellCol.ld, .ls, .w0, .w1, .w2], cellRead s col r ≠ .assigned .unresolved

/-- R201: the row holds a pair of `TABLE`. -/
def lookupHolds (s : State) (r : Nat) : Bool :=
  match numRead s .ld r, numRead s .ls r with
  | some d, some x => inTable s.table d x
  | _, _ => false

/-- R201: every row under the lookup relation holds a pair of `TABLE`. -/
abbrev LookupClause (s : State) : Prop := ∀ r < s.nRows, bitRead s .lq r = true → lookupHolds s r = true

/-- R202: the two cells of an entry hold the same number. -/
def eqHolds (s : State) (e : EqEntry) : Bool :=
  match numRead s e.left.col e.left.row, numRead s e.right.col e.right.row with
  | some a, some b => decide (a = b)
  | _, _ => false

/-- R202: every entry of `EQ` holds. -/
abbrev CopyClause (s : State) : Prop := ∀ e ∈ s.eqList, eqHolds s e = true

/-- R170: the left side of every gate equation, the accumulator rebuilt from the spread values at rows `t .. t+3`. -/
def gateLeft (s : State) (t : Nat) : Option Nat := do
  let a ← numRead s .ls t
  let b ← numRead s .ls (t + 1)
  let c ← numRead s .ls (t + 2)
  let d ← numRead s .ls (t + 3)
  some (a + 2 * b + 2 ^ 32 * (c + 2 * d))

/-- R170: one summand of a right side, the spread integer in a witness column at rows `t`, `t + 1`. -/
def gateSummand (s : State) (col : CellCol) (t : Nat) : Option Nat := do
  let a ← numRead s col t
  let b ← numRead s col (t + 1)
  some (a + 2 ^ 32 * b)

/-- R170: the F1 gate equation at row `t`. -/
def f1Gate (s : State) (t : Nat) : Bool :=
  match gateLeft s t, gateSummand s .w0 t, gateSummand s .w1 t, gateSummand s .w2 t with
  | some l, some a, some b, some c => decide (l = a + b + c)
  | _, _, _, _ => false

/-- R180: the CH gate equation at row `t` (by analogy, decision D8, log 18). -/
def chGate (s : State) (t : Nat) : Bool :=
  match gateLeft s t, gateSummand s .w0 t, gateSummand s .w1 t with
  | some l, some a, some b => decide (l = a + b)
  | _, _, _ => false

/-- R190: the CHNEG gate equation at row `t` (by analogy, decision D8, log 18). -/
def chnegGate (s : State) (t : Nat) : Bool :=
  match gateLeft s t, gateSummand s .w2 t, gateSummand s .w1 t with
  | some l, some a, some b => decide (l = a + b)
  | _, _, _ => false

/-- R190: the tie of a complemented cell to the copied one at a row, enforced only with `CHNEG_LINK_CHECK`. -/
def chnegLink (s : State) (r : Nat) : Bool :=
  match numRead s .w0 r, numRead s .w2 r with
  | some a, some b => decide (a + b = m16)
  | _, _ => false

/-- R203: every gate that is on holds. `link` is `CHNEG_LINK_CHECK` (log 6). -/
abbrev GateClause (link : Bool) (s : State) : Prop :=
  ∀ t < s.nRows,
    (bitRead s .sf1 t = true → f1Gate s t = true) ∧
    (bitRead s .sch t = true → chGate s t = true) ∧
    (bitRead s .scn t = true → chnegGate s t = true ∧ (link = true → chnegLink s t = true ∧ chnegLink s (t + 1) = true))

/-- R200, R205: the predicate on the numbers of a state. It reads `TABLE`, `REGION` and `EQ` and nothing else; it is false
where an assigned cell is `Unresolved` (log 23). -/
abbrev Satisfied (link : Bool) (s : State) : Prop :=
  AllKnown s ∧ LookupClause s ∧ CopyClause s ∧ GateClause link s

/-- R204: the two states have one layout `(LQ, SF1, SCH, SCN, EQ, which cells are Assigned)`. -/
def SameShape (s s' : State) : Prop :=
  s'.eqList = s.eqList ∧
  (∀ col r, bitRead s' col r = bitRead s col r) ∧
  (∀ col r, cellRead s' col r = .unassigned ↔ cellRead s col r = .unassigned)

end Sys2Proof.Machine
end

