-- ==== Sys2Proof/Safety.lean ====
section
/-! DEFINITION. The terms in which claims speak of a run: the launch premises (spec/70_reset_and_hazards.md R254), the
certified-row invariant (spec/10_state.md R33), the preconditions of each command in one place (spec/00_scope.md R16), the
exact effect of a command, and the invariant of the machine. Nothing here is used by the meanings. -/

namespace Sys2Proof.Machine

/-! ## Launch premises and invariants -/

/-- R254 `NO_ABORT`. -/
abbrev NoAbort (s : State) : Prop := s.status.state = .ok

/-- R131, R255 `TABLE_OK`. -/
def TableOk (tb : List (Nat × Option Nat)) : Prop := ∀ d < 2 ^ 16, tableRead tb d = some (spread16 d)

/-- R33 at one row: the pair is `Unresolved` in both cells, or a number of 16 bits with its table value. -/
def certifiedRow (s : State) (r : Nat) : Bool :=
  match cellRead s .ld r, cellRead s .ls r with
  | .assigned .unresolved, .assigned .unresolved => true
  | .assigned (.known d), .assigned (.known x) => inTable s.table d x
  | _, _ => false

/-- R33 `INV`. -/
def CertifiedRows (s : State) : Prop := ∀ r, bitRead s .lq r = true → certifiedRow s r = true

/-- R30, R221: the values the status register can hold. -/
def StatusLegal (s : State) : Prop :=
  match s.status.state with
  | .ok => s.status = .clear
  | .aborted => (s.status.cause = 1 ∧ s.status.subcause = 0 ∨ s.status.cause = 2) ∧ s.status.row < s.nRows

/-- R139: the cells of an entry are both assigned and hold the same `Val`. -/
def EqWired (s : State) (e : EqEntry) : Prop :=
  ∃ v, cellRead s e.left.col e.left.row = .assigned v ∧ cellRead s e.right.col e.right.row = .assigned v

/-- What every step keeps: canonical memories, a legal status, and, in a run that is not aborted (R227), certified rows
and wired copies. -/
structure MachineInv (s : State) : Prop where
  wf : Memory.wf s = true
  status : StatusLegal s
  certified : NoAbort s → CertifiedRows s
  wired : NoAbort s → ∀ e ∈ s.eqList, EqWired s e

/-! ## Operands and preconditions -/

/-- R31: a valid handle. -/
abbrev ValidHandle (s : State) (h : Nat) : Prop := h < s.nRows ∧ bitRead s .lq h = true

/-- The spread projections of an operand hold `lo` and `hi`. -/
abbrev SpreadHalves (s : State) (x : Operand) (lo hi : Val) : Prop :=
  ValidHandle s x.lo ∧ ValidHandle s x.hi ∧
  cellRead s .ls x.lo = .assigned lo ∧ cellRead s .ls x.hi = .assigned hi

/-- R32: the dense values of an operand are known and make the 32-bit number `v`. -/
abbrev OperandValue (s : State) (x : Operand) (v : Nat) : Prop :=
  ValidHandle s x.lo ∧ ValidHandle s x.hi ∧
  cellRead s .ld x.lo = .assigned (.known (lo16 v)) ∧ cellRead s .ld x.hi = .assigned (.known (hi16 v)) ∧ v < 2 ^ 32

/-- R134: a lookup row is free. -/
abbrev LookupFree (s : State) (r : Nat) : Prop :=
  cellRead s .ld r = .unassigned ∧ cellRead s .ls r = .unassigned ∧ bitRead s .lq r = false

/-- R143: the four lookup rows from `t` are in the region and free. -/
abbrev LookupRowsFree (s : State) (t : Nat) : Prop :=
  t + 3 < s.nRows ∧ ∀ k < 4, LookupFree s (t + k)

/-- R163: a witness column is free at rows `t`, `t + 1`. -/
abbrev WitnessFree (s : State) (col : CellCol) (t : Nat) : Prop :=
  cellRead s col t = .unassigned ∧ cellRead s col (t + 1) = .unassigned

/-- R165: what F1 at `t` must find free. -/
abbrev F1Free (s : State) (t : Nat) : Prop :=
  LookupRowsFree s t ∧ WitnessFree s .w0 t ∧ WitnessFree s .w1 t ∧ WitnessFree s .w2 t ∧ bitRead s .sf1 t = false

/-- R175: what CH at `t` must find free. -/
abbrev ChFree (s : State) (t : Nat) : Prop :=
  LookupRowsFree s t ∧ WitnessFree s .w0 t ∧ WitnessFree s .w1 t ∧ bitRead s .sch t = false

/-- R185: what CHNEG at `t` must find free. -/
abbrev ChnegFree (s : State) (t : Nat) : Prop :=
  LookupRowsFree s t ∧ WitnessFree s .w0 t ∧ WitnessFree s .w1 t ∧ WitnessFree s .w2 t ∧ bitRead s .scn t = false

/-- R138: a handle that can be read: valid, its cell assigned (which R33 gives). -/
abbrev Readable (s : State) (col : CellCol) (h : Nat) : Prop := ValidHandle s h ∧ cellRead s col h ≠ .unassigned

/-- Both handles of an operand can be read. -/
abbrev OperandReadable (s : State) (x : Operand) : Prop := Readable s .ls x.lo ∧ Readable s .ls x.hi

/-- The spread integer of an operand (R160), each half under `g`, if both halves are known. -/
def operandNumber (s : State) (g : Nat → Nat) (x : Operand) : Option Nat := do
  let lo ← numRead s .ls x.lo
  let hi ← numRead s .ls x.hi
  some (joinHalves (g lo) (g hi))

/-- The sum of the summands, if all are known. -/
def sumKnown : List (Option Nat) → Option Nat
  | [] => some 0
  | none :: _ => none
  | some n :: rest => (sumKnown rest).map fun m => n + m

/-- R162: when all summands are known their sum fits the accumulator. -/
abbrev SumFits (xs : List (Option Nat)) : Prop := (sumKnown xs).getD 0 < 2 ^ 64

/-- R16: the conjunction of every `require` of a command but `STATUS.state = OK`, on the state before it. -/
def Requires (i : Instr) (s : State) : Prop :=
  match i with
  | .certify t _ => t < s.nRows ∧ LookupFree s t
  | .copy h sel w t => t < s.nRows ∧ cellRead s w.col t = .unassigned ∧ Readable s sel.col h
  | .cert4 t _ _ _ _ => LookupRowsFree s t
  | .f1 t b c d =>
    F1Free s t ∧ OperandReadable s b ∧ OperandReadable s c ∧ OperandReadable s d ∧
    SumFits [operandNumber s id b, operandNumber s id c, operandNumber s id d]
  | .ch t x y =>
    ChFree s t ∧ OperandReadable s x ∧ OperandReadable s y ∧
    SumFits [operandNumber s id x, operandNumber s id y]
  | .chneg t x z =>
    ChnegFree s t ∧ OperandReadable s x ∧ OperandReadable s z ∧
    SumFits [operandNumber s negSpread x, operandNumber s id z]

/-! ## Effects -/

/-- What a cell reads as after the listed cells were assigned; `old` is what it read as before. -/
def cellAfter (cells : List (CellRef × Val)) (ref : CellRef) (old : Cell) : Cell :=
  match cells with
  | [] => old
  | (ref', v) :: rest => if ref = ref' then .assigned v else cellAfter rest ref old

/-- The command completed: exactly the listed cells were assigned, exactly the listed bits set, exactly the listed entries
appended to `EQ`, the response is `rsp_ok = 1` with these handles, and nothing else of the state changed. -/
structure Effect (s s' : State) (cells : List (CellRef × Val)) (bits : List (BitCol × Nat)) (entries : List EqEntry)
    (handles : Handles) : Prop where
  cell : ∀ col r, cellRead s' col r = cellAfter cells { col := col, row := r } (cellRead s col r)
  bit : ∀ col r, bitRead s' col r = (bits.contains (col, r) || bitRead s col r)
  eqs : s'.eqList = s.eqList ++ entries
  status : s'.status = s.status
  rsp : s'.rsp = some { ok := true, handles := handles, cause := s.status.cause, subcause := s.status.subcause,
                        row := s.status.row }
  table : s'.table = s.table
  phase : s'.phase = s.phase
  nRows : s'.nRows = s.nRows
  host : s'.host = s.host
  freeCount : s'.freeCount = s.freeCount

/-- R227: the command was aborted by an exception. Nothing is said of `REGION` and `EQ`. -/
structure Aborts (s s' : State) (cause : BitVec 2) (subcause : BitVec 1) (row : Nat) : Prop where
  status : s'.status = { state := .aborted, cause := cause, subcause := subcause, row := row }
  rsp : s'.rsp = some { ok := false, handles := noHandles, cause := cause, subcause := subcause, row := row }
  table : s'.table = s.table
  phase : s'.phase = s.phase
  nRows : s'.nRows = s.nRows
  host : s'.host = s.host

/-- R134: the value `x` is what a certification binds to the candidate `v`. -/
def TableImage (tb : List (Nat × Option Nat)) (v x : Val) : Prop :=
  match v with
  | .unresolved => x = .unresolved
  | .known c => c < 2 ^ 16 ∧ ∃ n, tableRead tb c = some n ∧ x = .known n

/-- The cells a certification assigns. -/
def certifiedCells (t : Nat) (v x : Val) : List (CellRef × Val) :=
  [({ col := .ld, row := t }, v), ({ col := .ls, row := t }, x)]

/-- R163: the cells a copied operand assigns. -/
def copiedCells (col : CellCol) (t : Nat) (lo hi : Val) : List (CellRef × Val) :=
  [({ col := col, row := t }, lo), ({ col := col, row := t + 1 }, hi)]

/-- R163: the entries a copied operand appends. -/
def copiedEntries (col : CellCol) (t : Nat) (x : Operand) : List EqEntry :=
  [{ left := { col := .ls, row := x.lo }, right := { col := col, row := t } },
   { left := { col := .ls, row := x.hi }, right := { col := col, row := t + 1 } }]

/-- R143: the cells of four certifications, candidates `v`, images `x`. -/
def certifiedCells4 (t : Nat) (v x : Candidates) : List (CellRef × Val) :=
  certifiedCells t v.v0Even x.v0Even ++ certifiedCells (t + 1) v.v0Odd x.v0Odd ++
  certifiedCells (t + 2) v.v1Even x.v1Even ++ certifiedCells (t + 3) v.v1Odd x.v1Odd

/-- R143: the lookup enables of four certifications. -/
def lookupBits4 (t : Nat) : List (BitCol × Nat) := [(.lq, t), (.lq, t + 1), (.lq, t + 2), (.lq, t + 3)]

/-- The images of four candidates. -/
def TableImages (tb : List (Nat × Option Nat)) (v x : Candidates) : Prop :=
  TableImage tb v.v0Even x.v0Even ∧ TableImage tb v.v0Odd x.v0Odd ∧
  TableImage tb v.v1Even x.v1Even ∧ TableImage tb v.v1Odd x.v1Odd

/-- R162: an accumulator fits 64 bits, if known. -/
abbrev AccFits (acc : Val) : Prop := ∀ n, acc = .known n → n < 2 ^ 64

/-- R165, R175, R185: `acc` is the accumulator of the gadget command, the sum of the joined spread halves of its operands
before it, X's halves complemented in CHNEG. -/
def GadgetAccumulator (s : State) (i : Instr) (acc : Val) : Prop :=
  match i with
  | .f1 _ b c d =>
    ∃ bLo bHi cLo cHi dLo dHi, SpreadHalves s b bLo bHi ∧ SpreadHalves s c cLo cHi ∧ SpreadHalves s d dLo dHi ∧
      acc = Val.vzip3 (fun x y z => x + y + z) (join64 bLo bHi) (join64 cLo cHi) (join64 dLo dHi)
  | .ch _ x y =>
    ∃ xLo xHi yLo yHi, SpreadHalves s x xLo xHi ∧ SpreadHalves s y yLo yHi ∧
      acc = Val.vzip (fun a b => a + b) (join64 xLo xHi) (join64 yLo yHi)
  | .chneg _ x z =>
    ∃ xLo xHi zLo zHi, SpreadHalves s x xLo xHi ∧ SpreadHalves s z zLo zHi ∧
      acc = Val.vzip (fun a b => a + b) (join64 (xLo.vmap negSpread) (xHi.vmap negSpread)) (join64 zLo zHi)
  | .certify _ _ => False
  | .copy _ _ _ _ => False
  | .cert4 _ _ _ _ _ => False

/-- R161: the candidates in row order. -/
def Candidates.toList (c : Candidates) : List Val := [c.v0Even, c.v0Odd, c.v1Even, c.v1Odd]

/-- R229 (2): position `k` is the first unresolved value of the list. -/
abbrev FirstUnresolved (vs : List Val) (k : Nat) : Prop :=
  vs[k]? = some .unresolved ∧ ∀ j < k, vs[j]? ≠ some .unresolved

/-- R229 (3): position `k` is the first candidate without an image, and it is too wide (R135). -/
def FirstTooWide (tb : List (Nat × Option Nat)) (vs : List Val) (k : Nat) : Prop :=
  (∃ c, vs[k]? = some (.known c) ∧ 2 ^ 16 ≤ c) ∧ ∀ j < k, ∀ v, vs[j]? = some v → ∃ x, TableImage tb v x

/-- R229 (3): position `k` is the first candidate without an image, and the table has no row for it (R136). -/
def FirstMissingRow (tb : List (Nat × Option Nat)) (vs : List Val) (k : Nat) : Prop :=
  (∃ c, vs[k]? = some (.known c) ∧ c < 2 ^ 16 ∧ tableRead tb c = none) ∧
    ∀ j < k, ∀ v, vs[j]? = some v → ∃ x, TableImage tb v x

/-- R138: reading this value raises nothing in the state's phase. -/
abbrev Resolved (s : State) (v : Val) : Prop := s.phase = .witness → v ≠ .unresolved

/-- R222: the certified projections a command's copies read. -/
def projections : Instr → List CellRef
  | .certify _ _ => []
  | .copy h sel _ _ => [{ col := sel.col, row := h }]
  | .cert4 _ _ _ _ _ => []
  | .f1 _ b c d => [b.lo, b.hi, c.lo, c.hi, d.lo, d.hi].map fun h => { col := .ls, row := h }
  | .ch _ x y => [x.lo, x.hi, y.lo, y.hi].map fun h => { col := .ls, row := h }
  | .chneg _ x z => [x.lo, x.hi, z.lo, z.hi].map fun h => { col := .ls, row := h }

/-- R261: two commands that differ in candidate values only. -/
def SameLayout : Instr → Instr → Prop
  | .certify t _, .certify t' _ => t = t'
  | .cert4 t _ _ _ _, .cert4 t' _ _ _ _ => t = t'
  | i, i' => i = i'

/-- The same state in the other phase, or in this one (R29). -/
def withPhase (p : Phase) (s : State) : State := { s with phase := p }

/-- The number of a pair of handles by its dense cells (R32). -/
def pairNumber (s : State) (x : Operand) : Option Nat := do
  let lo ← numRead s .ld x.lo
  let hi ← numRead s .ld x.hi
  some (lo + 2 ^ 16 * hi)

/-! ## Runs -/

/-- The candidates a command offers. -/
def candidatesOf : Instr → List Val
  | .certify _ v => [v]
  | .cert4 _ a b c d => [a, b, c, d]
  | _ => []

/-- Commands in order, until one does not complete. -/
def execAll : List Instr → State → Host.Outcome State Fault Refusal
  | [], s => .next s
  | i :: is, s =>
    match exec i s with
    | .next s' => execAll is s'
    | .fault f => .fault f
    | .refused r => .refused r

/-- R256: the run of these commands from `s` is successful and ends in `s'`. -/
abbrev RunSucceeds (is : List Instr) (s s' : State) : Prop := execAll is s = .next s' ∧ NoAbort s'

end Sys2Proof.Machine
end

