-- ==== Sys2Proof/Certificates/Slice0/Obligations.lean ====
section
/-! DEFINITION. The statements for the provers. Each docstring names the rule of spec/ it formalises, or the sentence of the
spec it derives from; OBLIGATIONS.json lists them. -/

open Sys2Proof Sys2Proof.Machine

/-! ## Encoding, the port and the step -/

/-- R73, R74, R76: decoding the word of a well-formed command gives it back, every operand at every value, for every row
width. -/
def Obligations.DecodeInvertsEncode : Prop :=
  ∀ (rw : Nat) (i : Instr), i.wellFormed rw = true → decode rw (encode rw i) = .ok i

/-- R74: every command the decoder reads fits the fields of the port. -/
def Obligations.DecodedCommandsAreWellFormed : Prop :=
  ∀ (rw w : Nat) (i : Instr), decode rw w = .ok i → i.wellFormed rw = true

/-- R78: the reserved operation codes and the reserved column are refused by the step; fields an operation does not read
(R76) change nothing. -/
def Obligations.ReservedCodesRefusedUnreadFieldsIgnored : Prop :=
  (∀ (s : State) (w : Nat) (rest : List HostMove), s.host = .command w :: rest → w < 2 ^ cmdWidth (rowWidth s.nRows) →
    ((fieldOp w = 0 ∨ fieldOp w = 7) → step s = .refused (.reservedOpcode (fieldOp w))) ∧
    (fieldOp w = 2 ∧ fieldCol (rowWidth s.nRows) w = none → step s = .refused .reservedColumn)) ∧
  (∀ rw w w' : Nat, w < 2 ^ cmdWidth rw → w' < 2 ^ cmdWidth rw → fieldOp w = fieldOp w' → fieldT rw w = fieldT rw w' →
    (fieldOp w = 1 → fieldV rw 0 w = fieldV rw 0 w' → decode rw w = decode rw w') ∧
    (fieldOp w = 2 → fieldH rw 0 w = fieldH rw 0 w' → fieldSel rw w = fieldSel rw w' →
      fieldCol rw w = fieldCol rw w' → decode rw w = decode rw w') ∧
    (fieldOp w = 3 → (∀ k < 4, fieldV rw k w = fieldV rw k w') → decode rw w = decode rw w') ∧
    (fieldOp w = 4 → (∀ k < 6, fieldH rw k w = fieldH rw k w') → decode rw w = decode rw w') ∧
    (fieldOp w = 5 ∨ fieldOp w = 6 → (∀ k < 4, fieldH rw k w = fieldH rw k w') → decode rw w = decode rw w'))

/-- The packed words of the spec's programs P1 to P7 (spec/95_test_vectors.md part 3) decode to the commands they stand
for, with `ROW_W = 4`. -/
def Obligations.SpecProgramWordsDecode : Prop :=
  decode 4 0x00000000000000000000000000800055C480000001 = .ok (.certify 0 (.known 0xAB89)) ∧
  decode 4 0x000000000000000000000000000000000000000019 = .ok (.certify 3 .unresolved) ∧
  decode 4 0x2000000000000000000000000000000000000003E2 = .ok (.copy 7 .dense .w2 12) ∧
  decode 4 0x00000000000000000000000000000000002A190834 = .ok (.f1 6 ⟨0, 1⟩ ⟨2, 3⟩ ⟨4, 5⟩) ∧
  decode 4 0x000000000000000000000000000000000000190835 = .ok (.ch 6 ⟨0, 1⟩ ⟨2, 3⟩) ∧
  decode 4 0x0000000000000000000000000000000000002A0856 = .ok (.chneg 10 ⟨0, 1⟩ ⟨4, 5⟩)

/-- R8, R72, R251: a step takes the host's next move. A word that decodes runs as its command, in the state with that move
taken and nothing else changed; with no move the block waits. The move list is the model's own (log 1). -/
def Obligations.StepRunsTheDecodedCommand : Prop :=
  (∀ (s : State) (w : Nat) (rest : List HostMove) (i : Instr), s.host = .command w :: rest →
    decode (rowWidth s.nRows) w = .ok i → step s = exec i { s with host := rest }) ∧
  (∀ s : State, s.host = [] → step s = .next s)

/-- R10: `ROW_W = ceil(log2 N_ROWS)`: the least width that holds every row index. -/
def Obligations.RowWidthIsCeilingOfLogTwo : Prop :=
  ∀ n : Nat, n ≤ 2 ^ rowWidth n ∧ ∀ k : Nat, n ≤ 2 ^ k → rowWidth n ≤ k

/-! ## Reset and the table -/

/-- R250: reset, at launch and as a move of the host in any state, puts every piece of state at its value of R36, `PHASE`
and `TABLE` from the launch inputs. That a later reset keeps `TABLE` and `N_ROWS` is the model's reading of R250 with R252
(log 16, DEDUCED). -/
def Obligations.ResetPutsEveryPieceAtItsValue : Prop :=
  (∀ (n : Nat) (tb : List (Nat × Option Nat)) (p : Phase),
    (∀ col r, cellRead (State.launch n tb p) col r = .unassigned) ∧
    (∀ col r, bitRead (State.launch n tb p) col r = false) ∧
    (State.launch n tb p).eqList = [] ∧
    (State.launch n tb p).status = { state := .ok, cause := 0, subcause := 0, row := 0 } ∧
    (State.launch n tb p).phase = p ∧ (State.launch n tb p).table = tb) ∧
  (∀ (s : State) (p : Phase) (rest : List HostMove), s.host = .reset p :: rest → ∃ s', step s = .next s' ∧
    (∀ col r, cellRead s' col r = .unassigned) ∧ (∀ col r, bitRead s' col r = false) ∧ s'.eqList = [] ∧
    s'.status = { state := .ok, cause := 0, subcause := 0, row := 0 } ∧
    s'.phase = p ∧ s'.table = s.table ∧ s'.nRows = s.nRows)

/-- R131: the table of `State.reset` (log 5, the model's choice of launch input) is the spread relation, and a canonical
table is the spread relation only if it is that table. -/
def Obligations.ResetTableIsTheSpreadRelation : Prop :=
  TableOk State.reset.table ∧ ∀ tb : List (Nat × Option Nat), tableWf tb = true → TableOk tb → tb = State.reset.table

/-- R23, R29, R63: no step writes `TABLE` or `N_ROWS`, and none but reset writes `PHASE`. -/
def Obligations.StepKeepsTheLaunchInputs : Prop :=
  ∀ s s' : State, step s = .next s' →
    s'.table = s.table ∧ s'.nRows = s.nRows ∧
    (s'.phase = s.phase ∨ ∃ rest, s.host = .reset s'.phase :: rest)

/-! ## The machine's invariant -/

/-- The invariant of `StepKeepsTheMachineInvariant` holds at reset, whatever the launch inputs. -/
def Obligations.ResetMeetsTheMachineInvariant : Prop :=
  MachineInv State.reset ∧
  ∀ (n : Nat) (tb : List (Nat × Option Nat)) (p : Phase), tableWf tb = true → MachineInv (State.launch n tb p)

/-- R24, R28, R30, R33 (derived in the spec), R227: every step keeps the canonical form of both memories, a legal status,
the certified-row invariant and the wiring of `EQ`, the last two while the run is not aborted. -/
def Obligations.StepKeepsTheMachineInvariant : Prop :=
  ∀ s s' : State, MachineInv s → step s = .next s' → MachineInv s'

/-- R53, R54, R63: a command that completes changes no assigned cell, clears no bit and only appends to `EQ`. -/
def Obligations.WrittenCellsNeverChange : Prop :=
  ∀ (i : Instr) (s s' : State), exec i s = .next s' → NoAbort s' →
    (∀ col r v, cellRead s col r = .assigned v → cellRead s' col r = .assigned v) ∧
    (∀ col r, bitRead s col r = true → bitRead s' col r = true) ∧
    (∃ entries, s'.eqList = s.eqList ++ entries)

/-- R133 (derived in the spec): a command that completes writes `LD` and `LS` exactly at the rows whose lookup enable it
sets. -/
def Obligations.LookupCellsAreWrittenByCertificationsOnly : Prop :=
  ∀ (i : Instr) (s s' : State), exec i s = .next s' → NoAbort s' → ∀ r,
    (bitRead s .lq r = false ∧ bitRead s' .lq r = true →
      cellRead s .ld r = .unassigned ∧ cellRead s .ls r = .unassigned ∧
      cellRead s' .ld r ≠ .unassigned ∧ cellRead s' .ls r ≠ .unassigned) ∧
    (bitRead s' .lq r = bitRead s .lq r →
      cellRead s' .ld r = cellRead s .ld r ∧ cellRead s' .ls r = cellRead s .ls r)

/-! ## Preconditions and aborts -/

/-- R16: a command has a next state exactly when the run is not aborted and all its `require`s hold on the state before
it; otherwise it is refused, whatever exception it would have raised. `Requires` also asks that the cell behind a valid
handle is assigned: that refusal is the model's own (log 15, DEDUCED), outside the invariant R33 only. -/
def Obligations.CommandsRunExactlyUnderTheirRequires : Prop :=
  ∀ (i : Instr) (s : State), NoAbort s →
    (Requires i s → ∃ s', exec i s = .next s') ∧ (¬ Requires i s → ∃ r, exec i s = .refused r)

/-- R228: in the aborted state no command has a step, and only reset leaves the state. -/
def Obligations.OnlyResetLeavesAnAbortedRun : Prop :=
  (∀ (i : Instr) (s : State), s.status.state = .aborted → exec i s = .fault .abortedRun) ∧
  (∀ s s' : State, s.status.state = .aborted → step s = .next s' →
    (s'.status = s.status ∧ s.host = []) ∨ ∃ p rest, s.host = .reset p :: rest)

/-- R227: a command that raises writes `STATUS`, answers `rsp_ok = 0` with no handles and the `STATUS` fields, and keeps
the launch inputs. Nothing is said of `REGION` and `EQ`. -/
def Obligations.RaisingWritesStatusAndResponse : Prop :=
  ∀ (i : Instr) (s s' : State), NoAbort s → exec i s = .next s' → s'.status.state = .aborted →
    ∃ cause subcause row, Aborts s s' cause subcause row ∧ row < s.nRows ∧
      ((cause = 1 ∧ subcause = 0) ∨ cause = 2)

/-- R222: with its preconditions met, a command raises `MissingPriorAssignment` exactly when the phase is WITNESS and a
projection its copies read is `Unresolved`. -/
def Obligations.MissingAssignmentRaisedExactlyInWitnessPhase : Prop :=
  ∀ (i : Instr) (s : State), NoAbort s → Requires i s →
    ((∃ s', exec i s = .next s' ∧ s'.status.state = .aborted ∧ s'.status.cause = 1) ↔
      s.phase = .witness ∧ ∃ p ∈ projections i, cellRead s p.col p.row = .assigned .unresolved)

/-- R225 (derived in the spec): which command raises what, and that no table check fails under `TABLE_OK`. -/
def Obligations.EachCommandRaisesOnlyItsConditions : Prop :=
  ∀ (i : Instr) (s s' : State), NoAbort s → exec i s = .next s' → s'.status.state = .aborted →
    (match i with
     | .certify _ _ => s'.status.cause = 2
     | .copy _ _ _ _ => s'.status.cause = 1
     | .cert4 _ _ _ _ _ => s'.status.cause = 2
     | .f1 _ _ _ _ => s'.status.cause = 1 ∨ (s'.status.cause = 2 ∧ s'.status.subcause = 1)
     | .ch _ _ _ => s'.status.cause = 1 ∨ (s'.status.cause = 2 ∧ s'.status.subcause = 1)
     | .chneg _ _ _ => s'.status.cause = 1 ∨ (s'.status.cause = 2 ∧ s'.status.subcause = 1)) ∧
    (TableOk s.table → ¬ (s'.status.cause = 2 ∧ s'.status.subcause = 1))

/-! ## The lookup enforcer -/

/-- R134 to R137: CERTIFY. At a free row of the region it binds the candidate and its table image, sets `LQ` there and
changes nothing else, in either phase, an `Unresolved` candidate too; a known candidate of 2^16 or more is rejected before
the table is consulted (whatever the table); one below it with no table row is rejected by the table check, which under
`TABLE_OK` never fires; else it is refused. Under `TABLE_OK` the spread bound is `spread_16` of the candidate.
That the table check never fires under `TABLE_OK` is an inference of the spec (derived in R136). -/
def Obligations.CertifyBindsOrRejectsTheCandidate : Prop :=
  ∀ (s : State) (t : Nat) (v : Val), NoAbort s →
    (t < s.nRows → LookupFree s t →
      (∀ x, TableImage s.table v x →
        (∃ s', exec (.certify t v) s = .next s' ∧ Effect s s' (certifiedCells t v x) [(.lq, t)] [] (oneHandle t)) ∧
        (TableOk s.table → ∀ c, v = .known c → x = .known (spread16 c))) ∧
      (∀ c, v = .known c → 2 ^ 16 ≤ c → ∀ tb, ∃ s', exec (.certify t v) { s with table := tb } = .next s' ∧
        Aborts { s with table := tb } s' 2 0 t) ∧
      (∀ c, v = .known c → c < 2 ^ 16 → tableRead s.table c = none →
        ¬ TableOk s.table ∧ ∃ s', exec (.certify t v) s = .next s' ∧ Aborts s s' 2 1 t)) ∧
    (¬ (t < s.nRows ∧ LookupFree s t) → ∃ r, exec (.certify t v) s = .refused r)

/-- R138 to R141: COPY writes the projection of a valid handle to a free witness cell and appends one entry to `EQ`, and
changes nothing else (no lookup enable, no certified row), for either projection; in the witness phase an `Unresolved`
source raises for the destination row; a row out of range, an assigned destination or a handle whose row nothing certified
is refused in both phases. -/
def Obligations.CopyWiresTheProjection : Prop :=
  (∀ (s : State) (h : Nat) (sel : Proj) (w : WCol) (t : Nat) (v : Val), NoAbort s → t < s.nRows →
    cellRead s w.col t = .unassigned → ValidHandle s h → cellRead s sel.col h = .assigned v →
    (Resolved s v → ∃ s', exec (.copy h sel w t) s = .next s' ∧
      Effect s s' [({ col := w.col, row := t }, v)] []
        [{ left := { col := sel.col, row := h }, right := { col := w.col, row := t } }] noHandles) ∧
    (¬ Resolved s v → ∃ s', exec (.copy h sel w t) s = .next s' ∧ Aborts s s' 1 0 t)) ∧
  (∀ (s : State) (h : Nat) (sel : Proj) (w : WCol) (t : Nat), NoAbort s →
    ¬ (t < s.nRows ∧ cellRead s w.col t = .unassigned ∧ ValidHandle s h) → ∃ r, exec (.copy h sel w t) s = .refused r)

/-- R143: CERT4 certifies candidate k at row t + k, returns the even pair (t, t + 2) and the odd pair (t + 1, t + 3), and
changes nothing else; the first candidate in row order that fails is the one reported; it is refused when a row is out of
range or not free. -/
def Obligations.Cert4CertifiesFourRows : Prop :=
  ∀ (s : State) (t : Nat) (c : Candidates), NoAbort s →
    (LookupRowsFree s t →
      (∀ x, TableImages s.table c x →
        ∃ s', exec (.cert4 t c.v0Even c.v0Odd c.v1Even c.v1Odd) s = .next s' ∧
          Effect s s' (certifiedCells4 t c x) (lookupBits4 t) []
            { h0 := some t, h1 := some (t + 2), h2 := some (t + 1), h3 := some (t + 3) }) ∧
      (∀ k, FirstTooWide s.table (Candidates.toList c) k →
        ∃ s', exec (.cert4 t c.v0Even c.v0Odd c.v1Even c.v1Odd) s = .next s' ∧ Aborts s s' 2 0 (t + k)) ∧
      (∀ k, FirstMissingRow s.table (Candidates.toList c) k →
        ∃ s', exec (.cert4 t c.v0Even c.v0Odd c.v1Even c.v1Odd) s = .next s' ∧ Aborts s s' 2 1 (t + k))) ∧
    (¬ LookupRowsFree s t → ∃ r, exec (.cert4 t c.v0Even c.v0Odd c.v1Even c.v1Odd) s = .refused r)

/-! ## The gadgets -/

/-- R165: F1. With its operands' halves resolved and the accumulator m in 64 bits, it copies the six halves, sets
`SF1[t]`, certifies the four candidates of m and returns the handles (t, t + 2), and changes nothing else; else the first
unresolved half in copy order raises for its destination row, or the first candidate without a table row; a broken
`require` is a refusal (a valid handle whose cell is `Unassigned` too, which is the model's own, log 15, DEDUCED). -/
def Obligations.F1CopiesSumsAndCertifies : Prop :=
  (∀ (s : State) (t : Nat) (b c d : Operand) (bLo bHi cLo cHi dLo dHi m : Val), NoAbort s → F1Free s t →
    SpreadHalves s b bLo bHi → SpreadHalves s c cLo cHi → SpreadHalves s d dLo dHi →
    m = Val.vzip3 (fun x y z => x + y + z) (join64 bLo bHi) (join64 cLo cHi) (join64 dLo dHi) → AccFits m →
    ((∀ v ∈ [bLo, bHi, cLo, cHi, dLo, dHi], Resolved s v) →
      (∀ x, TableImages s.table (split4 m) x → ∃ s', exec (.f1 t b c d) s = .next s' ∧
        Effect s s'
          (copiedCells .w0 t bLo bHi ++ copiedCells .w1 t cLo cHi ++ copiedCells .w2 t dLo dHi ++
            certifiedCells4 t (split4 m) x)
          ((.sf1, t) :: lookupBits4 t)
          (copiedEntries .w0 t b ++ copiedEntries .w1 t c ++ copiedEntries .w2 t d)
          { h0 := some t, h1 := some (t + 2), h2 := none, h3 := none }) ∧
      (∀ k, FirstMissingRow s.table (Candidates.toList (split4 m)) k →
        ∃ s', exec (.f1 t b c d) s = .next s' ∧ Aborts s s' 2 1 (t + k))) ∧
    (s.phase = .witness → ∀ k, FirstUnresolved [bLo, bHi, cLo, cHi, dLo, dHi] k →
      ∃ s', exec (.f1 t b c d) s = .next s' ∧ Aborts s s' 1 0 (t + k % 2))) ∧
  (∀ (s : State) (t : Nat) (b c d : Operand), NoAbort s → ¬ Requires (.f1 t b c d) s →
    ∃ r, exec (.f1 t b c d) s = .refused r)

/-- R175: CH. As F1 with two operands and `SCH[t]`; `W2` is not touched and the handles are (t + 1, t + 3). The
refusal of an `Unassigned` cell is the model's own (log 15, DEDUCED). -/
def Obligations.ChCopiesSumsAndCertifies : Prop :=
  (∀ (s : State) (t : Nat) (x y : Operand) (xLo xHi yLo yHi p : Val), NoAbort s → ChFree s t →
    SpreadHalves s x xLo xHi → SpreadHalves s y yLo yHi →
    p = Val.vzip (fun a b => a + b) (join64 xLo xHi) (join64 yLo yHi) → AccFits p →
    ((∀ v ∈ [xLo, xHi, yLo, yHi], Resolved s v) →
      (∀ i, TableImages s.table (split4 p) i → ∃ s', exec (.ch t x y) s = .next s' ∧
        Effect s s'
          (copiedCells .w0 t xLo xHi ++ copiedCells .w1 t yLo yHi ++ certifiedCells4 t (split4 p) i)
          ((.sch, t) :: lookupBits4 t)
          (copiedEntries .w0 t x ++ copiedEntries .w1 t y)
          { h0 := some (t + 1), h1 := some (t + 3), h2 := none, h3 := none }) ∧
      (∀ k, FirstMissingRow s.table (Candidates.toList (split4 p)) k →
        ∃ s', exec (.ch t x y) s = .next s' ∧ Aborts s s' 2 1 (t + k))) ∧
    (s.phase = .witness → ∀ k, FirstUnresolved [xLo, xHi, yLo, yHi] k →
      ∃ s', exec (.ch t x y) s = .next s' ∧ Aborts s s' 1 0 (t + k % 2))) ∧
  (∀ (s : State) (t : Nat) (x y : Operand), NoAbort s → ¬ Requires (.ch t x y) s →
    ∃ r, exec (.ch t x y) s = .refused r)

/-- R185, R187: CHNEG. It copies the four halves, writes `negSpread` of each half of X to `W2` with no `EQ` entry and
no lookup enable, sets `SCN[t]`, certifies the four candidates of q and returns the handles (t + 1, t + 3), and changes
nothing else; exceptions and refusals as for F1 (log 15, DEDUCED, for an `Unassigned` cell). -/
def Obligations.ChnegComplementsSumsAndCertifies : Prop :=
  (∀ (s : State) (t : Nat) (x z : Operand) (xLo xHi zLo zHi q : Val), NoAbort s → ChnegFree s t →
    SpreadHalves s x xLo xHi → SpreadHalves s z zLo zHi →
    q = Val.vzip (fun a b => a + b) (join64 (xLo.vmap negSpread) (xHi.vmap negSpread)) (join64 zLo zHi) → AccFits q →
    ((∀ v ∈ [xLo, xHi, zLo, zHi], Resolved s v) →
      (∀ i, TableImages s.table (split4 q) i → ∃ s', exec (.chneg t x z) s = .next s' ∧
        Effect s s'
          (copiedCells .w0 t xLo xHi ++ copiedCells .w1 t zLo zHi ++
            copiedCells .w2 t (xLo.vmap negSpread) (xHi.vmap negSpread) ++ certifiedCells4 t (split4 q) i)
          ((.scn, t) :: lookupBits4 t)
          (copiedEntries .w0 t x ++ copiedEntries .w1 t z)
          { h0 := some (t + 1), h1 := some (t + 3), h2 := none, h3 := none }) ∧
      (∀ k, FirstMissingRow s.table (Candidates.toList (split4 q)) k →
        ∃ s', exec (.chneg t x z) s = .next s' ∧ Aborts s s' 2 1 (t + k))) ∧
    (s.phase = .witness → ∀ k, FirstUnresolved [xLo, xHi, zLo, zHi] k →
      ∃ s', exec (.chneg t x z) s = .next s' ∧ Aborts s s' 1 0 (t + k % 2))) ∧
  (∀ (s : State) (t : Nat) (x z : Operand), NoAbort s → ¬ Requires (.chneg t x z) s →
    ∃ r, exec (.chneg t x z) s = .refused r)

/-- R172 (derived in the spec): under `TABLE_OK` and `INV`, F1 on known operands completes and its result handles hold b
XOR c XOR d. -/
def Obligations.F1ComputesXorOfThree : Prop :=
  ∀ (s : State) (t : Nat) (b c d : Operand) (vb vc vd : Nat), NoAbort s → TableOk s.table → CertifiedRows s →
    F1Free s t → OperandValue s b vb → OperandValue s c vc → OperandValue s d vd →
    ∃ s', exec (.f1 t b c d) s = .next s' ∧ NoAbort s' ∧
      s'.rsp.map (·.handles) = some (pairHandles ⟨t, t + 2⟩) ∧
      pairNumber s' ⟨t, t + 2⟩ = some (vb ^^^ vc ^^^ vd)

/-- R182 (derived in the spec): under `TABLE_OK` and `INV`, CH on known operands completes and its result handles hold x
AND y. -/
def Obligations.ChComputesAnd : Prop :=
  ∀ (s : State) (t : Nat) (x y : Operand) (vx vy : Nat), NoAbort s → TableOk s.table → CertifiedRows s →
    ChFree s t → OperandValue s x vx → OperandValue s y vy →
    ∃ s', exec (.ch t x y) s = .next s' ∧ NoAbort s' ∧
      s'.rsp.map (·.handles) = some (pairHandles ⟨t + 1, t + 3⟩) ∧
      pairNumber s' ⟨t + 1, t + 3⟩ = some (vx &&& vy)

/-- R192 (derived in the spec): under `TABLE_OK` and `INV`, CHNEG on known operands completes and its result handles hold
(NOT x) AND z. -/
def Obligations.ChnegComputesAndWithComplement : Prop :=
  ∀ (s : State) (t : Nat) (x z : Operand) (vx vz : Nat), NoAbort s → TableOk s.table → CertifiedRows s →
    ChnegFree s t → OperandValue s x vx → OperandValue s z vz →
    ∃ s', exec (.chneg t x z) s = .next s' ∧ NoAbort s' ∧
      s'.rsp.map (·.handles) = some (pairHandles ⟨t + 1, t + 3⟩) ∧
      pairNumber s' ⟨t + 1, t + 3⟩ = some (notW 32 vx &&& vz)

/-- R166, R176 (derived in the spec), R266: the pair a gadget certifies and does not return: the majority for F1, x XOR y
for CH, NOT x XOR z for CHNEG. -/
def Obligations.UnreturnedPairsHoldMajorityAndXor : Prop :=
  ∀ (s s' : State) (t : Nat), TableOk s.table → CertifiedRows s → NoAbort s' →
    (∀ (b c d : Operand) (vb vc vd : Nat), OperandValue s b vb → OperandValue s c vc → OperandValue s d vd →
      exec (.f1 t b c d) s = .next s' →
      pairNumber s' ⟨t + 1, t + 3⟩ = some ((vb &&& vc) ||| (vb &&& vd) ||| (vc &&& vd))) ∧
    (∀ (x y : Operand) (vx vy : Nat), OperandValue s x vx → OperandValue s y vy →
      (exec (.ch t x y) s = .next s' → pairNumber s' ⟨t, t + 2⟩ = some (vx ^^^ vy)) ∧
      (exec (.chneg t x y) s = .next s' → pairNumber s' ⟨t, t + 2⟩ = some (notW 32 vx ^^^ vy)))

/-- R196: every gadget call that completes, in either phase and whatever the values, writes `W` cells at rows t and t + 1
only, sets exactly one gate flag, at row t, and writes and enables exactly the four lookup rows t .. t + 3, in the
candidate order of R143: candidate k of the gadget's own accumulator at row t + k. -/
def Obligations.GadgetCallsHaveOneShape : Prop :=
  ∀ (i : Instr) (flag : BitCol) (t : Nat) (s s' : State),
    ((∃ b c d, i = .f1 t b c d) ∧ flag = .sf1 ∨ (∃ x y, i = .ch t x y) ∧ flag = .sch ∨
      (∃ x z, i = .chneg t x z) ∧ flag = .scn) →
    exec i s = .next s' → NoAbort s' →
    (∀ col r, cellRead s' col r ≠ cellRead s col r →
      (col ≠ .ld ∧ col ≠ .ls ∧ (r = t ∨ r = t + 1)) ∨ ((col = .ld ∨ col = .ls) ∧ t ≤ r ∧ r ≤ t + 3)) ∧
    (∀ col r, (bitRead s col r = false ∧ bitRead s' col r = true) ↔
      (col = flag ∧ r = t) ∨ (col = .lq ∧ t ≤ r ∧ r ≤ t + 3)) ∧
    (∀ r, t ≤ r → r ≤ t + 3 → LookupFree s r ∧ cellRead s' .ls r ≠ .unassigned) ∧
    (∃ acc, GadgetAccumulator s i acc ∧
      ∀ k < 4, ∀ v, (Candidates.toList (split4 acc))[k]? = some v → cellRead s' .ld (t + k) = .assigned v)

/-- R162 (derived in the spec): under `TABLE_OK` and `INV` no accumulator needs more than 64 bits: a gadget whose rows are
free and whose handles are valid has all its `require`s. -/
def Obligations.AccumulatorsFitUnderTableOk : Prop :=
  ∀ (s : State) (t : Nat), TableOk s.table → CertifiedRows s →
    (∀ b c d : Operand, F1Free s t → (∀ h ∈ [b.lo, b.hi, c.lo, c.hi, d.lo, d.hi], ValidHandle s h) →
      Requires (.f1 t b c d) s) ∧
    (∀ x y : Operand, (∀ h ∈ [x.lo, x.hi, y.lo, y.hi], ValidHandle s h) →
      (ChFree s t → Requires (.ch t x y) s) ∧ (ChnegFree s t → Requires (.chneg t x y) s))

/-! ## Phases -/

/-- R29: `PHASE` is read by the missing-prior-assignment check alone: a command that in the witness phase does not abort
with cause 1 does in the description phase the same; and no command writes it. -/
def Obligations.PhaseIsReadByOneCheckOnly : Prop :=
  ∀ (i : Instr) (s : State),
    (∀ s', exec i s = .next s' → s'.phase = s.phase) ∧
    (∀ s', exec i (withPhase .witness s) = .next s' → s'.status.cause ≠ 1 →
      exec i (withPhase .describe s) = .next (withPhase .describe s')) ∧
    (∀ r, exec i (withPhase .witness s) = .refused r ↔ exec i (withPhase .describe s) = .refused r)

/-- R204 (derived in the spec), R261: two runs of the same commands, candidate values apart, that complete from states of
one layout end in states of one layout, in whatever phases, with the same result handles of the last command. -/
def Obligations.RunsOfOneLayoutKeepOneShape : Prop :=
  ∀ (is is' : List Instr) (s1 s1' s2 s2' : State), List.Forall₂ SameLayout is is' → SameShape s1 s2 →
    s1.rsp.map (·.handles) = s2.rsp.map (·.handles) →
    RunSucceeds is s1 s1' → RunSucceeds is' s2 s2' →
    SameShape s1' s2' ∧ s1'.rsp.map (·.handles) = s2'.rsp.map (·.handles)

/-! ## The enforced relations -/

/-- R171, R182, R190, R206 (derived in the spec): a command on known candidates that completes from a state that meets
`Satisfied`, under `TABLE_OK` and the machine's invariant, leaves a state that meets it, for either value of
`CHNEG_LINK_CHECK`. -/
def Obligations.CommandsKeepSatisfied : Prop :=
  ∀ (link : Bool) (i : Instr) (s s' : State), TableOk s.table → MachineInv s → Satisfied link s →
    (∀ v ∈ candidatesOf i, v ≠ .unresolved) → exec i s = .next s' → NoAbort s' → Satisfied link s'

/-- R206 (derived in the spec): completeness. A run of commands on known candidates that succeeds from launch, under
`TABLE_OK`, ends in a state in which every assigned cell is known and `Satisfied` holds. -/
def Obligations.CompletedRunsAreSatisfied : Prop :=
  ∀ (link : Bool) (n : Nat) (tb : List (Nat × Option Nat)) (is : List Instr) (s' : State),
    tableWf tb = true → TableOk tb → (∀ i ∈ is, ∀ v ∈ candidatesOf i, v ≠ .unresolved) →
    RunSucceeds is (State.launch n tb .witness) s' → Satisfied link s'

/-- R207 (derived in the spec): the range lemma. Two enabled rows r, r + 1 under the lookup clause and `TABLE_OK`: their
weighted sum is below 2^32, and its even and odd bits are their dense values. -/
def Obligations.GateRowsDetermineDenseValues : Prop :=
  ∀ (s : State) (r a b : Nat), TableOk s.table → LookupClause s → r + 1 < s.nRows →
    bitRead s .lq r = true → bitRead s .lq (r + 1) = true → numRead s .ls r = some a → numRead s .ls (r + 1) = some b →
    a + 2 * b ≤ 3 * m16 ∧ numRead s .ld r = some (evenBits (a + 2 * b)) ∧ numRead s .ld (r + 1) = some (oddBits (a + 2 * b))

/-- R208 (derived in the spec): soundness of F1. Any assignment `a` with the layout F1 left and `Satisfied` under
`TABLE_OK` holds b XOR c XOR d at the result rows. -/
def Obligations.F1LayoutIsSound : Prop :=
  ∀ (link : Bool) (s s' a : State) (t : Nat) (b c d : Operand), exec (.f1 t b c d) s = .next s' → NoAbort s' →
    SameShape s' a → a.nRows = s'.nRows → TableOk a.table → Satisfied link a →
    ∃ vb vc vd, pairNumber a b = some vb ∧ pairNumber a c = some vc ∧ pairNumber a d = some vd ∧
      pairNumber a ⟨t, t + 2⟩ = some (vb ^^^ vc ^^^ vd)

/-- R209 (derived in the spec): soundness of CH, both pairs. It rests on the CH gate of R180, which is by analogy (D8, log
18). -/
def Obligations.ChLayoutIsSound : Prop :=
  ∀ (link : Bool) (s s' a : State) (t : Nat) (x y : Operand), exec (.ch t x y) s = .next s' → NoAbort s' →
    SameShape s' a → a.nRows = s'.nRows → TableOk a.table → Satisfied link a →
    ∃ vx vy, pairNumber a x = some vx ∧ pairNumber a y = some vy ∧
      pairNumber a ⟨t + 1, t + 3⟩ = some (vx &&& vy) ∧ pairNumber a ⟨t, t + 2⟩ = some (vx ^^^ vy)

/-- R210 (derived in the spec): soundness of CHNEG with `CHNEG_LINK_CHECK`. It rests on the CHNEG gate of R190, which is
by analogy (D8, log 18). -/
def Obligations.ChnegLayoutIsSoundWithTheLink : Prop :=
  ∀ (s s' a : State) (t : Nat) (x z : Operand), exec (.chneg t x z) s = .next s' → NoAbort s' →
    SameShape s' a → a.nRows = s'.nRows → TableOk a.table → Satisfied true a →
    ∃ vx vz, pairNumber a x = some vx ∧ pairNumber a z = some vz ∧
      pairNumber a ⟨t + 1, t + 3⟩ = some (notW 32 vx &&& vz)

/-- R210 (derived in the spec): without `CHNEG_LINK_CHECK` the statement before fails: some assignment with the layout of
a CHNEG meets `Satisfied` under `TABLE_OK` and holds another number. -/
def Obligations.ChnegLayoutIsUnsoundWithoutTheLink : Prop :=
  ∃ (s s' a : State) (t : Nat) (x z : Operand) (vx vz : Nat), exec (.chneg t x z) s = .next s' ∧ NoAbort s' ∧
    SameShape s' a ∧ a.nRows = s'.nRows ∧ TableOk a.table ∧ Satisfied false a ∧
    pairNumber a x = some vx ∧ pairNumber a z = some vz ∧
    pairNumber a ⟨t + 1, t + 3⟩ ≠ some (notW 32 vx &&& vz)

/-! ## The combinational units -/

/-- R100: bit i of d stands at bit 2i of `spread_n(d)`, every odd-position bit is 0, the result has 2n bits, and the
spread of a 32-bit operand is the spreads of its halves (derived in the spec). On d of 2^n or more, outside the rule, it
speaks of the model's function (log 26, DESIGN CHOICE). -/
def Obligations.SpreadMovesEachBitToTwiceItsPosition : Prop :=
  (∀ n d : Nat, spread n d < 2 ^ (2 * n) ∧
    (∀ i < n, bit (spread n d) (2 * i) = bit d i) ∧ (∀ i, bit (spread n d) (2 * i + 1) = 0)) ∧
  (∀ x : Nat, spread 32 x = spread16 (lo16 x) + 2 ^ 32 * spread16 (hi16 x))

/-- R101, R102 (derived in the spec): `spread_n` is injective below 2^n and at most (4^n - 1) / 3; a 32-bit value is fresh
exactly when it is the spread of a half-word, its even bits; and the spreads of XOR and AND add up to the sum. The clauses
without a bound also speak of the model's function outside the rule's range (log 26). -/
def Obligations.SpreadIsInjectiveAndFresh : Prop :=
  (∀ n a b : Nat, a < 2 ^ n → b < 2 ^ n → spread n a = spread n b → a = b) ∧
  (∀ n d : Nat, spread n d ≤ (4 ^ n - 1) / 3) ∧
  (∀ s : Nat, s < 2 ^ 32 → (isFresh s = true ↔ ∃ d < 2 ^ 16, s = spread16 d)) ∧
  (∀ d : Nat, d < 2 ^ 16 → evenBits (spread16 d) = d ∧ oddBits (spread16 d) = 0) ∧
  (∀ n a b : Nat, spread n (a ^^^ b) + 2 * spread n (a &&& b) = spread n a + spread n b)

/-- R103, R104: `evenBits` takes the bits at positions 0, 2, .., 30 and `oddBits` those at 1, 3, .., 31, in order.
That `oddBits v` is `evenBits` of v halved is an inference of the spec (derived in R104). -/
def Obligations.ParityExtractionTakesAlternateBits : Prop :=
  ∀ v : Nat, v < 2 ^ 32 → evenBits v < 2 ^ 16 ∧ oddBits v < 2 ^ 16 ∧
    (∀ i < 16, bit (evenBits v) i = bit v (2 * i) ∧ bit (oddBits v) i = bit v (2 * i + 1)) ∧
    oddBits v = evenBits (v / 2)

/-- R105 (derived in the spec): a 32-bit value is rebuilt from its even and odd bits, and in one way only. -/
def Obligations.ParityExtractionIsReversible : Prop :=
  (∀ v : Nat, v < 2 ^ 32 → v = spread16 (evenBits v) + 2 * spread16 (oddBits v)) ∧
  (∀ a b : Nat, a < 2 ^ 16 → b < 2 ^ 16 →
    evenBits (spread16 a + 2 * spread16 b) = a ∧ oddBits (spread16 a + 2 * spread16 b) = b)

/-- R106 (derived in the spec): the slot law. Even bits of a sum of two or three spreads are the XOR, odd bits the AND of
two or the majority of three. -/
def Obligations.SlotLaw : Prop :=
  ∀ a b c : Nat, a < 2 ^ 16 → b < 2 ^ 16 → c < 2 ^ 16 →
    evenBits (spread16 a + spread16 b) = a ^^^ b ∧ oddBits (spread16 a + spread16 b) = a &&& b ∧
    spread16 a + spread16 b + spread16 c < 2 ^ 32 ∧
    evenBits (spread16 a + spread16 b + spread16 c) = a ^^^ b ^^^ c ∧
    oddBits (spread16 a + spread16 b + spread16 c) = (a &&& b) ||| (a &&& c) ||| (b &&& c)

/-- R107: `negSpread` flips every even-position bit of a 32-bit value, leaves every odd-position bit, and is `M16 - s` on
a fresh value. -/
def Obligations.NegSpreadFlipsEvenPositionsOnly : Prop :=
  ∀ s : Nat, s < 2 ^ 32 → negSpread s < 2 ^ 32 ∧
    (∀ i < 16, bit (negSpread s) (2 * i) = 1 - bit s (2 * i) ∧ bit (negSpread s) (2 * i + 1) = bit s (2 * i + 1)) ∧
    (isFresh s = true → negSpread s = m16 - s)

/-- R108 (derived in the spec): `negSpread` commutes with the spread encoding, on a half-word and on a 32-bit value, is
its own inverse, and keeps a value fresh. -/
def Obligations.NegSpreadCommutesWithComplement : Prop :=
  (∀ d : Nat, d < 2 ^ 16 → negSpread (spread16 d) = spread16 (notW 16 d)) ∧
  (∀ x : Nat, x < 2 ^ 32 →
    negSpread (spread16 (lo16 x)) + 2 ^ 32 * negSpread (spread16 (hi16 x)) = spread 32 (notW 32 x)) ∧
  (∀ s : Nat, negSpread (negSpread s) = s) ∧
  (∀ s : Nat, s < 2 ^ 32 → isFresh s = true → isFresh (negSpread s) = true)

/-- R109: bit sequences and numbers convert back and forth, least significant bit first; on sequences, `spread` puts a
zero after each bit, and `evenBits` and `oddBits` take every other element. The clauses without the bound v < 2^w also
speak of the model's function where the rule has no `toBits_w` (log 26, DESIGN CHOICE). -/
def Obligations.BitSequencesRoundTrip : Prop :=
  (∀ w v : Nat, (toBits w v).length = w ∧ (∀ i < w, (toBits w v)[i]? = some (bit v i)) ∧
    (v < 2 ^ w → fromBits (toBits w v) = v)) ∧
  (∀ b : List Nat, (∀ x ∈ b, x < 2) → toBits b.length (fromBits b) = b) ∧
  (∀ d : Nat, toBits 32 (spread16 d) = (toBits 16 d).flatMap fun x => [x, 0]) ∧
  (∀ v i : Nat, i < 16 → (toBits 16 (evenBits v))[i]? = (toBits 32 v)[2 * i]? ∧
    (toBits 16 (oddBits v))[i]? = (toBits 32 v)[2 * i + 1]?)

/-- R111, R112: the combinators of the two-phase value: a result is known exactly when every argument is, and then it is
the function of their numbers. -/
def Obligations.CombinatorsAreKnownExactlyOnKnownArguments : Prop :=
  (∀ (f : Nat → Nat) (a : Val) (r : Nat), Val.vmap f a = .known r ↔ ∃ x, a = .known x ∧ r = f x) ∧
  (∀ (f : Nat → Nat → Nat) (a b : Val) (r : Nat), Val.vzip f a b = .known r ↔
    ∃ x y, a = .known x ∧ b = .known y ∧ r = f x y) ∧
  (∀ (f : Nat → Nat → Nat → Nat) (a b c : Val) (r : Nat), Val.vzip3 f a b c = .known r ↔
    ∃ x y z, a = .known x ∧ b = .known y ∧ c = .known z ∧ r = f x y z)

/-- R102 (derived in the spec), the 64-bit form: a 64-bit value is fresh exactly when both its halves are, and exactly when
it is the spread of a 32-bit operand, whose half-words are then the even bits of its halves. -/
def Obligations.FreshSixtyFourBitValuesAreOperandSpreads : Prop :=
  (∀ s : Nat, s < 2 ^ 64 →
    (isFresh64 s = true ↔ isFresh (lo32 s) = true ∧ isFresh (hi32 s) = true) ∧
    (isFresh64 s = true ↔ ∃ d < 2 ^ 32, s = spread 32 d)) ∧
  (∀ d : Nat, d < 2 ^ 32 → d = evenBits (lo32 (spread 32 d)) + 2 ^ 16 * evenBits (hi32 (spread 32 d)))
end

