-- ==== Sys2Proof/Laws/Bits.lean ====
section
/-! SUPPORT. The combinational units bit by bit: each sum peeled from its low end, and what follows by induction. -/

namespace Sys2Proof.Machine

/-! ## Sums and bits -/

theorem sumBelow_succ_front (n : Nat) (f : Nat → Nat) :
    sumBelow (n + 1) f = f 0 + sumBelow n fun i => f (i + 1) := by
  induction n with
  | zero => simp [sumBelow]
  | succ n ih => rw [sumBelow, ih, sumBelow]; omega

theorem sumBelow_mul (c n : Nat) (f : Nat → Nat) : sumBelow n (fun i => c * f i) = c * sumBelow n f := by
  induction n with
  | zero => simp [sumBelow]
  | succ n ih => simp only [sumBelow, ih]; ring

theorem sumBelow_congr {n : Nat} {f g : Nat → Nat} (h : ∀ i < n, f i = g i) : sumBelow n f = sumBelow n g := by
  induction n with
  | zero => rfl
  | succ n ih => simp only [sumBelow, ih fun i hi => h i (by omega), h n (by omega)]

theorem bit_lt_two (v i : Nat) : bit v i < 2 := Nat.mod_lt _ (by decide)

theorem bit_zero (v : Nat) : bit v 0 = v % 2 := by simp [bit]

theorem bit_add (v i k : Nat) : bit v (i + k) = bit (v / 2 ^ k) i := by
  simp only [bit, Nat.div_div_eq_div_mul, ← Nat.pow_add, Nat.add_comm k i]

theorem bit_succ (v i : Nat) : bit v (i + 1) = bit (v / 2) i := by simpa using bit_add v i 1

theorem bit_eq_testBit (v i : Nat) : bit v i = (v.testBit i).toNat := by
  rw [Nat.toNat_testBit, bit]

/-! ## Spread and parity, peeled -/

theorem spread_zero (d : Nat) : spread 0 d = 0 := rfl

theorem spread_succ (n d : Nat) : spread (n + 1) d = d % 2 + 4 * spread n (d / 2) := by
  rw [spread, sumBelow_succ_front, bit_zero, spread, ← sumBelow_mul]
  congr 1
  · simp
  · exact sumBelow_congr fun i _ => by rw [bit_succ]; ring

theorem parityBits_zero (sel v : Nat) : parityBits 0 sel v = 0 := rfl

theorem parityBits_succ (n sel v : Nat) :
    parityBits (n + 1) sel v = bit v sel + 2 * parityBits n sel (v / 4) := by
  rw [parityBits, sumBelow_succ_front, parityBits, ← sumBelow_mul]
  congr 1
  · simp
  · refine sumBelow_congr fun i _ => ?_
    rw [show 2 * (i + 1) + sel = 2 * i + sel + 2 by ring, bit_add, show (2 : Nat) ^ 2 = 4 from rfl, pow_succ]
    ring

theorem parityBits_lt (n sel v : Nat) : parityBits n sel v < 2 ^ n := by
  induction n generalizing v with
  | zero => simp [parityBits_zero]
  | succ n ih =>
    have h := bit_lt_two v sel
    have := ih (v / 4)
    rw [parityBits_succ, Nat.pow_succ]; omega

theorem evenBits_lt (v : Nat) : evenBits v < 2 ^ 16 := parityBits_lt 16 0 v

theorem oddBits_lt (v : Nat) : oddBits v < 2 ^ 16 := parityBits_lt 16 1 v

/-- Three times a spread stays below `4^n`: a window holds at most 1. -/
theorem three_mul_spread_lt (n d : Nat) : 3 * spread n d < 4 ^ n := by
  induction n generalizing d with
  | zero => simp [spread_zero]
  | succ n ih =>
    have := ih (d / 2)
    have h := Nat.mod_lt d (show 0 < 2 by decide)
    rw [spread_succ, Nat.pow_succ]; omega

theorem spread16_le (d : Nat) : spread16 d ≤ m16 := by
  have h := three_mul_spread_lt 16 d
  have : (4 : Nat) ^ 16 = 4294967296 := by norm_num
  rw [spread16, m16]; omega

theorem spread16_lt (d : Nat) : spread16 d < 2 ^ 32 := by
  have h := spread16_le d
  rw [m16] at h; omega

/-! ## Bitwise operations, peeled -/

theorem xor_peel (a b : Nat) : a ^^^ b = (a + b) % 2 + 2 * (a / 2 ^^^ b / 2) := by
  have h := Nat.div_add_mod (a ^^^ b) 2
  rw [Nat.xor_div_two] at h
  have : (a ^^^ b) % 2 = (a + b) % 2 := Nat.xor_mod_two_eq
  omega

theorem and_peel (a b : Nat) : a &&& b = (a % 2) * (b % 2) + 2 * (a / 2 &&& b / 2) := by
  have h := Nat.div_add_mod (a &&& b) 2
  rw [Nat.and_div_two] at h
  have key : (a &&& b) % 2 = 1 ↔ a % 2 = 1 ∧ b % 2 = 1 := Nat.and_mod_two_eq_one
  have : (a &&& b) % 2 = (a % 2) * (b % 2) := by
    rcases Nat.mod_two_eq_zero_or_one a with ha | ha <;> rcases Nat.mod_two_eq_zero_or_one b with hb | hb <;>
      rw [ha, hb] at key ⊢ <;> omega
  omega

theorem or_peel (a b : Nat) : a ||| b = max (a % 2) (b % 2) + 2 * (a / 2 ||| b / 2) := by
  have h := Nat.div_add_mod (a ||| b) 2
  rw [Nat.or_div_two] at h
  have key : (a ||| b) % 2 = 1 ↔ a % 2 = 1 ∨ b % 2 = 1 := Nat.or_mod_two_eq_one
  have : (a ||| b) % 2 = max (a % 2) (b % 2) := by
    rcases Nat.mod_two_eq_zero_or_one a with ha | ha <;> rcases Nat.mod_two_eq_zero_or_one b with hb | hb <;>
      rw [ha, hb] at key ⊢ <;> omega
  omega

end Sys2Proof.Machine
end

