-- ==== Sys2Proof/Laws/Sparse.lean ====
section
/-! SUPPORT. Sparse maps: reading after writing, on any list, and the canonical form, which every write keeps. -/

namespace Sys2Proof.Machine

variable {α : Type} (dflt : Nat → α)

@[simp] theorem sparseGet_nil (k : Nat) : sparseGet dflt [] k = dflt k := rfl

theorem sparseGet_cons (e : Nat × α) (m : List (Nat × α)) (k : Nat) :
    sparseGet dflt (e :: m) k = if k = e.1 then e.2 else sparseGet dflt m k := by
  simp only [sparseGet, eq_comm]

theorem sparseGet_insert (m : List (Nat × α)) (k k' : Nat) (v : α) :
    sparseGet dflt (sparseInsert k v m) k' = if k' = k then v else sparseGet dflt m k' := by
  induction m with
  | nil => rw [sparseInsert, sparseGet_cons]
  | cons e m ih =>
    simp only [sparseInsert]
    split
    · rw [sparseGet_cons]
    · split
      · subst k
        simp only [sparseGet_cons]
        by_cases h : k' = e.1 <;> simp [h]
      · simp only [sparseGet_cons, ih]
        by_cases h : k' = e.1
        · subst k'; rw [if_pos rfl, if_pos rfl, if_neg (by omega)]
        · simp [h]

theorem sparseGet_filter (m : List (Nat × α)) (k k' : Nat) :
    sparseGet dflt (m.filter fun e => e.1 ≠ k) k' = if k' = k then dflt k else sparseGet dflt m k' := by
  induction m with
  | nil => by_cases h : k' = k <;> simp [h]
  | cons e m ih =>
    by_cases he : e.1 = k
    · rw [List.filter_cons_of_neg (by simp [he]), ih, sparseGet_cons, he]
      by_cases h : k' = k <;> simp [h]
    · rw [List.filter_cons_of_pos (by simp [he]), sparseGet_cons, sparseGet_cons, ih]
      by_cases h : k' = k
      · subst k'; rw [if_neg (Ne.symm he), if_pos rfl, if_pos rfl]
      · simp [h]

variable [DecidableEq α]

/-- A write is read back at its key and nowhere else. -/
theorem sparseGet_set (m : List (Nat × α)) (k k' : Nat) (v : α) :
    sparseGet dflt (sparseSet dflt m k v) k' = if k' = k then v else sparseGet dflt m k' := by
  unfold sparseSet
  split
  · subst v; exact sparseGet_filter dflt m k k'
  · exact sparseGet_insert dflt m k k' v

theorem sparseWf_iff (m : List (Nat × α)) :
    sparseWf dflt m = true ↔ (m.map Prod.fst).Pairwise (· < ·) ∧ ∀ e ∈ m, e.2 ≠ dflt e.1 := by
  simp [sparseWf]

theorem mem_sparseInsert {m : List (Nat × α)} {k : Nat} {v : α} {e : Nat × α} (h : e ∈ sparseInsert k v m) :
    e = (k, v) ∨ e ∈ m := by
  induction m with
  | nil => simpa [sparseInsert] using h
  | cons e' m ih =>
    simp only [sparseInsert] at h
    split at h
    · simpa using h
    · split at h
      · simp only [List.mem_cons] at h ⊢; tauto
      · simp only [List.mem_cons] at h ⊢
        rcases h with h | h
        · exact .inr (.inl h)
        · rcases ih h with h | h
          · exact .inl h
          · exact .inr (.inr h)

theorem mem_sparseSet {m : List (Nat × α)} {k : Nat} {v : α} {e : Nat × α} (h : e ∈ sparseSet dflt m k v) :
    (e = (k, v) ∧ v ≠ dflt k) ∨ e ∈ m := by
  unfold sparseSet at h
  split at h
  · exact .inr (List.mem_of_mem_filter h)
  · rename_i hv
    rcases mem_sparseInsert h with h | h
    · exact .inl ⟨h, hv⟩
    · exact .inr h

theorem sparseInsert_pairwise (k : Nat) (v : α) (m : List (Nat × α)) (h : (m.map Prod.fst).Pairwise (· < ·)) :
    ((sparseInsert k v m).map Prod.fst).Pairwise (· < ·) := by
  induction m with
  | nil => simp [sparseInsert]
  | cons e m ih =>
    obtain ⟨hm, hrest⟩ := List.pairwise_cons.1 h
    simp only [sparseInsert]
    split
    · rename_i hk
      refine List.pairwise_cons.2 ⟨fun a ha => ?_, h⟩
      rcases List.mem_cons.1 ha with ha | ha
      · exact ha ▸ hk
      · exact Nat.lt_trans hk (hm a ha)
    · split
      · rename_i hk
        exact List.pairwise_cons.2 ⟨fun a ha => by simpa [hk] using hm a ha, hrest⟩
      · refine List.pairwise_cons.2 ⟨fun a ha => ?_, ih hrest⟩
        obtain ⟨e', he', rfl⟩ := List.mem_map.1 ha
        rcases mem_sparseInsert he' with rfl | he'
        · simp only; omega
        · exact hm _ (List.mem_map_of_mem he')

/-- A write keeps the canonical form. -/
theorem sparseSet_wf (m : List (Nat × α)) (k : Nat) (v : α) (h : sparseWf dflt m = true) :
    sparseWf dflt (sparseSet dflt m k v) = true := by
  obtain ⟨hs, hv⟩ := (sparseWf_iff dflt m).1 h
  refine (sparseWf_iff dflt _).2 ⟨?_, fun e he => ?_⟩
  · unfold sparseSet
    split
    · exact hs.sublist (List.filter_sublist.map Prod.fst)
    · exact sparseInsert_pairwise k v m hs
  · rcases mem_sparseSet dflt he with ⟨rfl, hne⟩ | he
    · exact hne
    · exact hv e he

end Sys2Proof.Machine
end

