-- ==== Sys2Proof/Laws/State.lean ====
section
/-! SUPPORT. One lemma per field per update, so that no proof unfolds a record update, and reading a cell or a bit after
each primitive. -/

namespace Sys2Proof.Machine

variable (s : State)

/-! ### rowWrite -/

@[simp] theorem rowWrite_nRows (r : Nat) (row : RegionRow) : (rowWrite r row s).nRows = s.nRows := rfl
@[simp] theorem rowWrite_table (r : Nat) (row : RegionRow) : (rowWrite r row s).table = s.table := rfl
@[simp] theorem rowWrite_eqList (r : Nat) (row : RegionRow) : (rowWrite r row s).eqList = s.eqList := rfl
@[simp] theorem rowWrite_phase (r : Nat) (row : RegionRow) : (rowWrite r row s).phase = s.phase := rfl
@[simp] theorem rowWrite_status (r : Nat) (row : RegionRow) : (rowWrite r row s).status = s.status := rfl
@[simp] theorem rowWrite_rsp (r : Nat) (row : RegionRow) : (rowWrite r row s).rsp = s.rsp := rfl
@[simp] theorem rowWrite_host (r : Nat) (row : RegionRow) : (rowWrite r row s).host = s.host := rfl
@[simp] theorem rowWrite_freeCount (r : Nat) (row : RegionRow) : (rowWrite r row s).freeCount = s.freeCount := rfl

/-! ### cellWrite -/

@[simp] theorem cellWrite_nRows (col : CellCol) (row : Nat) (v : Val) : (cellWrite col row v s).nRows = s.nRows := rfl
@[simp] theorem cellWrite_table (col : CellCol) (row : Nat) (v : Val) : (cellWrite col row v s).table = s.table := rfl
@[simp] theorem cellWrite_eqList (col : CellCol) (row : Nat) (v : Val) : (cellWrite col row v s).eqList = s.eqList := rfl
@[simp] theorem cellWrite_phase (col : CellCol) (row : Nat) (v : Val) : (cellWrite col row v s).phase = s.phase := rfl
@[simp] theorem cellWrite_status (col : CellCol) (row : Nat) (v : Val) : (cellWrite col row v s).status = s.status := rfl
@[simp] theorem cellWrite_rsp (col : CellCol) (row : Nat) (v : Val) : (cellWrite col row v s).rsp = s.rsp := rfl
@[simp] theorem cellWrite_host (col : CellCol) (row : Nat) (v : Val) : (cellWrite col row v s).host = s.host := rfl
@[simp] theorem cellWrite_freeCount (col : CellCol) (row : Nat) (v : Val) : (cellWrite col row v s).freeCount = s.freeCount := rfl

/-! ### bitSet -/

@[simp] theorem bitSet_nRows (col : BitCol) (row : Nat) : (bitSet col row s).nRows = s.nRows := rfl
@[simp] theorem bitSet_table (col : BitCol) (row : Nat) : (bitSet col row s).table = s.table := rfl
@[simp] theorem bitSet_eqList (col : BitCol) (row : Nat) : (bitSet col row s).eqList = s.eqList := rfl
@[simp] theorem bitSet_phase (col : BitCol) (row : Nat) : (bitSet col row s).phase = s.phase := rfl
@[simp] theorem bitSet_status (col : BitCol) (row : Nat) : (bitSet col row s).status = s.status := rfl
@[simp] theorem bitSet_rsp (col : BitCol) (row : Nat) : (bitSet col row s).rsp = s.rsp := rfl
@[simp] theorem bitSet_host (col : BitCol) (row : Nat) : (bitSet col row s).host = s.host := rfl
@[simp] theorem bitSet_freeCount (col : BitCol) (row : Nat) : (bitSet col row s).freeCount = s.freeCount := rfl

/-! ### addEq -/

@[simp] theorem addEq_nRows (a b : CellRef) : (addEq a b s).nRows = s.nRows := rfl
@[simp] theorem addEq_table (a b : CellRef) : (addEq a b s).table = s.table := rfl
@[simp] theorem addEq_region (a b : CellRef) : (addEq a b s).region = s.region := rfl
@[simp] theorem addEq_phase (a b : CellRef) : (addEq a b s).phase = s.phase := rfl
@[simp] theorem addEq_status (a b : CellRef) : (addEq a b s).status = s.status := rfl
@[simp] theorem addEq_rsp (a b : CellRef) : (addEq a b s).rsp = s.rsp := rfl
@[simp] theorem addEq_host (a b : CellRef) : (addEq a b s).host = s.host := rfl
@[simp] theorem addEq_freeCount (a b : CellRef) : (addEq a b s).freeCount = s.freeCount := rfl
@[simp] theorem addEq_eqList (a b : CellRef) : (addEq a b s).eqList = s.eqList ++ [{ left := a, right := b }] := rfl

/-! ### respond -/

@[simp] theorem respond_nRows (hs : Handles) : (respond hs s).nRows = s.nRows := rfl
@[simp] theorem respond_table (hs : Handles) : (respond hs s).table = s.table := rfl
@[simp] theorem respond_region (hs : Handles) : (respond hs s).region = s.region := rfl
@[simp] theorem respond_eqList (hs : Handles) : (respond hs s).eqList = s.eqList := rfl
@[simp] theorem respond_phase (hs : Handles) : (respond hs s).phase = s.phase := rfl
@[simp] theorem respond_status (hs : Handles) : (respond hs s).status = s.status := rfl
@[simp] theorem respond_host (hs : Handles) : (respond hs s).host = s.host := rfl
@[simp] theorem respond_freeCount (hs : Handles) : (respond hs s).freeCount = s.freeCount := rfl
@[simp] theorem respond_rsp (hs : Handles) : (respond hs s).rsp =
    some { ok := decide (s.status.state = .ok), handles := hs, cause := s.status.cause,
           subcause := s.status.subcause, row := s.status.row } := rfl

/-! ### withHost -/

@[simp] theorem withHost_nRows (moves : List HostMove) : (withHost moves s).nRows = s.nRows := rfl
@[simp] theorem withHost_table (moves : List HostMove) : (withHost moves s).table = s.table := rfl
@[simp] theorem withHost_region (moves : List HostMove) : (withHost moves s).region = s.region := rfl
@[simp] theorem withHost_eqList (moves : List HostMove) : (withHost moves s).eqList = s.eqList := rfl
@[simp] theorem withHost_phase (moves : List HostMove) : (withHost moves s).phase = s.phase := rfl
@[simp] theorem withHost_status (moves : List HostMove) : (withHost moves s).status = s.status := rfl
@[simp] theorem withHost_rsp (moves : List HostMove) : (withHost moves s).rsp = s.rsp := rfl
@[simp] theorem withHost_freeCount (moves : List HostMove) : (withHost moves s).freeCount = s.freeCount := rfl
@[simp] theorem withHost_host (moves : List HostMove) : (withHost moves s).host = moves := rfl

/-! ### abortRun -/

@[simp] theorem abortRun_nRows (e : Raise) : (abortRun e s).nRows = s.nRows := rfl
@[simp] theorem abortRun_table (e : Raise) : (abortRun e s).table = s.table := rfl
@[simp] theorem abortRun_phase (e : Raise) : (abortRun e s).phase = s.phase := rfl
@[simp] theorem abortRun_host (e : Raise) : (abortRun e s).host = s.host := rfl
@[simp] theorem abortRun_status (e : Raise) : (abortRun e s).status = raiseStatus e := rfl
@[simp] theorem abortRun_freeCount (e : Raise) : (abortRun e s).freeCount = s.freeCount + 1 := rfl
@[simp] theorem abortRun_region (e : Raise) : (abortRun e s).region = freeRegion s.nRows s.freeCount := rfl
@[simp] theorem abortRun_eqList (e : Raise) : (abortRun e s).eqList = Config.abortedEq s.freeCount := rfl
@[simp] theorem abortRun_rsp (e : Raise) : (abortRun e s).rsp =
    some { ok := false, handles := noHandles, cause := e.cause, subcause := e.subcause, row := e.row } := rfl

/-! ### applyReset -/

@[simp] theorem applyReset_nRows (p : Phase) : (applyReset p s).nRows = s.nRows := rfl
@[simp] theorem applyReset_table (p : Phase) : (applyReset p s).table = s.table := rfl
@[simp] theorem applyReset_host (p : Phase) : (applyReset p s).host = s.host := rfl
@[simp] theorem applyReset_freeCount (p : Phase) : (applyReset p s).freeCount = s.freeCount := rfl
@[simp] theorem applyReset_status (p : Phase) : (applyReset p s).status = .clear := rfl
@[simp] theorem applyReset_phase (p : Phase) : (applyReset p s).phase = p := rfl
@[simp] theorem applyReset_region (p : Phase) : (applyReset p s).region = [] := rfl
@[simp] theorem applyReset_eqList (p : Phase) : (applyReset p s).eqList = [] := rfl
@[simp] theorem applyReset_rsp (p : Phase) : (applyReset p s).rsp = none := rfl

end Sys2Proof.Machine
end

