-- ==== Sys2Proof/Laws/Ops.lean ====
section
/-! SUPPORT. What each access primitive leaves in every cell and bit, and that each keeps the canonical memories. -/

namespace Sys2Proof

theorem RegionRow.cell_assign (r : RegionRow) (col col' : CellCol) (v : Val) :
    (r.assign col v).cell col' = if col' = col then .assigned v else r.cell col' := by
  cases col <;> cases col' <;> rfl

theorem RegionRow.bit_assign (r : RegionRow) (col : CellCol) (v : Val) (b : BitCol) :
    (r.assign col v).bit b = r.bit b := by
  cases col <;> cases b <;> rfl

theorem RegionRow.bit_set (r : RegionRow) (col col' : BitCol) :
    (r.set col).bit col' = (decide (col' = col) || r.bit col') := by
  cases col <;> cases col' <;> rfl

theorem RegionRow.cell_set (r : RegionRow) (col : BitCol) (c : CellCol) : (r.set col).cell c = r.cell c := by
  cases col <;> cases c <;> rfl

@[simp] theorem RegionRow.cell_blank (c : CellCol) : RegionRow.blank.cell c = .unassigned := by cases c <;> rfl

@[simp] theorem RegionRow.bit_blank (b : BitCol) : RegionRow.blank.bit b = false := by cases b <;> rfl

namespace Machine

variable (s : State)

/-! ## Reading after each primitive -/

theorem rowRead_rowWrite (r r' : Nat) (row : RegionRow) :
    rowRead (rowWrite r row s) r' = if r' = r then row else rowRead s r' :=
  sparseGet_set blankRow s.region r r' row

/-- R53: the cell written holds the value; every other cell is as before. -/
@[simp] theorem cellRead_cellWrite (col col' : CellCol) (r r' : Nat) (v : Val) :
    cellRead (cellWrite col r v s) col' r' =
      if col' = col ∧ r' = r then .assigned v else cellRead s col' r' := by
  simp only [cellRead, cellWrite, rowRead_rowWrite]
  by_cases hr : r' = r
  · subst hr; simp [RegionRow.cell_assign]
  · simp [hr]

/-- R54: a bit set leaves every cell as before. -/
@[simp] theorem cellRead_bitSet (col : BitCol) (c : CellCol) (r r' : Nat) :
    cellRead (bitSet col r s) c r' = cellRead s c r' := by
  simp only [cellRead, bitSet, rowRead_rowWrite]
  by_cases hr : r' = r
  · subst hr; simp [RegionRow.cell_set]
  · simp [hr]

/-- R53: a cell write leaves every bit as before. -/
@[simp] theorem bitRead_cellWrite (col : CellCol) (b : BitCol) (r r' : Nat) (v : Val) :
    bitRead (cellWrite col r v s) b r' = bitRead s b r' := by
  simp only [bitRead, cellWrite, rowRead_rowWrite]
  by_cases hr : r' = r
  · subst hr; simp [RegionRow.bit_assign]
  · simp [hr]

/-- R54: the bit set is 1; every other bit is as before. -/
@[simp] theorem bitRead_bitSet (col col' : BitCol) (r r' : Nat) :
    bitRead (bitSet col r s) col' r' = (decide (col' = col ∧ r' = r) || bitRead s col' r') := by
  simp only [bitRead, bitSet, rowRead_rowWrite]
  by_cases hr : r' = r
  · subst hr; simp [RegionRow.bit_set]
  · simp [hr]

@[simp] theorem cellRead_addEq (a b : CellRef) (c : CellCol) (r : Nat) :
    cellRead (addEq a b s) c r = cellRead s c r := rfl

@[simp] theorem bitRead_addEq (a b : CellRef) (c : BitCol) (r : Nat) :
    bitRead (addEq a b s) c r = bitRead s c r := rfl

@[simp] theorem cellRead_respond (hs : Handles) (c : CellCol) (r : Nat) :
    cellRead (respond hs s) c r = cellRead s c r := rfl

@[simp] theorem bitRead_respond (hs : Handles) (c : BitCol) (r : Nat) :
    bitRead (respond hs s) c r = bitRead s c r := rfl

@[simp] theorem cellRead_withHost (moves : List HostMove) (c : CellCol) (r : Nat) :
    cellRead (withHost moves s) c r = cellRead s c r := rfl

@[simp] theorem bitRead_withHost (moves : List HostMove) (c : BitCol) (r : Nat) :
    bitRead (withHost moves s) c r = bitRead s c r := rfl

@[simp] theorem cellRead_applyReset (p : Phase) (c : CellCol) (r : Nat) :
    cellRead (applyReset p s) c r = .unassigned := RegionRow.cell_blank c

@[simp] theorem bitRead_applyReset (p : Phase) (c : BitCol) (r : Nat) :
    bitRead (applyReset p s) c r = false := RegionRow.bit_blank c

/-- A cell reads the same where the regions are the same. -/
theorem cellRead_congr {s s' : State} (h : s'.region = s.region) (c : CellCol) (r : Nat) :
    cellRead s' c r = cellRead s c r := by
  simp only [cellRead, rowRead, h]

@[inherit_doc cellRead_congr]
theorem bitRead_congr {s s' : State} (h : s'.region = s.region) (c : BitCol) (r : Nat) :
    bitRead s' c r = bitRead s c r := by
  simp only [bitRead, rowRead, h]

/-! ## The canonical form -/

theorem regionWf_iff (n : Nat) (rg : List (Nat × RegionRow)) :
    regionWf n rg = true ↔ sparseWf blankRow rg = true ∧ ∀ e ∈ rg, e.1 < n := by
  simp [regionWf]

theorem regionWf_set {n : Nat} {rg : List (Nat × RegionRow)} {r : Nat} (row : RegionRow)
    (h : regionWf n rg = true) (hr : r < n) : regionWf n (sparseSet blankRow rg r row) = true := by
  obtain ⟨h1, h2⟩ := (regionWf_iff n rg).1 h
  refine (regionWf_iff n _).2 ⟨sparseSet_wf blankRow rg r row h1, fun e he => ?_⟩
  rcases mem_sparseSet blankRow he with ⟨rfl, -⟩ | he
  · exact hr
  · exact h2 e he

theorem cellWrite_wf {n : Nat} {col : CellCol} {r : Nat} {v : Val} (h : regionWf n s.region = true) (hr : r < n) :
    regionWf n (cellWrite col r v s).region = true := regionWf_set _ h hr

theorem bitSet_wf {n : Nat} {col : BitCol} {r : Nat} (h : regionWf n s.region = true) (hr : r < n) :
    regionWf n (bitSet col r s).region = true := regionWf_set _ h hr

/-- The free region of an aborted state is canonical. -/
theorem freeRegion_wf (n k : Nat) : regionWf n (freeRegion n k) = true := by
  have key : ∀ (l m : List (Nat × RegionRow)), (∀ e ∈ l, e.1 < n) → regionWf n m = true →
      regionWf n (l.foldl (fun m e => sparseSet blankRow m e.1 e.2) m) = true := by
    intro l
    induction l with
    | nil => exact fun m _ hm => hm
    | cons e l ih =>
      exact fun m hl hm => ih _ (fun e' he' => hl e' (List.mem_cons_of_mem _ he'))
        (regionWf_set _ hm (hl e (List.mem_cons_self ..)))
  exact key _ _ (fun e he => by simpa using (List.mem_filter.1 he).2) rfl

end Machine

end Sys2Proof
end

