-- ==== Sys2Proof/Laws/Command.lean ====
section
/-! SUPPORT. What a command can do: its preconditions as propositions, and the cases in which it answers a next state, a
refusal or the fault of an aborted run. -/

namespace Sys2Proof.Machine

variable (s : State)

/-! ## Preconditions -/

@[simp] theorem firstBroken_nil : firstBroken [] = none := rfl

@[simp] theorem firstBroken_cons_none (c : Bool) (r : Refusal) (l : List (Bool × Refusal)) :
    firstBroken ((c, r) :: l) = none ↔ c = true ∧ firstBroken l = none := by
  cases c <;> simp [firstBroken]

@[simp] theorem firstBroken_append_none (l l' : List (Bool × Refusal)) :
    firstBroken (l ++ l') = none ↔ firstBroken l = none ∧ firstBroken l' = none := by
  induction l with
  | nil => simp
  | cons e l ih => obtain ⟨c, r⟩ := e; simp [ih, and_assoc]

theorem requireRow_none (r : Nat) (l : List (Bool × Refusal)) :
    firstBroken (requireRow s r :: l) = none ↔ r < s.nRows ∧ firstBroken l = none := by
  simp [requireRow]

theorem requireCell_none (c : CellCol) (r : Nat) (l : List (Bool × Refusal)) :
    firstBroken (requireCell s c r :: l) = none ↔ cellRead s c r = .unassigned ∧ firstBroken l = none := by
  simp [requireCell]

theorem requireBit_none (b : BitCol) (r : Nat) (l : List (Bool × Refusal)) :
    firstBroken (requireBit s b r :: l) = none ↔ bitRead s b r = false ∧ firstBroken l = none := by
  simp [requireBit]

@[simp] theorem requireLookupRow_none (r : Nat) : firstBroken (requireLookupRow s r) = none ↔ LookupFree s r := by
  simp [requireLookupRow, requireCell_none, requireBit_none]

theorem lookupFree_four (t : Nat) :
    (∀ k < 4, LookupFree s (t + k)) ↔
      LookupFree s t ∧ LookupFree s (t + 1) ∧ LookupFree s (t + 2) ∧ LookupFree s (t + 3) := by
  constructor
  · exact fun h => ⟨h 0 (by omega), h 1 (by omega), h 2 (by omega), h 3 (by omega)⟩
  · rintro ⟨h0, h1, h2, h3⟩ k hk
    obtain rfl | rfl | rfl | rfl : k = 0 ∨ k = 1 ∨ k = 2 ∨ k = 3 := by omega
    all_goals assumption

@[simp] theorem requireLookupRows_none (t : Nat) :
    firstBroken (requireLookupRows s t) = none ↔ ∀ k < 4, LookupFree s (t + k) := by
  rw [lookupFree_four]
  simp only [requireLookupRows, firstBroken_append_none, requireLookupRow_none, and_assoc]

@[simp] theorem requireWitnessPair_none (c : CellCol) (t : Nat) :
    firstBroken (requireWitnessPair s c t) = none ↔ WitnessFree s c t := by
  simp [requireWitnessPair, requireCell_none]

@[simp] theorem validHandle_iff (h : Nat) : validHandle s h = true ↔ ValidHandle s h := by
  simp [validHandle]

@[simp] theorem requireHandle_none (sel : Proj) (h : Nat) :
    firstBroken (requireHandle s sel h) = none ↔ Readable s sel.col h := by
  simp [requireHandle]

@[simp] theorem requireOperand_none (x : Operand) :
    firstBroken (requireOperand s x) = none ↔ OperandReadable s x := by
  simp only [requireOperand, firstBroken_append_none, requireHandle_none, Proj.col]

/-! ## The cases of a command -/

variable {s} {s' : State} {requires : List (Bool × Refusal)} {body : Except Halt (State × Handles)}

/-- A command answers a next state exactly when the run is not aborted, its preconditions hold, and its body completes or
raises. -/
theorem runCommand_next_iff :
    runCommand requires body s = .next s' ↔
      NoAbort s ∧ firstBroken requires = none ∧
        ((∃ t hs, body = .ok (t, hs) ∧ s' = respond hs t) ∨
         (∃ e, body = .error (.raise e) ∧ s' = abortRun e s)) := by
  unfold runCommand NoAbort
  cases s.status.state with
  | aborted => simp
  | ok =>
    cases firstBroken requires with
    | some r => simp
    | none =>
      match body with
      | .ok (t, hs') => simp [eq_comm]
      | .error (.raise e) => simp [eq_comm]
      | .error (.refuse r) => simp

/-- R228: after an abort no command has a step. -/
theorem runCommand_aborted (h : s.status.state = .aborted) :
    runCommand requires body s = .fault .abortedRun := by
  simp [runCommand, h]

/-- R16: a command whose first broken precondition is `r` is refused with it. -/
theorem runCommand_refused {r : Refusal} (h : NoAbort s) (hr : firstBroken requires = some r) :
    runCommand requires body s = .refused r := by
  simp [runCommand, show s.status.state = .ok from h, hr]

end Sys2Proof.Machine
end

