-- ==== Sys2Proof/Laws/Decode.lean ====
section
/-! SUPPORT. The fields of a packed command word: each field read back from the word, and the word within the port. -/

namespace Sys2Proof

open Machine (slice)

/-! ## Slices of a packed word -/

theorem slice_head {v w : Nat} (r : Nat) (h : v < 2 ^ w) : slice (v + 2 ^ w * r) 0 w = v := by
  rw [slice, Nat.pow_zero, Nat.div_one, Nat.add_mul_mod_self_left, Nat.mod_eq_of_lt h]

theorem slice_skip {v w : Nat} (r lo width : Nat) (h : v < 2 ^ w) :
    slice (v + 2 ^ w * r) (w + lo) width = slice r lo width := by
  rw [slice, slice, Nat.pow_add, ← Nat.div_div_eq_div_mul, Nat.add_mul_div_left _ _ (Nat.two_pow_pos w),
    Nat.div_eq_of_lt h, Nat.zero_add]

/-- Every field of the list fits its width. -/
def FieldsFit (fs : List (Nat × Nat)) : Prop := ∀ f ∈ fs, f.1 < 2 ^ f.2

theorem packFields_lt (fs : List (Nat × Nat)) (h : FieldsFit fs) : packFields fs < 2 ^ (fs.map Prod.snd).sum := by
  induction fs with
  | nil => simp [packFields]
  | cons f fs ih =>
    have h1 := h f (List.mem_cons_self ..)
    have h2 := ih fun g hg => h g (List.mem_cons_of_mem _ hg)
    simp only [packFields, List.map_cons, List.sum_cons, Nat.pow_add]
    have h3 : packFields fs + 1 ≤ 2 ^ (fs.map Prod.snd).sum := h2
    calc f.1 + 2 ^ f.2 * packFields fs < 2 ^ f.2 + 2 ^ f.2 * packFields fs := by omega
      _ = 2 ^ f.2 * (packFields fs + 1) := by ring
      _ ≤ 2 ^ f.2 * 2 ^ (fs.map Prod.snd).sum := Nat.mul_le_mul_left _ h3

/-- The field after `pre` reads back. -/
theorem slice_packFields (pre : List (Nat × Nat)) (v w : Nat) (post : List (Nat × Nat)) (h : FieldsFit pre)
    (hv : v < 2 ^ w) : slice (packFields (pre ++ (v, w) :: post)) (pre.map Prod.snd).sum w = v := by
  induction pre with
  | nil => exact slice_head _ hv
  | cons f pre ih =>
    have h1 := h f (List.mem_cons_self ..)
    have h2 := ih fun g hg => h g (List.mem_cons_of_mem _ hg)
    simp only [List.cons_append, packFields, List.map_cons, List.sum_cons]
    rw [slice_skip _ _ _ h1, h2]

/-! ## A command word -/

/-- Every field of the word fits its width (R74). -/
structure CommandFits (rw op t h0 h1 h2 h3 h4 h5 : Nat) (v0 v1 v2 v3 : Val) (sel col : Nat) : Prop where
  op : op < 2 ^ 3
  t : t < 2 ^ rw
  h0 : h0 < 2 ^ rw
  h1 : h1 < 2 ^ rw
  h2 : h2 < 2 ^ rw
  h3 : h3 < 2 ^ rw
  h4 : h4 < 2 ^ rw
  h5 : h5 < 2 ^ rw
  v0 : v0.fits = true
  v1 : v1.fits = true
  v2 : v2.fits = true
  v3 : v3.fits = true
  sel : sel < 2 ^ 1
  col : col < 2 ^ 2

/-- A candidate as a value and a tag. -/
def Val.number : Val → Nat
  | .unresolved => 0
  | .known n => n

@[inherit_doc Val.number]
def Val.tag : Val → Nat
  | .unresolved => 0
  | .known _ => 1

theorem candFields_eq (v : Val) : candFields v = [(v.number, 32), (v.tag, 1)] := by cases v <;> rfl

theorem Val.number_lt (v : Val) (h : v.fits = true) : v.number < 2 ^ 32 := by
  cases v with
  | unresolved => exact Nat.two_pow_pos 32
  | known n => exact of_decide_eq_true h

theorem Val.tag_lt (v : Val) : v.tag < 2 ^ 1 := by cases v <;> simp [Val.tag]

section
variable {rw op t h0 h1 h2 h3 h4 h5 : Nat} {v0 v1 v2 v3 : Val} {sel col : Nat}

/-- The eighteen fields of a word, flat. -/
theorem packCommand_eq : packCommand rw op t h0 h1 h2 h3 h4 h5 v0 v1 v2 v3 sel col =
    packFields [(op, 3), (t, rw), (h0, rw), (h1, rw), (h2, rw), (h3, rw), (h4, rw), (h5, rw),
      (v0.number, 32), (v0.tag, 1), (v1.number, 32), (v1.tag, 1), (v2.number, 32), (v2.tag, 1),
      (v3.number, 32), (v3.tag, 1), (sel, 1), (col, 2)] := by
  simp [packCommand, candFields_eq]

theorem commandFields_fit (h : CommandFits rw op t h0 h1 h2 h3 h4 h5 v0 v1 v2 v3 sel col) :
    FieldsFit [(op, 3), (t, rw), (h0, rw), (h1, rw), (h2, rw), (h3, rw), (h4, rw), (h5, rw),
      (v0.number, 32), (v0.tag, 1), (v1.number, 32), (v1.tag, 1), (v2.number, 32), (v2.tag, 1),
      (v3.number, 32), (v3.tag, 1), (sel, 1), (col, 2)] := by
  have e0 := v0.number_lt h.v0
  have e1 := v1.number_lt h.v1
  have e2 := v2.number_lt h.v2
  have e3 := v3.number_lt h.v3
  have g0 := v0.tag_lt
  have g1 := v1.tag_lt
  have g2 := v2.tag_lt
  have g3 := v3.tag_lt
  obtain ⟨a0, a1, a2, a3, a4, a5, a6, a7, -, -, -, -, a8, a9⟩ := h
  intro f hf
  simp only [List.mem_cons, List.not_mem_nil, or_false] at hf
  rcases hf with rfl | rfl | rfl | rfl | rfl | rfl | rfl | rfl | rfl | rfl | rfl | rfl | rfl | rfl | rfl | rfl | rfl | rfl <;>
    assumption

theorem packCommand_lt (h : CommandFits rw op t h0 h1 h2 h3 h4 h5 v0 v1 v2 v3 sel col) :
    packCommand rw op t h0 h1 h2 h3 h4 h5 v0 v1 v2 v3 sel col < 2 ^ cmdWidth rw := by
  rw [packCommand_eq]
  refine lt_of_lt_of_eq (packFields_lt _ (commandFields_fit h)) ?_
  simp only [List.map_cons, List.map_nil, List.sum_cons, List.sum_nil, cmdWidth, candBase]
  ring_nf

/-- Field number `k` of a word reads back at the sum of the widths below it. -/
theorem slice_packCommand (k v w lo : Nat) (h : CommandFits rw op t h0 h1 h2 h3 h4 h5 v0 v1 v2 v3 sel col)
    (fs : List (Nat × Nat))
    (hfs : fs = [(op, 3), (t, rw), (h0, rw), (h1, rw), (h2, rw), (h3, rw), (h4, rw), (h5, rw),
      (v0.number, 32), (v0.tag, 1), (v1.number, 32), (v1.tag, 1), (v2.number, 32), (v2.tag, 1),
      (v3.number, 32), (v3.tag, 1), (sel, 1), (col, 2)])
    (hk : fs[k]? = some (v, w)) (hlo : ((fs.take k).map Prod.snd).sum = lo) :
    slice (packCommand rw op t h0 h1 h2 h3 h4 h5 v0 v1 v2 v3 sel col) lo w = v := by
  have hf := commandFields_fit h
  rw [packCommand_eq, ← hfs, ← hlo]
  rw [← hfs] at hf
  obtain ⟨hlt, hget⟩ := List.getElem?_eq_some_iff.1 hk
  have hmem : (v, w) ∈ fs := hget ▸ List.getElem_mem hlt
  have hsplit : fs = fs.take k ++ (v, w) :: fs.drop (k + 1) := by
    rw [← hget, List.getElem_cons_drop, List.take_append_drop]
  conv_lhs => rw [hsplit]
  have ht : (fs.take k ++ (v, w) :: fs.drop (k + 1)).take k = fs.take k := by rw [← hsplit]
  rw [ht]
  exact slice_packFields _ _ _ _ (fun f hf' => hf f (List.mem_of_mem_take hf')) (hf _ hmem)

variable (h : CommandFits rw op t h0 h1 h2 h3 h4 h5 v0 v1 v2 v3 sel col)
include h

theorem fieldOp_pack : fieldOp (packCommand rw op t h0 h1 h2 h3 h4 h5 v0 v1 v2 v3 sel col) = op :=
  slice_packCommand 0 _ _ _ h _ rfl rfl rfl

theorem fieldT_pack : fieldT rw (packCommand rw op t h0 h1 h2 h3 h4 h5 v0 v1 v2 v3 sel col) = t :=
  slice_packCommand 1 _ _ _ h _ rfl rfl rfl

theorem fieldH_pack : ∀ k < 6, some (fieldH rw k (packCommand rw op t h0 h1 h2 h3 h4 h5 v0 v1 v2 v3 sel col)) =
    [h0, h1, h2, h3, h4, h5][k]? := by
  intro k hk
  obtain rfl | rfl | rfl | rfl | rfl | rfl : k = 0 ∨ k = 1 ∨ k = 2 ∨ k = 3 ∨ k = 4 ∨ k = 5 := by omega
  all_goals refine congrArg some ?_
  · exact slice_packCommand 2 _ _ _ h _ rfl rfl (by simp; try ring)
  · exact slice_packCommand 3 _ _ _ h _ rfl rfl (by simp; try ring)
  · exact slice_packCommand 4 _ _ _ h _ rfl rfl (by simp; try ring)
  · exact slice_packCommand 5 _ _ _ h _ rfl rfl (by simp; try ring)
  · exact slice_packCommand 6 _ _ _ h _ rfl rfl (by simp; try ring)
  · exact slice_packCommand 7 _ _ _ h _ rfl rfl (by simp; try ring)

theorem fieldSel_pack : fieldSel rw (packCommand rw op t h0 h1 h2 h3 h4 h5 v0 v1 v2 v3 sel col) =
    if sel = 0 then .dense else .spread := by
  rw [fieldSel, slice_packCommand 16 sel 1 (candBase rw + 132) h _ rfl rfl (by simp [candBase]; try ring)]

theorem fieldV_pack : ∀ k < 4, some (fieldV rw k (packCommand rw op t h0 h1 h2 h3 h4 h5 v0 v1 v2 v3 sel col)) =
    [v0, v1, v2, v3][k]? := by
  have key : ∀ v : Val, (if v.tag = 0 then Val.unresolved else Val.known v.number) = v := by
    intro v; cases v <;> rfl
  intro k hk
  obtain rfl | rfl | rfl | rfl : k = 0 ∨ k = 1 ∨ k = 2 ∨ k = 3 := by omega
  all_goals refine congrArg some ?_
  all_goals rw [fieldV]
  · rw [slice_packCommand 9 v0.tag 1 _ h _ rfl rfl (by simp [candBase]; try ring),
      slice_packCommand 8 v0.number 32 _ h _ rfl rfl (by simp [candBase]; try ring), key]
  · rw [slice_packCommand 11 v1.tag 1 _ h _ rfl rfl (by simp [candBase]; try ring),
      slice_packCommand 10 v1.number 32 _ h _ rfl rfl (by simp [candBase]; try ring), key]
  · rw [slice_packCommand 13 v2.tag 1 _ h _ rfl rfl (by simp [candBase]; try ring),
      slice_packCommand 12 v2.number 32 _ h _ rfl rfl (by simp [candBase]; try ring), key]
  · rw [slice_packCommand 15 v3.tag 1 _ h _ rfl rfl (by simp [candBase]; try ring),
      slice_packCommand 14 v3.number 32 _ h _ rfl rfl (by simp [candBase]; try ring), key]

end

theorem fieldCol_pack {rw op t h0 h1 h2 h3 h4 h5 : Nat} {v0 v1 v2 v3 : Val} {sel : Nat} (w : WCol)
    (h : CommandFits rw op t h0 h1 h2 h3 h4 h5 v0 v1 v2 v3 sel w.code) :
    fieldCol rw (packCommand rw op t h0 h1 h2 h3 h4 h5 v0 v1 v2 v3 sel w.code) = some w := by
  rw [fieldCol, slice_packCommand 17 w.code 2 (candBase rw + 133) h _ rfl rfl (by simp [candBase]; try ring)]
  cases w <;> rfl

end Sys2Proof
end

