-- ==== Sys2Proof/Laws/Enforcer.lean ====
section
/-! SUPPORT. What CERTIFY, COPY and CERT4 can answer: one lemma per body, and the reads of the state each leaves. -/

namespace Sys2Proof.Machine

variable {s s' : State}

/-! ## Reading after a certification -/

@[simp] theorem bindRow_table (t : Nat) (v x : Val) : (bindRow t v x s).table = s.table := rfl
@[simp] theorem bindRow_eqList (t : Nat) (v x : Val) : (bindRow t v x s).eqList = s.eqList := rfl
@[simp] theorem bindRow_phase (t : Nat) (v x : Val) : (bindRow t v x s).phase = s.phase := rfl
@[simp] theorem bindRow_status (t : Nat) (v x : Val) : (bindRow t v x s).status = s.status := rfl
@[simp] theorem bindRow_nRows (t : Nat) (v x : Val) : (bindRow t v x s).nRows = s.nRows := rfl
@[simp] theorem bindRow_host (t : Nat) (v x : Val) : (bindRow t v x s).host = s.host := rfl
@[simp] theorem bindRow_rsp (t : Nat) (v x : Val) : (bindRow t v x s).rsp = s.rsp := rfl
@[simp] theorem bindRow_freeCount (t : Nat) (v x : Val) : (bindRow t v x s).freeCount = s.freeCount := rfl

@[simp] theorem cellRead_bindRow (t : Nat) (v x : Val) (c : CellCol) (r : Nat) :
    cellRead (bindRow t v x s) c r =
      if c = .ls ∧ r = t then .assigned x else if c = .ld ∧ r = t then .assigned v else cellRead s c r := by
  simp [bindRow]

@[simp] theorem bitRead_bindRow (t : Nat) (v x : Val) (b : BitCol) (r : Nat) :
    bitRead (bindRow t v x s) b r = (decide (b = .lq ∧ r = t) || bitRead s b r) := by
  simp [bindRow]

theorem bindRow_wf {n t : Nat} {v x : Val} (h : regionWf n s.region = true) (ht : t < n) :
    regionWf n (bindRow t v x s).region = true :=
  bitSet_wf _ (cellWrite_wf _ (cellWrite_wf _ h ht) ht) ht

/-! ## CERTIFY -/

/-- R134 to R137: a certification completes exactly with the table image of its candidate. -/
theorem certify_ok_iff (v : Val) (t : Nat) :
    certify v t s = .ok s' ↔ ∃ x, TableImage s.table v x ∧ s' = bindRow t v x s := by
  cases v with
  | unresolved => simp [certify, TableImage, eq_comm]
  | known c =>
    simp only [certify, TableImage]
    by_cases hc : 2 ^ 16 ≤ c
    · rw [if_pos hc]; simp; omega
    · rw [if_neg hc]
      cases hx : tableRead s.table c with
      | none => simp
      | some x =>
        simp only [Except.ok.injEq, Option.some.injEq]
        constructor
        · rintro rfl; exact ⟨.known x, ⟨by omega, x, rfl, rfl⟩, rfl⟩
        · rintro ⟨_, ⟨-, _, rfl, rfl⟩, rfl⟩; rfl

/-- R135, R136: otherwise it raises, the width check first. -/
theorem certify_error_iff (v : Val) (t : Nat) (h : Halt) :
    certify v t s = .error h ↔ ∃ c, v = .known c ∧
      ((2 ^ 16 ≤ c ∧ h = .raise (.candidateWidth t)) ∨
       (c < 2 ^ 16 ∧ tableRead s.table c = none ∧ h = .raise (.candidateNoRow t))) := by
  cases v with
  | unresolved => simp [certify]
  | known c =>
    simp only [certify, Val.known.injEq, exists_eq_left']
    by_cases hc : 2 ^ 16 ≤ c
    · rw [if_pos hc]
      constructor
      · intro e; injection e with e; exact .inl ⟨hc, e.symm⟩
      · rintro (⟨-, rfl⟩ | ⟨hc', -⟩)
        · rfl
        · omega
    · rw [if_neg hc]
      cases hx : tableRead s.table c with
      | none =>
        constructor
        · intro e; injection e with e; exact .inr ⟨by omega, rfl, e.symm⟩
        · rintro (⟨hc', -⟩ | ⟨-, -, rfl⟩)
          · omega
          · rfl
      | some x => simp; omega

/-! ## COPY -/

theorem resolve_ok_iff (h : Nat) (sel : Proj) (row : Nat) (v : Val) :
    resolve h sel row s = .ok v ↔ cellRead s sel.col h = .assigned v ∧ Resolved s v := by
  unfold resolve Resolved
  match cellRead s sel.col h with
  | .unassigned => simp
  | .assigned .unresolved =>
    cases hp : s.phase <;> simp [eq_comm]
  | .assigned (.known n) => simp; rintro rfl; simp

theorem resolve_error_iff (h : Nat) (sel : Proj) (row : Nat) (e : Halt) :
    resolve h sel row s = .error e ↔
      (cellRead s sel.col h = .unassigned ∧ e = .refuse (.unassignedRead { col := sel.col, row := h })) ∨
      (cellRead s sel.col h = .assigned .unresolved ∧ s.phase = .witness ∧
        e = .raise (.missingPriorAssignment row)) := by
  unfold resolve
  match cellRead s sel.col h with
  | .unassigned => simp [eq_comm]
  | .assigned .unresolved => cases hp : s.phase <;> simp [eq_comm]
  | .assigned (.known n) => simp

/-- The state a copy leaves. -/
def copied (h : Nat) (sel : Proj) (w : WCol) (t : Nat) (v : Val) (s : State) : State :=
  addEq { col := sel.col, row := h } { col := w.col, row := t } (cellWrite w.col t v s)

/-- R139: a copy completes exactly when its source holds a value that can be resolved in the phase. -/
theorem copy_ok_iff (h : Nat) (sel : Proj) (w : WCol) (t : Nat) (v : Val) :
    copy h sel w t s = .ok (v, s') ↔
      cellRead s sel.col h = .assigned v ∧ Resolved s v ∧ s' = copied h sel w t v s := by
  unfold copy
  cases hr : resolve h sel t s with
  | error e =>
    simp only [bind, Except.bind, reduceCtorEq, false_iff, not_and]
    intro h1 h2
    rw [(resolve_ok_iff h sel t v).2 ⟨h1, h2⟩] at hr
    cases hr
  | ok v' =>
    obtain ⟨h1, h2⟩ := (resolve_ok_iff h sel t v').1 hr
    simp only [bind, Except.bind, pure, Except.pure, Except.ok.injEq, Prod.mk.injEq, h1, Cell.assigned.injEq]
    constructor
    · rintro ⟨rfl, rfl⟩; exact ⟨rfl, h2, rfl⟩
    · rintro ⟨rfl, -, rfl⟩; exact ⟨rfl, rfl⟩

/-- R138: otherwise it raises for the destination row, or its source is unassigned. -/
theorem copy_error_iff (h : Nat) (sel : Proj) (w : WCol) (t : Nat) (e : Halt) :
    copy h sel w t s = .error e ↔ resolve h sel t s = .error e := by
  unfold copy
  cases resolve h sel t s <;> simp [bind, Except.bind, pure, Except.pure]

/-! ## CERT4 -/

/-- The state four certifications leave. -/
def bound4 (t : Nat) (v x : Candidates) (s : State) : State :=
  bindRow (t + 3) v.v1Odd x.v1Odd (bindRow (t + 2) v.v1Even x.v1Even
    (bindRow (t + 1) v.v0Odd x.v0Odd (bindRow t v.v0Even x.v0Even s)))

/-- R143: CERT4 completes exactly with the table images of its four candidates. -/
theorem cert4_ok_iff (t : Nat) (c : Candidates) :
    cert4 t c s = .ok s' ↔ ∃ x, TableImages s.table c x ∧ s' = bound4 t c x s := by
  simp only [cert4, bind, Except.bind, TableImages, bound4]
  constructor
  · intro h
    split at h
    · cases h
    · rename_i h1
      obtain ⟨x1, i1, rfl⟩ := (certify_ok_iff _ _).1 h1
      split at h
      · cases h
      · rename_i h2
        obtain ⟨x2, i2, rfl⟩ := (certify_ok_iff _ _).1 h2
        split at h
        · cases h
        · rename_i h3
          obtain ⟨x3, i3, rfl⟩ := (certify_ok_iff _ _).1 h3
          obtain ⟨x4, i4, rfl⟩ := (certify_ok_iff _ _).1 h
          simp only [bindRow_table] at i2 i3 i4
          exact ⟨⟨x1, x2, x3, x4⟩, ⟨i1, i2, i3, i4⟩, rfl⟩
  · rintro ⟨x, ⟨i1, i2, i3, i4⟩, rfl⟩
    rw [(certify_ok_iff c.v0Even t).2 ⟨_, i1, rfl⟩]
    simp only
    rw [(certify_ok_iff c.v0Odd (t + 1)).2 ⟨x.v0Odd, by rwa [bindRow_table], rfl⟩]
    simp only
    rw [(certify_ok_iff c.v1Even (t + 2)).2 ⟨x.v1Even, by rwa [bindRow_table, bindRow_table], rfl⟩]
    simp only
    rw [(certify_ok_iff c.v1Odd (t + 3)).2
      ⟨x.v1Odd, by rwa [bindRow_table, bindRow_table, bindRow_table], rfl⟩]

end Sys2Proof.Machine
end

