-- ==== Sys2Proof/Laws/Gadgets.lean ====
section
/-! SUPPORT. What the bodies of F1, CH and CHNEG can answer, and the reads of the states they pass through. -/

namespace Sys2Proof.Machine

variable {s s' : State}

/-- A computation in steps completes exactly when its first step does and the rest does. -/
theorem exceptBind_ok_iff {ε α β : Type} (x : Except ε α) (f : α → Except ε β) (b : β) :
    (x >>= f) = .ok b ↔ ∃ a, x = .ok a ∧ f a = .ok b := by
  cases x <;> simp [bind, Except.bind]

/-! ## Copies -/

section
variable (h : Nat) (sel : Proj) (w : WCol) (t : Nat) (v : Val)

@[simp] theorem copied_table : (copied h sel w t v s).table = s.table := rfl
@[simp] theorem copied_phase : (copied h sel w t v s).phase = s.phase := rfl
@[simp] theorem copied_status : (copied h sel w t v s).status = s.status := rfl
@[simp] theorem copied_nRows : (copied h sel w t v s).nRows = s.nRows := rfl
@[simp] theorem copied_host : (copied h sel w t v s).host = s.host := rfl
@[simp] theorem copied_freeCount : (copied h sel w t v s).freeCount = s.freeCount := rfl
@[simp] theorem copied_eqList : (copied h sel w t v s).eqList =
    s.eqList ++ [{ left := { col := sel.col, row := h }, right := { col := w.col, row := t } }] := rfl

@[simp] theorem cellRead_copied (c : CellCol) (r : Nat) :
    cellRead (copied h sel w t v s) c r = if c = w.col ∧ r = t then .assigned v else cellRead s c r := by
  simp [copied]

@[simp] theorem bitRead_copied (b : BitCol) (r : Nat) : bitRead (copied h sel w t v s) b r = bitRead s b r := by
  simp [copied]

theorem copied_wf {n : Nat} (hs : regionWf n s.region = true) (ht : t < n) :
    regionWf n (copied h sel w t v s).region = true := cellWrite_wf _ hs ht

end

theorem wcol_ne_ld (w : WCol) : w.col ≠ .ld := by cases w <;> decide

theorem wcol_ne_ls (w : WCol) : w.col ≠ .ls := by cases w <;> decide

theorem copyRead_congr {s1 : State} (h : ∀ c r, c = CellCol.ld ∨ c = CellCol.ls → cellRead s1 c r = cellRead s c r)
    (hp : s1.phase = s.phase) (k : Nat) (sel : Proj) (row : Nat) : resolve k sel row s1 = resolve k sel row s := by
  unfold resolve
  rw [h sel.col k (by cases sel <;> simp [Proj.col]), hp]

/-- A copy into a witness column leaves every projection to be resolved as before. -/
@[simp] theorem resolve_copied (h : Nat) (sel sel' : Proj) (w : WCol) (t : Nat) (v : Val) (k row : Nat) :
    resolve k sel' row (copied h sel w t v s) = resolve k sel' row s := by
  have hd := wcol_ne_ld w
  have hl := wcol_ne_ls w
  refine copyRead_congr (s := s) (s1 := copied h sel w t v s) (fun c r hc => ?_) (copied_phase ..) k sel' row
  rcases hc with rfl | rfl <;> simp [hd.symm, hl.symm]

/-- The state the copies of an operand leave. -/
def copiedOperand (x : Operand) (w : WCol) (t : Nat) (lo hi : Val) (s : State) : State :=
  copied x.hi .spread w (t + 1) hi (copied x.lo .spread w t lo s)

/-- The value each spread half of an operand resolves to. -/
abbrev OperandResolves (s : State) (x : Operand) (lo hi : Val) : Prop :=
  cellRead s .ls x.lo = .assigned lo ∧ cellRead s .ls x.hi = .assigned hi ∧ Resolved s lo ∧ Resolved s hi

theorem copyOperand_ok_iff (x : Operand) (w : WCol) (t : Nat) (lo hi : Val) :
    copyOperand x w t s = .ok (lo, hi, s') ↔ OperandResolves s x lo hi ∧ s' = copiedOperand x w t lo hi s := by
  have hls := (wcol_ne_ls w).symm
  simp only [copyOperand, exceptBind_ok_iff, Prod.exists, copy_ok_iff, pure, Except.pure, Except.ok.injEq,
    Prod.mk.injEq, copiedOperand, Proj.col]
  constructor
  · rintro ⟨lo', s1, ⟨r1, f1, rfl⟩, hi', s2, ⟨r2, f2, rfl⟩, rfl, rfl, rfl⟩
    simp only [cellRead_copied, hls, false_and, if_false] at r2
    exact ⟨⟨r1, r2, f1, f2⟩, rfl⟩
  · rintro ⟨⟨r1, r2, f1, f2⟩, rfl⟩
    exact ⟨lo, _, ⟨r1, f1, rfl⟩, hi, _, ⟨by simpa [hls] using r2, f2, rfl⟩, rfl, rfl, rfl⟩

/-- R229 (2): the copies of an operand fail with the first of its halves that does not resolve. -/
theorem copyOperand_error_iff (x : Operand) (w : WCol) (t : Nat) (e : Halt) :
    copyOperand x w t s = .error e ↔
      resolve x.lo .spread t s = .error e ∨
      (∃ lo, resolve x.lo .spread t s = .ok lo) ∧ resolve x.hi .spread (t + 1) s = .error e := by
  simp only [copyOperand, copy, bind, Except.bind, pure, Except.pure]
  cases h1 : resolve x.lo .spread t s with
  | error e1 => simp
  | ok lo =>
    have h3 : ∀ s1 : State, s1 = addEq { col := Proj.spread.col, row := x.lo } { col := w.col, row := t }
        (cellWrite w.col t lo s) → resolve x.hi .spread (t + 1) s1 = resolve x.hi .spread (t + 1) s :=
      fun s1 h => h ▸ resolve_copied x.lo .spread .spread w t lo x.hi (t + 1)
    simp only [h3 _ rfl]
    cases h2 : resolve x.hi .spread (t + 1) s <;> simp

section
variable (x : Operand) (w : WCol) (t : Nat) (lo hi : Val)

@[simp] theorem copiedOperand_table : (copiedOperand x w t lo hi s).table = s.table := rfl
@[simp] theorem copiedOperand_phase : (copiedOperand x w t lo hi s).phase = s.phase := rfl
@[simp] theorem copiedOperand_status : (copiedOperand x w t lo hi s).status = s.status := rfl
@[simp] theorem copiedOperand_nRows : (copiedOperand x w t lo hi s).nRows = s.nRows := rfl
@[simp] theorem copiedOperand_host : (copiedOperand x w t lo hi s).host = s.host := rfl
@[simp] theorem copiedOperand_freeCount : (copiedOperand x w t lo hi s).freeCount = s.freeCount := rfl
@[simp] theorem copiedOperand_eqList :
    (copiedOperand x w t lo hi s).eqList = s.eqList ++ copiedEntries w.col t x := by
  simp [copiedOperand, copiedEntries, Proj.col]

@[simp] theorem cellRead_copiedOperand (c : CellCol) (r : Nat) :
    cellRead (copiedOperand x w t lo hi s) c r =
      if c = w.col ∧ r = t + 1 then .assigned hi else if c = w.col ∧ r = t then .assigned lo else cellRead s c r := by
  simp [copiedOperand]

@[simp] theorem bitRead_copiedOperand (b : BitCol) (r : Nat) :
    bitRead (copiedOperand x w t lo hi s) b r = bitRead s b r := by
  simp [copiedOperand]

theorem copiedOperand_wf {n : Nat} (hs : regionWf n s.region = true) (ht : t + 1 < n) :
    regionWf n (copiedOperand x w t lo hi s).region = true :=
  copied_wf _ _ _ _ _ (copied_wf _ _ _ _ _ hs (by omega)) ht

/-- An operand resolves after the copies of another as before. -/
@[simp] theorem operandResolves_copiedOperand (y : Operand) (a b : Val) :
    OperandResolves (copiedOperand x w t lo hi s) y a b ↔ OperandResolves s y a b := by
  have hl := (wcol_ne_ls w).symm
  simp [OperandResolves, Resolved, hl]

end

/-! ## The accumulator -/

theorem requireAccumulator_ok_iff (acc : Val) : requireAccumulator acc = .ok () ↔ AccFits acc := by
  cases acc with
  | unresolved => simp [requireAccumulator, AccFits]
  | known n =>
    simp only [requireAccumulator, AccFits, Val.known.injEq, forall_eq']
    split <;> simp_all

theorem requireAccumulator_error_iff (acc : Val) (e : Halt) :
    requireAccumulator acc = .error e ↔ ¬ AccFits acc ∧ e = .refuse .accumulatorTooWide := by
  cases acc with
  | unresolved => simp [requireAccumulator, AccFits]
  | known n =>
    simp only [requireAccumulator, AccFits, Val.known.injEq, forall_eq']
    split <;> simp_all [eq_comm]

theorem certifyAccumulator_ok_iff (t : Nat) (acc : Val) :
    certifyAccumulator t acc s = .ok s' ↔
      AccFits acc ∧ ∃ x, TableImages s.table (split4 acc) x ∧ s' = bound4 t (split4 acc) x s := by
  simp only [certifyAccumulator, bind, Except.bind, ← requireAccumulator_ok_iff, ← cert4_ok_iff]
  cases requireAccumulator acc <;> simp

theorem certifyAccumulator_error_iff (t : Nat) (acc : Val) (e : Halt) :
    certifyAccumulator t acc s = .error e ↔
      (¬ AccFits acc ∧ e = .refuse .accumulatorTooWide) ∨
      (AccFits acc ∧ cert4 t (split4 acc) s = .error e) := by
  rw [← requireAccumulator_error_iff, ← requireAccumulator_ok_iff]
  simp only [certifyAccumulator, bind, Except.bind]
  cases requireAccumulator acc <;> simp

section
variable (t : Nat) (v x : Candidates)

@[simp] theorem bound4_table : (bound4 t v x s).table = s.table := by simp [bound4]
@[simp] theorem bound4_eqList : (bound4 t v x s).eqList = s.eqList := by simp [bound4]
@[simp] theorem bound4_phase : (bound4 t v x s).phase = s.phase := by simp [bound4]
@[simp] theorem bound4_status : (bound4 t v x s).status = s.status := by simp [bound4]
@[simp] theorem bound4_nRows : (bound4 t v x s).nRows = s.nRows := by simp [bound4]
@[simp] theorem bound4_host : (bound4 t v x s).host = s.host := by simp [bound4]
@[simp] theorem bound4_freeCount : (bound4 t v x s).freeCount = s.freeCount := by simp [bound4]

theorem bound4_wf {n : Nat} (h : regionWf n s.region = true) (ht : t + 3 < n) :
    regionWf n (bound4 t v x s).region = true := by
  unfold bound4
  exact bindRow_wf (bindRow_wf (bindRow_wf (bindRow_wf h (by omega)) (by omega)) (by omega)) ht

end

/-! ## The bodies -/

/-- R165: the accumulator of F1. -/
def f1Sum (bLo bHi cLo cHi dLo dHi : Val) : Val :=
  Val.vzip3 (fun x y z => x + y + z) (join64 bLo bHi) (join64 cLo cHi) (join64 dLo dHi)

/-- R175, R185: the accumulator of CH and CHNEG. -/
def pairSum (xLo xHi yLo yHi : Val) : Val := Val.vzip (fun a b => a + b) (join64 xLo xHi) (join64 yLo yHi)

/-- The state F1 leaves before its certifications. -/
def f1Wired (t : Nat) (b c d : Operand) (bLo bHi cLo cHi dLo dHi : Val) (s : State) : State :=
  bitSet .sf1 t (copiedOperand d .w2 t dLo dHi (copiedOperand c .w1 t cLo cHi (copiedOperand b .w0 t bLo bHi s)))

/-- The state CH leaves before its certifications. -/
def chWired (t : Nat) (x y : Operand) (xLo xHi yLo yHi : Val) (s : State) : State :=
  bitSet .sch t (copiedOperand y .w1 t yLo yHi (copiedOperand x .w0 t xLo xHi s))

/-- The state CHNEG leaves before its certifications. -/
def chnegWired (t : Nat) (x z : Operand) (xLo xHi zLo zHi : Val) (s : State) : State :=
  bitSet .scn t (cellWrite .w2 (t + 1) (xHi.vmap negSpread) (cellWrite .w2 t (xLo.vmap negSpread)
    (copiedOperand z .w1 t zLo zHi (copiedOperand x .w0 t xLo xHi s))))

theorem f1Body_ok_iff (t : Nat) (b c d : Operand) (hs : Handles) :
    f1Body t b c d s = .ok (s', hs) ↔
      ∃ bLo bHi cLo cHi dLo dHi x,
        OperandResolves s b bLo bHi ∧ OperandResolves s c cLo cHi ∧ OperandResolves s d dLo dHi ∧
        AccFits (f1Sum bLo bHi cLo cHi dLo dHi) ∧
        TableImages s.table (split4 (f1Sum bLo bHi cLo cHi dLo dHi)) x ∧
        s' = bound4 t (split4 (f1Sum bLo bHi cLo cHi dLo dHi)) x (f1Wired t b c d bLo bHi cLo cHi dLo dHi s) ∧
        hs = pairHandles (evenPair t) := by
  simp only [f1Body, f1Sum, f1Wired, exceptBind_ok_iff, Prod.exists, copyOperand_ok_iff, certifyAccumulator_ok_iff,
    bitSet_table, pure, Except.pure, Except.ok.injEq, Prod.mk.injEq]
  constructor
  · rintro ⟨bLo, bHi, s1, ⟨r1, rfl⟩, cLo, cHi, s2, ⟨r2, rfl⟩, dLo, dHi, s3, ⟨r3, rfl⟩, s4, ⟨f, x, i, rfl⟩, rfl, rfl⟩
    rw [operandResolves_copiedOperand] at r2
    rw [operandResolves_copiedOperand, operandResolves_copiedOperand] at r3
    simp only [copiedOperand_table] at i
    exact ⟨bLo, bHi, cLo, cHi, dLo, dHi, x, r1, r2, r3, f, i, rfl, rfl⟩
  · rintro ⟨bLo, bHi, cLo, cHi, dLo, dHi, x, r1, r2, r3, f, i, rfl, rfl⟩
    exact ⟨bLo, bHi, _, ⟨r1, rfl⟩, cLo, cHi, _, ⟨(operandResolves_copiedOperand ..).2 r2, rfl⟩, dLo, dHi, _,
      ⟨(operandResolves_copiedOperand ..).2 ((operandResolves_copiedOperand ..).2 r3), rfl⟩, _,
      ⟨f, x, by simpa only [copiedOperand_table] using i, rfl⟩, rfl, rfl⟩

theorem chBody_ok_iff (t : Nat) (x y : Operand) (hs : Handles) :
    chBody t x y s = .ok (s', hs) ↔
      ∃ xLo xHi yLo yHi i,
        OperandResolves s x xLo xHi ∧ OperandResolves s y yLo yHi ∧
        AccFits (pairSum xLo xHi yLo yHi) ∧ TableImages s.table (split4 (pairSum xLo xHi yLo yHi)) i ∧
        s' = bound4 t (split4 (pairSum xLo xHi yLo yHi)) i (chWired t x y xLo xHi yLo yHi s) ∧
        hs = pairHandles (oddPair t) := by
  simp only [chBody, pairSum, chWired, exceptBind_ok_iff, Prod.exists, copyOperand_ok_iff, certifyAccumulator_ok_iff,
    bitSet_table, pure, Except.pure, Except.ok.injEq, Prod.mk.injEq]
  constructor
  · rintro ⟨xLo, xHi, s1, ⟨r1, rfl⟩, yLo, yHi, s2, ⟨r2, rfl⟩, s4, ⟨f, i, hi, rfl⟩, rfl, rfl⟩
    rw [operandResolves_copiedOperand] at r2
    simp only [copiedOperand_table] at hi
    exact ⟨xLo, xHi, yLo, yHi, i, r1, r2, f, hi, rfl, rfl⟩
  · rintro ⟨xLo, xHi, yLo, yHi, i, r1, r2, f, hi, rfl, rfl⟩
    exact ⟨xLo, xHi, _, ⟨r1, rfl⟩, yLo, yHi, _, ⟨(operandResolves_copiedOperand ..).2 r2, rfl⟩, _,
      ⟨f, i, by simpa only [copiedOperand_table] using hi, rfl⟩, rfl, rfl⟩

theorem chnegBody_ok_iff (t : Nat) (x z : Operand) (hs : Handles) :
    chnegBody t x z s = .ok (s', hs) ↔
      ∃ xLo xHi zLo zHi i,
        OperandResolves s x xLo xHi ∧ OperandResolves s z zLo zHi ∧
        AccFits (pairSum (xLo.vmap negSpread) (xHi.vmap negSpread) zLo zHi) ∧
        TableImages s.table (split4 (pairSum (xLo.vmap negSpread) (xHi.vmap negSpread) zLo zHi)) i ∧
        s' = bound4 t (split4 (pairSum (xLo.vmap negSpread) (xHi.vmap negSpread) zLo zHi)) i
          (chnegWired t x z xLo xHi zLo zHi s) ∧
        hs = pairHandles (oddPair t) := by
  simp only [chnegBody, pairSum, chnegWired, exceptBind_ok_iff, Prod.exists, copyOperand_ok_iff, certifyAccumulator_ok_iff,
    bitSet_table, cellWrite_table, pure, Except.pure, Except.ok.injEq, Prod.mk.injEq]
  constructor
  · rintro ⟨xLo, xHi, s1, ⟨r1, rfl⟩, yLo, yHi, s2, ⟨r2, rfl⟩, s4, ⟨f, i, hi, rfl⟩, rfl, rfl⟩
    rw [operandResolves_copiedOperand] at r2
    simp only [copiedOperand_table] at hi
    exact ⟨xLo, xHi, yLo, yHi, i, r1, r2, f, hi, rfl, rfl⟩
  · rintro ⟨xLo, xHi, yLo, yHi, i, r1, r2, f, hi, rfl, rfl⟩
    exact ⟨xLo, xHi, _, ⟨r1, rfl⟩, yLo, yHi, _, ⟨(operandResolves_copiedOperand ..).2 r2, rfl⟩, _,
      ⟨f, i, by simpa only [copiedOperand_table] using hi, rfl⟩, rfl, rfl⟩

end Sys2Proof.Machine
end

