-- ==== Sys2Proof/Laws/Exec.lean ====
section
/-! SUPPORT. What `exec` can answer, said once: a command that has a next state has its preconditions, and either completed
(`Completed`) or raised (`Raises`). Later proofs cite `exec_next_iff` and unfold no meaning. -/

namespace Sys2Proof.Machine

variable {s s' : State}

/-! ## Exceptions -/

/-- R229 (3): the certifications of `vs` from row `t` raise `e`. -/
def CertRaises (tb : List (Nat × Option Nat)) (vs : List Val) (t : Nat) (e : Raise) : Prop :=
  ∃ k, (FirstTooWide tb vs k ∧ e = .candidateWidth (t + k)) ∨ (FirstMissingRow tb vs k ∧ e = .candidateNoRow (t + k))

/-- R229 (2): the copies of the projections `ps`, each with its destination row, raise `e`. -/
def ReadRaises (s : State) (ps : List (CellRef × Nat)) (e : Raise) : Prop :=
  s.phase = .witness ∧ ∃ (k : Nat) (p : CellRef × Nat), ps[k]? = some p ∧ cellRead s p.1.col p.1.row = .assigned .unresolved ∧
    (∀ j < k, ∀ q : CellRef × Nat, ps[j]? = some q → cellRead s q.1.col q.1.row ≠ .assigned .unresolved) ∧
    e = .missingPriorAssignment p.2

/-- The spread projections of an operand with the rows they are copied to. -/
def operandReads (x : Operand) (t : Nat) : List (CellRef × Nat) :=
  [({ col := .ls, row := x.lo }, t), ({ col := .ls, row := x.hi }, t + 1)]

/-! ## What a command does -/

/-- The command completes from `s` in `s'`. -/
def Completed (i : Instr) (s s' : State) : Prop :=
  match i with
  | .certify t v => ∃ x, TableImage s.table v x ∧ s' = respond (oneHandle t) (bindRow t v x s)
  | .copy h sel w t =>
    ∃ v, cellRead s sel.col h = .assigned v ∧ Resolved s v ∧ s' = respond noHandles (copied h sel w t v s)
  | .cert4 t a b c d =>
    ∃ x, TableImages s.table ⟨a, b, c, d⟩ x ∧ s' = respond (cert4Handles t) (bound4 t ⟨a, b, c, d⟩ x s)
  | .f1 t b c d =>
    ∃ bLo bHi cLo cHi dLo dHi x,
      OperandResolves s b bLo bHi ∧ OperandResolves s c cLo cHi ∧ OperandResolves s d dLo dHi ∧
      TableImages s.table (split4 (f1Sum bLo bHi cLo cHi dLo dHi)) x ∧
      s' = respond (pairHandles (evenPair t))
        (bound4 t (split4 (f1Sum bLo bHi cLo cHi dLo dHi)) x (f1Wired t b c d bLo bHi cLo cHi dLo dHi s))
  | .ch t x y =>
    ∃ xLo xHi yLo yHi i, OperandResolves s x xLo xHi ∧ OperandResolves s y yLo yHi ∧
      TableImages s.table (split4 (pairSum xLo xHi yLo yHi)) i ∧
      s' = respond (pairHandles (oddPair t))
        (bound4 t (split4 (pairSum xLo xHi yLo yHi)) i (chWired t x y xLo xHi yLo yHi s))
  | .chneg t x z =>
    ∃ xLo xHi zLo zHi i, OperandResolves s x xLo xHi ∧ OperandResolves s z zLo zHi ∧
      TableImages s.table (split4 (pairSum (xLo.vmap negSpread) (xHi.vmap negSpread) zLo zHi)) i ∧
      s' = respond (pairHandles (oddPair t))
        (bound4 t (split4 (pairSum (xLo.vmap negSpread) (xHi.vmap negSpread) zLo zHi)) i
          (chnegWired t x z xLo xHi zLo zHi s))

/-- The command raises `e` in `s`. -/
def Raises (i : Instr) (s : State) (e : Raise) : Prop :=
  match i with
  | .certify t v => CertRaises s.table [v] t e
  | .copy h sel _ t => ReadRaises s [({ col := sel.col, row := h }, t)] e
  | .cert4 t a b c d => CertRaises s.table [a, b, c, d] t e
  | .f1 t b c d =>
    ReadRaises s (operandReads b t ++ operandReads c t ++ operandReads d t) e ∨
    ∃ bLo bHi cLo cHi dLo dHi,
      OperandResolves s b bLo bHi ∧ OperandResolves s c cLo cHi ∧ OperandResolves s d dLo dHi ∧
      CertRaises s.table (split4 (f1Sum bLo bHi cLo cHi dLo dHi)).toList t e
  | .ch t x y =>
    ReadRaises s (operandReads x t ++ operandReads y t) e ∨
    ∃ xLo xHi yLo yHi, OperandResolves s x xLo xHi ∧ OperandResolves s y yLo yHi ∧
      CertRaises s.table (split4 (pairSum xLo xHi yLo yHi)).toList t e
  | .chneg t x z =>
    ReadRaises s (operandReads x t ++ operandReads z t) e ∨
    ∃ xLo xHi zLo zHi, OperandResolves s x xLo xHi ∧ OperandResolves s z zLo zHi ∧
      CertRaises s.table (split4 (pairSum (xLo.vmap negSpread) (xHi.vmap negSpread) zLo zHi)).toList t e

/-! ## Exceptions, one position at a time -/

theorem tableImage_unique {tb : List (Nat × Option Nat)} {v x y : Val} (hx : TableImage tb v x)
    (hy : TableImage tb v y) : x = y := by
  cases v with
  | unresolved => exact hx.trans hy.symm
  | known c =>
    obtain ⟨-, n, hn, rfl⟩ := hx
    obtain ⟨-, m, hm, rfl⟩ := hy
    rw [hn] at hm; cases hm; rfl

/-- The certification of one candidate raises. -/
def CertifyRaises (tb : List (Nat × Option Nat)) (v : Val) (t : Nat) (e : Raise) : Prop :=
  ∃ c, v = .known c ∧
    ((2 ^ 16 ≤ c ∧ e = .candidateWidth t) ∨ (c < 2 ^ 16 ∧ tableRead tb c = none ∧ e = .candidateNoRow t))

theorem certifyRaises_not_image {tb : List (Nat × Option Nat)} {v x : Val} {t : Nat} {e : Raise}
    (h : CertifyRaises tb v t e) : ¬ TableImage tb v x := by
  obtain ⟨c, rfl, (⟨h, -⟩ | ⟨-, h, -⟩)⟩ := h
  · rintro ⟨h', -⟩; omega
  · rintro ⟨-, n, hn, -⟩; rw [h] at hn; cases hn

theorem certRaises_nil (tb : List (Nat × Option Nat)) (t : Nat) (e : Raise) : ¬ CertRaises tb [] t e := by
  rintro ⟨k, ⟨⟨⟨c, h, -⟩, -⟩, -⟩ | ⟨⟨⟨c, h, -⟩, -⟩, -⟩⟩ <;> simp at h

theorem certRaises_cons (tb : List (Nat × Option Nat)) (v : Val) (vs : List Val) (t : Nat) (e : Raise) :
    CertRaises tb (v :: vs) t e ↔
      CertifyRaises tb v t e ∨ (∃ x, TableImage tb v x) ∧ CertRaises tb vs (t + 1) e := by
  constructor
  · rintro ⟨k, h⟩
    cases k with
    | zero =>
      refine .inl ?_
      rcases h with ⟨⟨⟨c, hc, h⟩, -⟩, rfl⟩ | ⟨⟨⟨c, hc, h, h'⟩, -⟩, rfl⟩
      · exact ⟨c, by simpa using hc, .inl ⟨h, rfl⟩⟩
      · exact ⟨c, by simpa using hc, .inr ⟨h, h', rfl⟩⟩
    | succ k =>
      refine .inr ?_
      rcases h with ⟨⟨hc, hp⟩, rfl⟩ | ⟨⟨hc, hp⟩, rfl⟩
      · exact ⟨hp 0 (by omega) v rfl, k, .inl ⟨⟨hc, fun j hj w hw => hp (j + 1) (by omega) w hw⟩, by congr 1; omega⟩⟩
      · exact ⟨hp 0 (by omega) v rfl, k, .inr ⟨⟨hc, fun j hj w hw => hp (j + 1) (by omega) w hw⟩, by congr 1; omega⟩⟩
  · rintro (⟨c, rfl, (⟨h, rfl⟩ | ⟨h, h', rfl⟩)⟩ | ⟨hv, k, h⟩)
    · exact ⟨0, .inl ⟨⟨⟨c, rfl, h⟩, fun j hj => by omega⟩, rfl⟩⟩
    · exact ⟨0, .inr ⟨⟨⟨c, rfl, h, h'⟩, fun j hj => by omega⟩, rfl⟩⟩
    · have hp : ∀ {j : Nat} {w : Val}, (∀ i < k, ∀ w, vs[i]? = some w → ∃ x, TableImage tb w x) → j < k + 1 →
          (v :: vs)[j]? = some w → ∃ x, TableImage tb w x := by
        intro j w hvs hj hw
        cases j with
        | zero => cases hw; exact hv
        | succ j => exact hvs j (by omega) w hw
      rcases h with ⟨⟨hc, hvs⟩, rfl⟩ | ⟨⟨hc, hvs⟩, rfl⟩
      · exact ⟨k + 1, .inl ⟨⟨hc, fun j hj w hw => hp hvs hj hw⟩, by congr 1; omega⟩⟩
      · exact ⟨k + 1, .inr ⟨⟨hc, fun j hj w hw => hp hvs hj hw⟩, by congr 1; omega⟩⟩

theorem readRaises_nil (s : State) (e : Raise) : ¬ ReadRaises s [] e := by
  rintro ⟨-, k, p, h, -⟩; simp at h

theorem readRaises_cons (s : State) (p : CellRef × Nat) (ps : List (CellRef × Nat)) (e : Raise) :
    ReadRaises s (p :: ps) e ↔
      (s.phase = .witness ∧ cellRead s p.1.col p.1.row = .assigned .unresolved ∧ e = .missingPriorAssignment p.2) ∨
      (cellRead s p.1.col p.1.row ≠ .assigned .unresolved ∧ ReadRaises s ps e) := by
  constructor
  · rintro ⟨hw, k, q, hq, hu, hp, he⟩
    cases k with
    | zero => cases hq; exact .inl ⟨hw, hu, he⟩
    | succ k =>
      exact .inr ⟨hp 0 (by omega) p rfl, hw, k, q, hq, hu, fun j hj r hr => hp (j + 1) (by omega) r hr, he⟩
  · rintro (⟨hw, hu, he⟩ | ⟨hn, hw, k, q, hq, hu, hp, he⟩)
    · exact ⟨hw, 0, p, rfl, hu, fun j hj => by omega, he⟩
    · refine ⟨hw, k + 1, q, hq, hu, fun j hj r hr => ?_, he⟩
      cases j with
      | zero => cases hr; exact hn
      | succ j => exact hp j (by omega) r hr

theorem readRaises_append (s : State) (ps qs : List (CellRef × Nat)) (e : Raise) :
    ReadRaises s (ps ++ qs) e ↔
      ReadRaises s ps e ∨
      ((∀ p ∈ ps, cellRead s p.1.col p.1.row ≠ .assigned .unresolved) ∧ ReadRaises s qs e) := by
  induction ps with
  | nil => simp [readRaises_nil]
  | cons p ps ih =>
    simp only [List.cons_append, readRaises_cons, ih, List.forall_mem_cons]
    tauto

/-! ## What the bodies raise -/

theorem exceptBind_error_iff {ε α β : Type} (x : Except ε α) (f : α → Except ε β) (e : ε) :
    (x >>= f) = .error e ↔ x = .error e ∨ ∃ a, x = .ok a ∧ f a = .error e := by
  cases x <;> simp [bind, Except.bind]

theorem certify_raises_iff (v : Val) (t : Nat) (h : Halt) :
    certify v t s = .error h ↔ ∃ e, CertifyRaises s.table v t e ∧ h = .raise e := by
  rw [certify_error_iff]
  constructor
  · rintro ⟨c, hv, (⟨h1, rfl⟩ | ⟨h1, h2, rfl⟩)⟩
    · exact ⟨_, ⟨c, hv, .inl ⟨h1, rfl⟩⟩, rfl⟩
    · exact ⟨_, ⟨c, hv, .inr ⟨h1, h2, rfl⟩⟩, rfl⟩
  · rintro ⟨_, ⟨c, hv, (⟨h1, rfl⟩ | ⟨h1, h2, rfl⟩)⟩, rfl⟩
    · exact ⟨c, hv, .inl ⟨h1, rfl⟩⟩
    · exact ⟨c, hv, .inr ⟨h1, h2, rfl⟩⟩

theorem certify_then_raises_iff (v : Val) (t : Nat) (f : State → Except Halt State) (h : Halt) :
    (certify v t s >>= f) = .error h ↔
      (∃ e, CertifyRaises s.table v t e ∧ h = .raise e) ∨ ∃ x, TableImage s.table v x ∧ f (bindRow t v x s) = .error h := by
  rw [exceptBind_error_iff, certify_raises_iff]
  refine or_congr Iff.rfl ⟨?_, ?_⟩
  · rintro ⟨s1, h1, h2⟩
    obtain ⟨x, i, rfl⟩ := (certify_ok_iff v t).1 h1
    exact ⟨x, i, h2⟩
  · rintro ⟨x, i, h2⟩
    exact ⟨_, (certify_ok_iff v t).2 ⟨x, i, rfl⟩, h2⟩

/-- R143, R229 (3): CERT4 fails with the first of its four candidates that has no table image. -/
theorem cert4_raises_iff (t : Nat) (c : Candidates) (h : Halt) :
    cert4 t c s = .error h ↔ ∃ e, CertRaises s.table c.toList t e ∧ h = .raise e := by
  simp only [cert4, certify_then_raises_iff, certify_raises_iff, bindRow_table, Candidates.toList, certRaises_cons,
    certRaises_nil, and_false, or_false]
  constructor
  · rintro (⟨e, he, rfl⟩ | ⟨x1, i1, (⟨e, he, rfl⟩ | ⟨x2, i2, (⟨e, he, rfl⟩ | ⟨x3, i3, e, he, rfl⟩)⟩)⟩)
    · exact ⟨e, .inl he, rfl⟩
    · exact ⟨e, .inr ⟨⟨x1, i1⟩, .inl he⟩, rfl⟩
    · exact ⟨e, .inr ⟨⟨x1, i1⟩, .inr ⟨⟨x2, i2⟩, .inl he⟩⟩, rfl⟩
    · exact ⟨e, .inr ⟨⟨x1, i1⟩, .inr ⟨⟨x2, i2⟩, .inr ⟨⟨x3, i3⟩, he⟩⟩⟩, rfl⟩
  · rintro ⟨e, (he | ⟨⟨x1, i1⟩, (he | ⟨⟨x2, i2⟩, (he | ⟨⟨x3, i3⟩, he⟩)⟩)⟩), rfl⟩
    · exact .inl ⟨e, he, rfl⟩
    · exact .inr ⟨x1, i1, .inl ⟨e, he, rfl⟩⟩
    · exact .inr ⟨x1, i1, .inr ⟨x2, i2, .inl ⟨e, he, rfl⟩⟩⟩
    · exact .inr ⟨x1, i1, .inr ⟨x2, i2, .inr ⟨x3, i3, e, he, rfl⟩⟩⟩

theorem resolve_raises_iff {h : Nat} {sel : Proj} {row : Nat} {e : Halt} (hr : cellRead s sel.col h ≠ .unassigned) :
    resolve h sel row s = .error e ↔
      s.phase = .witness ∧ cellRead s sel.col h = .assigned .unresolved ∧ e = .raise (.missingPriorAssignment row) := by
  rw [resolve_error_iff]
  simp only [hr, false_and, false_or]
  tauto

theorem resolve_ok_of {h : Nat} {sel : Proj} {row : Nat} (hr : cellRead s sel.col h ≠ .unassigned) :
    (∃ v, resolve h sel row s = .ok v) ↔
      ¬ (s.phase = .witness ∧ cellRead s sel.col h = .assigned .unresolved) := by
  simp only [resolve_ok_iff, Resolved]
  cases hc : cellRead s sel.col h with
  | unassigned => exact absurd hc hr
  | assigned v => simp

/-- R229 (2): the copies of a readable operand fail with the first of its halves that does not resolve. -/
theorem copyOperand_raises_iff {x : Operand} {w : WCol} {t : Nat} {h : Halt} (hx : OperandReadable s x) :
    copyOperand x w t s = .error h ↔ ∃ e, ReadRaises s (operandReads x t) e ∧ h = .raise e := by
  obtain ⟨⟨-, h1⟩, -, h2⟩ := hx
  rw [copyOperand_error_iff, resolve_raises_iff h1, resolve_raises_iff h2, resolve_ok_of h1]
  simp only [operandReads, readRaises_cons, readRaises_nil, and_false, or_false, Proj.col]
  constructor
  · rintro (⟨a, b, rfl⟩ | ⟨n, a, b, rfl⟩)
    · exact ⟨_, .inl ⟨a, b, rfl⟩, rfl⟩
    · exact ⟨_, .inr ⟨fun h => n ⟨a, h⟩, a, b, rfl⟩, rfl⟩
  · rintro ⟨e, (⟨a, b, rfl⟩ | ⟨n, a, b, rfl⟩), rfl⟩
    · exact .inl ⟨a, b, rfl⟩
    · exact .inr ⟨fun h => n h.2, a, b, rfl⟩

@[simp] theorem operandReadable_copiedOperand (x y : Operand) (w : WCol) (t : Nat) (lo hi : Val) :
    OperandReadable (copiedOperand x w t lo hi s) y ↔ OperandReadable s y := by
  have hl := (wcol_ne_ls w).symm
  simp [OperandReadable, Readable, ValidHandle, hl]

theorem readRaises_congr {s1 : State} {ps : List (CellRef × Nat)} {e : Raise} (hp : s1.phase = s.phase)
    (h : ∀ p ∈ ps, cellRead s1 p.1.col p.1.row = cellRead s p.1.col p.1.row) :
    ReadRaises s1 ps e ↔ ReadRaises s ps e := by
  induction ps with
  | nil => simp [readRaises_nil]
  | cons p ps ih =>
    rw [readRaises_cons, readRaises_cons, hp, h p (List.mem_cons_self ..),
      ih fun q hq => h q (List.mem_cons_of_mem _ hq)]

@[simp] theorem readRaises_copiedOperand (x y : Operand) (w : WCol) (t t' : Nat) (lo hi : Val) (e : Raise) :
    ReadRaises (copiedOperand x w t lo hi s) (operandReads y t') e ↔ ReadRaises s (operandReads y t') e := by
  have hl := (wcol_ne_ls w).symm
  refine readRaises_congr rfl fun p hp => ?_
  simp only [operandReads, List.mem_cons, List.not_mem_nil, or_false] at hp
  rcases hp with rfl | rfl <;> simp [hl]

/-- The halves of a readable operand either resolve or one of them raises. -/
theorem operandResolves_or_raises {x : Operand} (t : Nat) (hx : OperandReadable s x) :
    (∃ lo hi, OperandResolves s x lo hi) ∨ ∃ e, ReadRaises s (operandReads x t) e := by
  have h := (copyOperand_raises_iff (w := .w0) (t := t) (h := ·) hx)
  cases hc : copyOperand x .w0 t s with
  | error e => exact .inr ((h e).1 hc |>.imp fun _ h => h.1)
  | ok r => obtain ⟨lo, hi, s1⟩ := r; exact .inl ⟨lo, hi, ((copyOperand_ok_iff ..).1 hc).1⟩

theorem operandResolves_not_blocked {x : Operand} {lo hi : Val} (t : Nat) (h : OperandResolves s x lo hi)
    (hw : s.phase = .witness) : ∀ p ∈ operandReads x t, cellRead s p.1.col p.1.row ≠ .assigned .unresolved := by
  obtain ⟨h1, h2, h3, h4⟩ := h
  intro p hp
  simp only [operandReads, List.mem_cons, List.not_mem_nil, or_false] at hp
  rcases hp with rfl | rfl
  · simpa [h1] using h3 hw
  · simpa [h2] using h4 hw

theorem operandResolves_unique {x : Operand} {lo hi lo' hi' : Val} (h : OperandResolves s x lo hi)
    (h' : OperandResolves s x lo' hi') : lo' = lo ∧ hi' = hi := by
  have h1 := h.1.symm.trans h'.1
  have h2 := h.2.1.symm.trans h'.2.1
  cases h1; cases h2; exact ⟨rfl, rfl⟩

theorem spreadHalves_unique {x : Operand} {lo hi lo' hi' : Val} (h : SpreadHalves s x lo hi)
    (h' : SpreadHalves s x lo' hi') : lo' = lo ∧ hi' = hi := by
  have h1 := h.2.2.1.symm.trans h'.2.2.1
  have h2 := h.2.2.2.symm.trans h'.2.2.2
  cases h1; cases h2; exact ⟨rfl, rfl⟩

/-- The state and the command determine the accumulator. -/
theorem gadgetAccumulator_unique {i : Instr} {a a' : Val} (h : GadgetAccumulator s i a) (h' : GadgetAccumulator s i a') :
    a' = a := by
  cases i with
  | certify t v => exact h.elim
  | copy h1 sel w t => exact h.elim
  | cert4 t v0 v1 v2 v3 => exact h.elim
  | f1 t b c d =>
    obtain ⟨_, _, _, _, _, _, hb, hc, hd, rfl⟩ := h
    obtain ⟨_, _, _, _, _, _, hb', hc', hd', rfl⟩ := h'
    obtain ⟨rfl, rfl⟩ := spreadHalves_unique hb hb'
    obtain ⟨rfl, rfl⟩ := spreadHalves_unique hc hc'
    obtain ⟨rfl, rfl⟩ := spreadHalves_unique hd hd'
    rfl
  | ch t x y =>
    obtain ⟨_, _, _, _, hx, hy, rfl⟩ := h
    obtain ⟨_, _, _, _, hx', hy', rfl⟩ := h'
    obtain ⟨rfl, rfl⟩ := spreadHalves_unique hx hx'
    obtain ⟨rfl, rfl⟩ := spreadHalves_unique hy hy'
    rfl
  | chneg t x z =>
    obtain ⟨_, _, _, _, hx, hz, rfl⟩ := h
    obtain ⟨_, _, _, _, hx', hz', rfl⟩ := h'
    obtain ⟨rfl, rfl⟩ := spreadHalves_unique hx hx'
    obtain ⟨rfl, rfl⟩ := spreadHalves_unique hz hz'
    rfl

theorem operandResolves_of_not_blocked {x : Operand} {t : Nat} (hx : OperandReadable s x)
    (h : s.phase = .witness → ∀ p ∈ operandReads x t, cellRead s p.1.col p.1.row ≠ .assigned .unresolved) :
    ∃ lo hi, OperandResolves s x lo hi := by
  rcases operandResolves_or_raises t hx with h' | ⟨e, hw, k, p, hp, hu, -⟩
  · exact h'
  · exact absurd hu (h hw p (List.mem_of_getElem? hp))

theorem reads_append_iff {x : Operand} (t : Nat) (qs : List (CellRef × Nat)) (e : Raise) (hx : OperandReadable s x) :
    ReadRaises s (operandReads x t ++ qs) e ↔
      ReadRaises s (operandReads x t) e ∨ (∃ lo hi, OperandResolves s x lo hi) ∧ ReadRaises s qs e := by
  rw [readRaises_append]
  refine or_congr_right (and_congr_left fun hq => ⟨fun h => ?_, fun ⟨lo, hi, h⟩ => ?_⟩)
  · exact operandResolves_of_not_blocked hx fun _ => h
  · exact operandResolves_not_blocked t h hq.1

theorem copyOperand_then_error_iff {α : Type} {x : Operand} {w : WCol} {t : Nat} (f : Val × Val × State → Except Halt α)
    (h : Halt) (hx : OperandReadable s x) :
    (copyOperand x w t s >>= f) = .error h ↔
      (∃ e, ReadRaises s (operandReads x t) e ∧ h = .raise e) ∨
      ∃ lo hi, OperandResolves s x lo hi ∧ f (lo, hi, copiedOperand x w t lo hi s) = .error h := by
  rw [exceptBind_error_iff, copyOperand_raises_iff hx]
  refine or_congr Iff.rfl ⟨?_, ?_⟩
  · rintro ⟨⟨lo, hi, s1⟩, h1, h2⟩
    obtain ⟨hr, rfl⟩ := (copyOperand_ok_iff ..).1 h1
    exact ⟨lo, hi, hr, h2⟩
  · rintro ⟨lo, hi, hr, h2⟩
    exact ⟨_, (copyOperand_ok_iff ..).2 ⟨hr, rfl⟩, h2⟩

/-! ## The accumulator -/

/-- The number of a value, if it is known. -/
def knownNumber : Val → Option Nat
  | .unresolved => none
  | .known n => some n

theorem numRead_assigned {c : CellCol} {r : Nat} {v : Val} (h : cellRead s c r = .assigned v) :
    numRead s c r = knownNumber v := by
  unfold numRead; rw [h]; cases v <;> rfl

theorem operandNumber_eq {x : Operand} {lo hi : Val} (g : Nat → Nat) (h1 : cellRead s .ls x.lo = .assigned lo)
    (h2 : cellRead s .ls x.hi = .assigned hi) :
    operandNumber s g x = knownNumber (join64 (lo.vmap g) (hi.vmap g)) := by
  unfold operandNumber
  rw [numRead_assigned h1, numRead_assigned h2]
  cases lo <;> cases hi <;> rfl

theorem vmap_id (v : Val) : v.vmap id = v := by cases v <;> rfl

theorem sumFits_three (a b c : Val) :
    SumFits [knownNumber a, knownNumber b, knownNumber c] ↔ AccFits (Val.vzip3 (fun x y z => x + y + z) a b c) := by
  cases a <;> cases b <;> cases c <;>
    simp [SumFits, sumKnown, knownNumber, AccFits, Val.vzip3, Nat.add_assoc]

theorem sumFits_two (a b : Val) :
    SumFits [knownNumber a, knownNumber b] ↔ AccFits (Val.vzip (fun x y => x + y) a b) := by
  cases a <;> cases b <;> simp [SumFits, sumKnown, knownNumber, AccFits, Val.vzip]

theorem f1Fits_iff {b c d : Operand} {bLo bHi cLo cHi dLo dHi : Val} (hb : OperandResolves s b bLo bHi)
    (hc : OperandResolves s c cLo cHi) (hd : OperandResolves s d dLo dHi) :
    SumFits [operandNumber s id b, operandNumber s id c, operandNumber s id d] ↔
      AccFits (f1Sum bLo bHi cLo cHi dLo dHi) := by
  rw [operandNumber_eq id hb.1 hb.2.1, operandNumber_eq id hc.1 hc.2.1, operandNumber_eq id hd.1 hd.2.1, sumFits_three]
  simp only [vmap_id, f1Sum]

theorem pairFits_iff {x y : Operand} {xLo xHi yLo yHi : Val} (g : Nat → Nat) (hx : OperandResolves s x xLo xHi)
    (hy : OperandResolves s y yLo yHi) :
    SumFits [operandNumber s g x, operandNumber s id y] ↔ AccFits (pairSum (xLo.vmap g) (xHi.vmap g) yLo yHi) := by
  rw [operandNumber_eq g hx.1 hx.2.1, operandNumber_eq id hy.1 hy.2.1, sumFits_two]
  simp only [vmap_id, pairSum]

/-- An operand with an unresolved half has no number. -/
theorem operandNumber_of_raises {x : Operand} {t : Nat} {e : Raise} (g : Nat → Nat)
    (h : ReadRaises s (operandReads x t) e) : operandNumber s g x = none := by
  simp only [operandReads, readRaises_cons, readRaises_nil, and_false, or_false] at h
  have key : cellRead s .ls x.lo = .assigned .unresolved ∨ cellRead s .ls x.hi = .assigned .unresolved := by tauto
  unfold operandNumber numRead
  rcases key with h | h
  · rw [h]; rfl
  · rw [h]; cases cellRead s .ls x.lo with
    | unassigned => rfl
    | assigned v => cases v <;> rfl

theorem sumFits_of_none {xs : List (Option Nat)} (h : none ∈ xs) : SumFits xs := by
  have : sumKnown xs = none := by
    induction xs with
    | nil => cases h
    | cons x xs ih =>
      cases x with
      | none => rfl
      | some n =>
        have h' : none ∈ xs := by simpa using h
        simp [sumKnown, ih h']
  simp [SumFits, this]

/-! ## The bodies of the gadgets -/

theorem f1Body_error_iff {t : Nat} {b c d : Operand} {h : Halt} (hb : OperandReadable s b) (hc : OperandReadable s c)
    (hd : OperandReadable s d) :
    f1Body t b c d s = .error h ↔
      (∃ e, Raises (.f1 t b c d) s e ∧
        SumFits [operandNumber s id b, operandNumber s id c, operandNumber s id d] ∧ h = .raise e) ∨
      (¬ SumFits [operandNumber s id b, operandNumber s id c, operandNumber s id d] ∧
        h = .refuse .accumulatorTooWide) := by
  have step2 := fun lo hi => (operandReadable_copiedOperand b c .w0 t lo hi (s := s)).2 hc
  simp only [f1Body, copyOperand_then_error_iff _ _ hb, copyOperand_then_error_iff _ _ (step2 _ _),
    copyOperand_then_error_iff _ _ ((operandReadable_copiedOperand ..).2 ((operandReadable_copiedOperand ..).2 hd)),
    readRaises_copiedOperand, operandResolves_copiedOperand, exceptBind_error_iff, certifyAccumulator_error_iff,
    cert4_raises_iff, bitSet_table, copiedOperand_table, pure, Except.pure, reduceCtorEq, and_false, exists_false,
    or_false, Raises, List.append_assoc, reads_append_iff _ _ _ hb, reads_append_iff _ _ _ hc]
  constructor
  · rintro (⟨e, he, rfl⟩ | ⟨bLo, bHi, rb, (⟨e, he, rfl⟩ | ⟨cLo, cHi, rc, (⟨e, he, rfl⟩ | ⟨dLo, dHi, rd,
      (⟨hn, rfl⟩ | ⟨hf, e, he, rfl⟩)⟩)⟩)⟩)
    · exact .inl ⟨e, .inl (.inl he), sumFits_of_none (by simp [operandNumber_of_raises id he]), rfl⟩
    · exact .inl ⟨e, .inl (.inr ⟨⟨_, _, rb⟩, .inl he⟩), sumFits_of_none (by simp [operandNumber_of_raises id he]), rfl⟩
    · exact .inl ⟨e, .inl (.inr ⟨⟨_, _, rb⟩, .inr ⟨⟨_, _, rc⟩, he⟩⟩),
        sumFits_of_none (by simp [operandNumber_of_raises id he]), rfl⟩
    · exact .inr ⟨fun h => hn ((f1Fits_iff rb rc rd).1 h), rfl⟩
    · exact .inl ⟨e, .inr ⟨_, _, _, _, _, _, rb, rc, rd, he⟩, (f1Fits_iff rb rc rd).2 hf, rfl⟩
  · rintro (⟨e, (((he | ⟨⟨_, _, rb⟩, (he | ⟨⟨_, _, rc⟩, he⟩)⟩)) | ⟨_, _, _, _, _, _, rb, rc, rd, he⟩), hf, rfl⟩ | ⟨hn, rfl⟩)
    · exact .inl ⟨e, he, rfl⟩
    · exact .inr ⟨_, _, rb, .inl ⟨e, he, rfl⟩⟩
    · exact .inr ⟨_, _, rb, .inr ⟨_, _, rc, .inl ⟨e, he, rfl⟩⟩⟩
    · exact .inr ⟨_, _, rb, .inr ⟨_, _, rc, .inr ⟨_, _, rd, .inr ⟨(f1Fits_iff rb rc rd).1 hf, e, he, rfl⟩⟩⟩⟩
    · rcases operandResolves_or_raises t hb with ⟨_, _, rb⟩ | ⟨e, he⟩
      · rcases operandResolves_or_raises t hc with ⟨_, _, rc⟩ | ⟨e, he⟩
        · rcases operandResolves_or_raises t hd with ⟨_, _, rd⟩ | ⟨e, he⟩
          · exact .inr ⟨_, _, rb, .inr ⟨_, _, rc, .inr ⟨_, _, rd,
              .inl ⟨fun h => hn ((f1Fits_iff rb rc rd).2 h), rfl⟩⟩⟩⟩
          · exact absurd (sumFits_of_none (by simp [operandNumber_of_raises id he])) hn
        · exact absurd (sumFits_of_none (by simp [operandNumber_of_raises id he])) hn
      · exact absurd (sumFits_of_none (by simp [operandNumber_of_raises id he])) hn

theorem chBody_error_iff {t : Nat} {x y : Operand} {h : Halt} (hx : OperandReadable s x)
    (hy : OperandReadable s y) :
    chBody t x y s = .error h ↔
      (∃ e, Raises (.ch t x y) s e ∧ SumFits [operandNumber s id x, operandNumber s id y] ∧ h = .raise e) ∨
      (¬ SumFits [operandNumber s id x, operandNumber s id y] ∧ h = .refuse .accumulatorTooWide) := by
  have fits := fun {xLo xHi yLo yHi : Val} => pairFits_iff (s := s) (x := x) (y := y) (xLo := xLo) (xHi := xHi)
    (yLo := yLo) (yHi := yHi) id
  simp only [vmap_id] at fits
  simp only [chBody, copyOperand_then_error_iff _ _ hx,
    copyOperand_then_error_iff _ _ ((operandReadable_copiedOperand ..).2 hy),
    readRaises_copiedOperand, operandResolves_copiedOperand, exceptBind_error_iff, certifyAccumulator_error_iff,
    cert4_raises_iff, bitSet_table, copiedOperand_table, pure, Except.pure, reduceCtorEq, and_false, exists_false,
    or_false, Raises, reads_append_iff _ _ _ hx]
  constructor
  · rintro (⟨e, he, rfl⟩ | ⟨xLo, xHi, rx, (⟨e, he, rfl⟩ | ⟨yLo, yHi, ry, (⟨hn, rfl⟩ | ⟨hf, e, he, rfl⟩)⟩)⟩)
    · exact .inl ⟨e, .inl (.inl he), sumFits_of_none (by simp [operandNumber_of_raises _ he]), rfl⟩
    · exact .inl ⟨e, .inl (.inr ⟨⟨_, _, rx⟩, he⟩), sumFits_of_none (by simp [operandNumber_of_raises _ he]), rfl⟩
    · exact .inr ⟨fun h => hn ((fits rx ry).1 h), rfl⟩
    · exact .inl ⟨e, .inr ⟨_, _, _, _, rx, ry, he⟩, (fits rx ry).2 hf, rfl⟩
  · rintro (⟨e, ((he | ⟨⟨_, _, rx⟩, he⟩) | ⟨_, _, _, _, rx, ry, he⟩), hf, rfl⟩ | ⟨hn, rfl⟩)
    · exact .inl ⟨e, he, rfl⟩
    · exact .inr ⟨_, _, rx, .inl ⟨e, he, rfl⟩⟩
    · exact .inr ⟨_, _, rx, .inr ⟨_, _, ry, .inr ⟨(fits rx ry).1 hf, e, he, rfl⟩⟩⟩
    · rcases operandResolves_or_raises t hx with ⟨_, _, rx⟩ | ⟨e, he⟩
      · rcases operandResolves_or_raises t hy with ⟨_, _, ry⟩ | ⟨e, he⟩
        · exact .inr ⟨_, _, rx, .inr ⟨_, _, ry, .inl ⟨fun h => hn ((fits rx ry).2 h), rfl⟩⟩⟩
        · exact absurd (sumFits_of_none (by simp [operandNumber_of_raises _ he])) hn
      · exact absurd (sumFits_of_none (by simp [operandNumber_of_raises _ he])) hn

theorem chnegBody_error_iff {t : Nat} {x z : Operand} {h : Halt} (hx : OperandReadable s x)
    (hy : OperandReadable s z) :
    chnegBody t x z s = .error h ↔
      (∃ e, Raises (.chneg t x z) s e ∧ SumFits [operandNumber s negSpread x, operandNumber s id z] ∧ h = .raise e) ∨
      (¬ SumFits [operandNumber s negSpread x, operandNumber s id z] ∧ h = .refuse .accumulatorTooWide) := by
  have fits := fun {xLo xHi yLo yHi : Val} => pairFits_iff (s := s) (x := x) (y := z) (xLo := xLo) (xHi := xHi)
    (yLo := yLo) (yHi := yHi) negSpread
  simp only [chnegBody, copyOperand_then_error_iff _ _ hx,
    copyOperand_then_error_iff _ _ ((operandReadable_copiedOperand ..).2 hy),
    readRaises_copiedOperand, operandResolves_copiedOperand, exceptBind_error_iff, certifyAccumulator_error_iff,
    cert4_raises_iff, bitSet_table, cellWrite_table, copiedOperand_table, pure, Except.pure, reduceCtorEq, and_false, exists_false,
    or_false, Raises, reads_append_iff _ _ _ hx]
  constructor
  · rintro (⟨e, he, rfl⟩ | ⟨xLo, xHi, rx, (⟨e, he, rfl⟩ | ⟨yLo, yHi, ry, (⟨hn, rfl⟩ | ⟨hf, e, he, rfl⟩)⟩)⟩)
    · exact .inl ⟨e, .inl (.inl he), sumFits_of_none (by simp [operandNumber_of_raises _ he]), rfl⟩
    · exact .inl ⟨e, .inl (.inr ⟨⟨_, _, rx⟩, he⟩), sumFits_of_none (by simp [operandNumber_of_raises _ he]), rfl⟩
    · exact .inr ⟨fun h => hn ((fits rx ry).1 h), rfl⟩
    · exact .inl ⟨e, .inr ⟨_, _, _, _, rx, ry, he⟩, (fits rx ry).2 hf, rfl⟩
  · rintro (⟨e, ((he | ⟨⟨_, _, rx⟩, he⟩) | ⟨_, _, _, _, rx, ry, he⟩), hf, rfl⟩ | ⟨hn, rfl⟩)
    · exact .inl ⟨e, he, rfl⟩
    · exact .inr ⟨_, _, rx, .inl ⟨e, he, rfl⟩⟩
    · exact .inr ⟨_, _, rx, .inr ⟨_, _, ry, .inr ⟨(fits rx ry).1 hf, e, he, rfl⟩⟩⟩
    · rcases operandResolves_or_raises t hx with ⟨_, _, rx⟩ | ⟨e, he⟩
      · rcases operandResolves_or_raises t hy with ⟨_, _, ry⟩ | ⟨e, he⟩
        · exact .inr ⟨_, _, rx, .inr ⟨_, _, ry, .inl ⟨fun h => hn ((fits rx ry).2 h), rfl⟩⟩⟩
        · exact absurd (sumFits_of_none (by simp [operandNumber_of_raises _ he])) hn
      · exact absurd (sumFits_of_none (by simp [operandNumber_of_raises _ he])) hn

/-! ## The preconditions of the gadgets, as checked -/

theorem f1Requires_none (t : Nat) (b c d : Operand) :
    firstBroken (requireRow s (t + 3) :: (requireWitnessPair s .w0 t ++ requireWitnessPair s .w1 t
      ++ requireWitnessPair s .w2 t ++ [requireBit s .sf1 t] ++ requireLookupRows s t
      ++ requireOperand s b ++ requireOperand s c ++ requireOperand s d)) = none ↔
      F1Free s t ∧ OperandReadable s b ∧ OperandReadable s c ∧ OperandReadable s d := by
  simp only [requireRow_none, firstBroken_append_none, requireWitnessPair_none, requireLookupRows_none,
    requireOperand_none, requireBit_none, firstBroken_nil, and_true]
  tauto

theorem chRequires_none (t : Nat) (x y : Operand) :
    firstBroken (requireRow s (t + 3) :: (requireWitnessPair s .w0 t ++ requireWitnessPair s .w1 t
      ++ [requireBit s .sch t] ++ requireLookupRows s t ++ requireOperand s x ++ requireOperand s y)) = none ↔
      ChFree s t ∧ OperandReadable s x ∧ OperandReadable s y := by
  simp only [requireRow_none, firstBroken_append_none, requireWitnessPair_none, requireLookupRows_none,
    requireOperand_none, requireBit_none, firstBroken_nil, and_true]
  tauto

theorem chnegRequires_none (t : Nat) (x z : Operand) :
    firstBroken (requireRow s (t + 3) :: (requireWitnessPair s .w0 t ++ requireWitnessPair s .w1 t
      ++ requireWitnessPair s .w2 t ++ [requireBit s .scn t] ++ requireLookupRows s t
      ++ requireOperand s x ++ requireOperand s z)) = none ↔
      ChnegFree s t ∧ OperandReadable s x ∧ OperandReadable s z := by
  simp only [requireRow_none, firstBroken_append_none, requireWitnessPair_none, requireLookupRows_none,
    requireOperand_none, requireBit_none, firstBroken_nil, and_true]
  tauto

/-! ## Every command -/

/-- What a command that has a next state did, and when it has one. -/
theorem exec_next_iff (i : Instr) :
    exec i s = .next s' ↔
      NoAbort s ∧ Requires i s ∧ (Completed i s s' ∨ ∃ e, Raises i s e ∧ s' = abortRun e s) := by
  cases i with
  | certify t v =>
    simp only [exec, execCertify, runCommand_next_iff, requireRow_none, requireLookupRow_none, Requires, Completed, Raises,
      exceptBind_ok_iff, exceptBind_error_iff, certify_ok_iff, certify_raises_iff, pure, Except.pure, Except.ok.injEq,
      Prod.mk.injEq, reduceCtorEq, and_false, exists_false, or_false, certRaises_cons, certRaises_nil]
    refine and_congr_right fun _ => and_congr_right fun _ => or_congr ⟨?_, ?_⟩ ⟨?_, ?_⟩
    · rintro ⟨_, _, ⟨_, ⟨x, hx, rfl⟩, rfl, rfl⟩, rfl⟩; exact ⟨x, hx, rfl⟩
    · rintro ⟨x, hx, rfl⟩; exact ⟨_, _, ⟨_, ⟨x, hx, rfl⟩, rfl, rfl⟩, rfl⟩
    · rintro ⟨e, ⟨e', he, h⟩, rfl⟩; cases h; exact ⟨e, he, rfl⟩
    · rintro ⟨e, he, rfl⟩; exact ⟨e, ⟨e, he, rfl⟩, rfl⟩
  | copy h sel w t =>
    simp only [exec, execCopy, runCommand_next_iff, requireRow_none, requireCell_none, requireHandle_none, Requires,
      Completed, Raises, exceptBind_ok_iff, exceptBind_error_iff, Prod.exists, copy_ok_iff, copy_error_iff, pure,
      Except.pure, Except.ok.injEq, Prod.mk.injEq, reduceCtorEq, and_false, exists_false, or_false, readRaises_cons,
      readRaises_nil]
    refine and_congr_right fun _ => and_congr_right fun hr => or_congr ⟨?_, ?_⟩ ?_
    · rintro ⟨_, _, ⟨v, _, ⟨h1, h2, rfl⟩, rfl, rfl⟩, rfl⟩; exact ⟨v, h1, h2, rfl⟩
    · rintro ⟨v, h1, h2, rfl⟩; exact ⟨_, _, ⟨v, _, ⟨h1, h2, rfl⟩, rfl, rfl⟩, rfl⟩
    · simp only [resolve_raises_iff hr.2.2.2, Halt.raise.injEq]
  | cert4 t a b c d =>
    simp only [exec, execCert4, runCommand_next_iff, requireRow_none, requireLookupRows_none, Requires, Completed, Raises,
      exceptBind_ok_iff, exceptBind_error_iff, cert4_ok_iff, cert4_raises_iff, pure, Except.pure, Except.ok.injEq,
      Prod.mk.injEq, reduceCtorEq, and_false, exists_false, or_false]
    refine and_congr_right fun _ => and_congr_right fun _ => or_congr ⟨?_, ?_⟩ ⟨?_, ?_⟩
    · rintro ⟨_, _, ⟨_, ⟨x, hx, rfl⟩, rfl, rfl⟩, rfl⟩; exact ⟨x, hx, rfl⟩
    · rintro ⟨x, hx, rfl⟩; exact ⟨_, _, ⟨_, ⟨x, hx, rfl⟩, rfl, rfl⟩, rfl⟩
    · rintro ⟨e, ⟨e', he, h⟩, rfl⟩; cases h; exact ⟨e, he, rfl⟩
    · rintro ⟨e, he, rfl⟩; exact ⟨e, ⟨e, he, rfl⟩, rfl⟩
  | f1 t b c d =>
    simp only [exec, execF1, runCommand_next_iff, f1Requires_none, Requires]
    refine and_congr_right fun _ => ⟨?_, ?_⟩
    · rintro ⟨⟨hf, hb, hc, hd⟩, h⟩
      simp only [f1Body_ok_iff, f1Body_error_iff hb hc hd, reduceCtorEq, and_false, or_false] at h
      rcases h with ⟨_, _, ⟨_, _, _, _, _, _, x, rb, rc, rd, hs, hx, rfl, rfl⟩, rfl⟩ | ⟨e, ⟨e', he, hs, h⟩, rfl⟩
      · exact ⟨⟨hf, hb, hc, hd, (f1Fits_iff rb rc rd).2 hs⟩, .inl ⟨_, _, _, _, _, _, x, rb, rc, rd, hx, rfl⟩⟩
      · cases h; exact ⟨⟨hf, hb, hc, hd, hs⟩, .inr ⟨e, he, rfl⟩⟩
    · rintro ⟨⟨hf, hb, hc, hd, hs⟩, (⟨_, _, _, _, _, _, x, rb, rc, rd, hx, rfl⟩ | ⟨e, he, rfl⟩)⟩
      · exact ⟨⟨hf, hb, hc, hd⟩, .inl ⟨_, _, (f1Body_ok_iff ..).2
          ⟨_, _, _, _, _, _, x, rb, rc, rd, (f1Fits_iff rb rc rd).1 hs, hx, rfl, rfl⟩, rfl⟩⟩
      · exact ⟨⟨hf, hb, hc, hd⟩, .inr ⟨e, (f1Body_error_iff hb hc hd).2 (.inl ⟨e, he, hs, rfl⟩), rfl⟩⟩
  | ch t x y =>
    simp only [exec, execCh, runCommand_next_iff, chRequires_none, Requires]
    refine and_congr_right fun _ => ⟨?_, ?_⟩
    · rintro ⟨⟨hf, hx, hy⟩, h⟩
      simp only [chBody_ok_iff, chBody_error_iff hx hy, reduceCtorEq, and_false, or_false] at h
      rcases h with ⟨_, _, ⟨_, _, _, _, i, rx, ry, hs, hi, rfl, rfl⟩, rfl⟩ | ⟨e, ⟨e', he, hs, h⟩, rfl⟩
      · exact ⟨⟨hf, hx, hy, (pairFits_iff id rx ry).2 (by simpa only [vmap_id] using hs)⟩,
          .inl ⟨_, _, _, _, i, rx, ry, hi, rfl⟩⟩
      · cases h; exact ⟨⟨hf, hx, hy, hs⟩, .inr ⟨e, he, rfl⟩⟩
    · rintro ⟨⟨hf, hx, hy, hs⟩, (⟨_, _, _, _, i, rx, ry, hi, rfl⟩ | ⟨e, he, rfl⟩)⟩
      · exact ⟨⟨hf, hx, hy⟩, .inl ⟨_, _, (chBody_ok_iff ..).2
          ⟨_, _, _, _, i, rx, ry, by simpa only [vmap_id] using (pairFits_iff id rx ry).1 hs, hi, rfl, rfl⟩, rfl⟩⟩
      · exact ⟨⟨hf, hx, hy⟩, .inr ⟨e, (chBody_error_iff hx hy).2 (.inl ⟨e, he, hs, rfl⟩), rfl⟩⟩
  | chneg t x z =>
    simp only [exec, execChneg, runCommand_next_iff, chnegRequires_none, Requires]
    refine and_congr_right fun _ => ⟨?_, ?_⟩
    · rintro ⟨⟨hf, hx, hy⟩, h⟩
      simp only [chnegBody_ok_iff, chnegBody_error_iff hx hy, reduceCtorEq, and_false, or_false] at h
      rcases h with ⟨_, _, ⟨_, _, _, _, i, rx, ry, hs, hi, rfl, rfl⟩, rfl⟩ | ⟨e, ⟨e', he, hs, h⟩, rfl⟩
      · exact ⟨⟨hf, hx, hy, (pairFits_iff negSpread rx ry).2 hs⟩, .inl ⟨_, _, _, _, i, rx, ry, hi, rfl⟩⟩
      · cases h; exact ⟨⟨hf, hx, hy, hs⟩, .inr ⟨e, he, rfl⟩⟩
    · rintro ⟨⟨hf, hx, hy, hs⟩, (⟨_, _, _, _, i, rx, ry, hi, rfl⟩ | ⟨e, he, rfl⟩)⟩
      · exact ⟨⟨hf, hx, hy⟩, .inl ⟨_, _, (chnegBody_ok_iff ..).2
          ⟨_, _, _, _, i, rx, ry, (pairFits_iff negSpread rx ry).1 hs, hi, rfl, rfl⟩, rfl⟩⟩
      · exact ⟨⟨hf, hx, hy⟩, .inr ⟨e, (chnegBody_error_iff hx hy).2 (.inl ⟨e, he, hs, rfl⟩), rfl⟩⟩

end Sys2Proof.Machine
end

