-- ==== Sys2Proof/Laws/Effects.lean ====
section
/-! SUPPORT. The exact effect of each state a completed command leaves, in the terms of `Effect`. -/

namespace Sys2Proof.Machine

variable {s : State}

@[simp] theorem cellAfter_nil (ref : CellRef) (old : Cell) : cellAfter [] ref old = old := rfl

@[simp] theorem cellAfter_cons (c c' : CellCol) (r r' : Nat) (v : Val) (cells : List (CellRef × Val)) (old : Cell) :
    cellAfter (({ col := c', row := r' }, v) :: cells) { col := c, row := r } old =
      if c = c' ∧ r = r' then .assigned v else cellAfter cells { col := c, row := r } old := by
  simp [cellAfter]

theorem cellAfter_append (xs ys : List (CellRef × Val)) (ref : CellRef) (old : Cell) :
    cellAfter (xs ++ ys) ref old = cellAfter xs ref (cellAfter ys ref old) := by
  induction xs with
  | nil => rfl
  | cons x xs ih => simp only [List.cons_append, cellAfter, ih]

/-- Cells listed twice under no key read the same in either order. -/
theorem cellAfter_comm (xs ys : List (CellRef × Val)) (ref : CellRef) (old : Cell)
    (h : ∀ x ∈ xs, ∀ y ∈ ys, x.1 ≠ y.1) :
    cellAfter ys ref (cellAfter xs ref old) = cellAfter xs ref (cellAfter ys ref old) := by
  induction xs with
  | nil => rfl
  | cons x xs ih =>
    have ih := ih fun x hx => h x (List.mem_cons_of_mem _ hx)
    by_cases hr : ref = x.1
    · have key : ∀ (l : List (CellRef × Val)) (o : Cell), (∀ y ∈ l, x.1 ≠ y.1) → cellAfter l ref o = o := by
        intro l o hl
        induction l with
        | nil => rfl
        | cons y l ihl =>
          rw [cellAfter, if_neg (by rw [hr]; exact hl y (List.mem_cons_self ..)),
            ihl fun z hz => hl z (List.mem_cons_of_mem _ hz)]
      simp only [cellAfter, if_pos hr]
      exact key ys _ (h x (List.mem_cons_self ..))
    · simp only [cellAfter, if_neg hr, ih]

theorem certify_effect (t : Nat) (v x : Val) (hs : NoAbort s) :
    Effect s (respond (oneHandle t) (bindRow t v x s)) (certifiedCells t v x) [(.lq, t)] [] (oneHandle t) := by
  refine ⟨fun c r => ?_, fun b r => ?_, by simp, rfl, ?_, rfl, rfl, rfl, rfl, rfl⟩
  · cases c <;> simp [certifiedCells]
  · simp
  · simp [show s.status.state = .ok from hs]

theorem copy_effect (h : Nat) (sel : Proj) (w : WCol) (t : Nat) (v : Val) (hs : NoAbort s) :
    Effect s (respond noHandles (copied h sel w t v s)) [({ col := w.col, row := t }, v)] []
      [{ left := { col := sel.col, row := h }, right := { col := w.col, row := t } }] noHandles := by
  refine ⟨fun c r => ?_, fun b r => ?_, by simp, rfl, ?_, rfl, rfl, rfl, rfl, rfl⟩
  · simp
  · simp
  · simp [show s.status.state = .ok from hs]

theorem cellRead_bound4 (t : Nat) (v x : Candidates) (c : CellCol) (r : Nat) :
    cellRead (bound4 t v x s) c r = cellAfter (certifiedCells4 t v x) { col := c, row := r } (cellRead s c r) := by
  cases c <;> simp [bound4, certifiedCells4, certifiedCells] <;> split_ifs <;> first | rfl | omega

theorem bitRead_bound4 (t : Nat) (v x : Candidates) (b : BitCol) (r : Nat) :
    bitRead (bound4 t v x s) b r = ((lookupBits4 t).contains (b, r) || bitRead s b r) := by
  cases b <;> simp [bound4, lookupBits4, Bool.or_assoc, Bool.or_left_comm]

theorem cert4_effect (t : Nat) (v x : Candidates) (hs : NoAbort s) :
    Effect s (respond (cert4Handles t) (bound4 t v x s)) (certifiedCells4 t v x) (lookupBits4 t) [] (cert4Handles t) := by
  refine ⟨fun c r => ?_, fun b r => ?_, by simp, by simp, ?_, by simp, by simp, by simp, by simp, by simp⟩
  · simp only [cellRead_respond, cellRead_bound4]
  · simp only [bitRead_respond, bitRead_bound4]
  · simp [show s.status.state = .ok from hs]

/-- A gadget's certifications after its wiring: the effects add up. -/
theorem wired_effect {s1 : State} {t : Nat} {v x : Candidates} {cells : List (CellRef × Val)} {flag : BitCol}
    {entries : List EqEntry} {hs : Handles} (hok : NoAbort s)
    (hc : ∀ c r, cellRead s1 c r = cellAfter cells { col := c, row := r } (cellRead s c r))
    (hd : ∀ y ∈ cells, y.1.col ≠ .ld ∧ y.1.col ≠ .ls)
    (hb : ∀ b r, bitRead s1 b r = (decide (b = flag ∧ r = t) || bitRead s b r)) (he : s1.eqList = s.eqList ++ entries)
    (h1 : s1.status = s.status) (h2 : s1.table = s.table) (h3 : s1.phase = s.phase) (h4 : s1.nRows = s.nRows)
    (h5 : s1.host = s.host) (h6 : s1.freeCount = s.freeCount) :
    Effect s (respond hs (bound4 t v x s1)) (cells ++ certifiedCells4 t v x) ((flag, t) :: lookupBits4 t) entries hs := by
  refine ⟨fun c r => ?_, fun b r => ?_, by simp [he], by simp [h1], ?_, by simp [h2], by simp [h3], by simp [h4],
    by simp [h5], by simp [h6]⟩
  · simp only [cellRead_respond, cellRead_bound4, hc, cellAfter_append]
    refine cellAfter_comm _ _ _ _ fun y hy z hz h => ?_
    obtain ⟨n1, n2⟩ := hd y hy
    have hz' : z.1.col = .ld ∨ z.1.col = .ls := by
      simp only [certifiedCells4, certifiedCells, List.cons_append, List.nil_append, List.mem_cons, List.not_mem_nil,
        or_false] at hz
      rcases hz with rfl | rfl | rfl | rfl | rfl | rfl | rfl | rfl <;> simp
    rw [h] at n1 n2
    tauto
  · simp only [bitRead_respond, bitRead_bound4, hb, List.contains_cons]
    have hp : ((b, r) == (flag, t)) = decide (b = flag ∧ r = t) := by rw [Bool.eq_iff_iff]; simp
    rw [hp, ← Bool.or_assoc, Bool.or_comm (List.contains _ _)]
  · simp [h1, show s.status.state = .ok from hok]

theorem cellRead_f1Wired (t : Nat) (b c d : Operand) (bLo bHi cLo cHi dLo dHi : Val) (col : CellCol) (r : Nat) :
    cellRead (f1Wired t b c d bLo bHi cLo cHi dLo dHi s) col r =
      cellAfter (copiedCells .w0 t bLo bHi ++ copiedCells .w1 t cLo cHi ++ copiedCells .w2 t dLo dHi)
        { col := col, row := r } (cellRead s col r) := by
  cases col <;> simp [f1Wired, copiedCells, WCol.col] <;> split_ifs <;> first | rfl | omega

theorem cellRead_chWired (t : Nat) (x y : Operand) (xLo xHi yLo yHi : Val) (col : CellCol) (r : Nat) :
    cellRead (chWired t x y xLo xHi yLo yHi s) col r =
      cellAfter (copiedCells .w0 t xLo xHi ++ copiedCells .w1 t yLo yHi) { col := col, row := r } (cellRead s col r) := by
  cases col <;> simp [chWired, copiedCells, WCol.col] <;> split_ifs <;> first | rfl | omega

theorem cellRead_chnegWired (t : Nat) (x z : Operand) (xLo xHi zLo zHi : Val) (col : CellCol) (r : Nat) :
    cellRead (chnegWired t x z xLo xHi zLo zHi s) col r =
      cellAfter (copiedCells .w0 t xLo xHi ++ copiedCells .w1 t zLo zHi ++
        copiedCells .w2 t (xLo.vmap negSpread) (xHi.vmap negSpread)) { col := col, row := r } (cellRead s col r) := by
  cases col <;> simp [chnegWired, copiedCells, WCol.col] <;> split_ifs <;> first | rfl | omega

theorem f1_effect (t : Nat) (b c d : Operand) (bLo bHi cLo cHi dLo dHi : Val) (v x : Candidates) (hs : NoAbort s) :
    Effect s (respond (pairHandles (evenPair t)) (bound4 t v x (f1Wired t b c d bLo bHi cLo cHi dLo dHi s)))
      (copiedCells .w0 t bLo bHi ++ copiedCells .w1 t cLo cHi ++ copiedCells .w2 t dLo dHi ++ certifiedCells4 t v x)
      ((.sf1, t) :: lookupBits4 t) (copiedEntries .w0 t b ++ copiedEntries .w1 t c ++ copiedEntries .w2 t d)
      (pairHandles (evenPair t)) :=
  wired_effect hs (cellRead_f1Wired t b c d bLo bHi cLo cHi dLo dHi) (by simp [copiedCells]) (by simp [f1Wired])
    (by simp [f1Wired, WCol.col]) (by simp [f1Wired]) (by simp [f1Wired]) (by simp [f1Wired]) (by simp [f1Wired])
    (by simp [f1Wired]) (by simp [f1Wired])

theorem ch_effect (t : Nat) (x y : Operand) (xLo xHi yLo yHi : Val) (v i : Candidates) (hs : NoAbort s) :
    Effect s (respond (pairHandles (oddPair t)) (bound4 t v i (chWired t x y xLo xHi yLo yHi s)))
      (copiedCells .w0 t xLo xHi ++ copiedCells .w1 t yLo yHi ++ certifiedCells4 t v i)
      ((.sch, t) :: lookupBits4 t) (copiedEntries .w0 t x ++ copiedEntries .w1 t y) (pairHandles (oddPair t)) :=
  wired_effect hs (cellRead_chWired t x y xLo xHi yLo yHi) (by simp [copiedCells]) (by simp [chWired])
    (by simp [chWired, WCol.col]) (by simp [chWired]) (by simp [chWired]) (by simp [chWired]) (by simp [chWired])
    (by simp [chWired]) (by simp [chWired])

theorem chneg_effect (t : Nat) (x z : Operand) (xLo xHi zLo zHi : Val) (v i : Candidates) (hs : NoAbort s) :
    Effect s (respond (pairHandles (oddPair t)) (bound4 t v i (chnegWired t x z xLo xHi zLo zHi s)))
      (copiedCells .w0 t xLo xHi ++ copiedCells .w1 t zLo zHi ++
        copiedCells .w2 t (xLo.vmap negSpread) (xHi.vmap negSpread) ++ certifiedCells4 t v i)
      ((.scn, t) :: lookupBits4 t) (copiedEntries .w0 t x ++ copiedEntries .w1 t z) (pairHandles (oddPair t)) :=
  wired_effect hs (cellRead_chnegWired t x z xLo xHi zLo zHi) (by simp [copiedCells]) (by simp [chnegWired])
    (by simp [chnegWired, WCol.col]) (by simp [chnegWired]) (by simp [chnegWired]) (by simp [chnegWired]) (by simp [chnegWired])
    (by simp [chnegWired]) (by simp [chnegWired])

/-! ## The layout of a command, which no value enters -/

/-- The cells four certifications assign. -/
def lookupRefs4 (t : Nat) : List CellRef :=
  [⟨.ld, t⟩, ⟨.ls, t⟩, ⟨.ld, t + 1⟩, ⟨.ls, t + 1⟩, ⟨.ld, t + 2⟩, ⟨.ls, t + 2⟩, ⟨.ld, t + 3⟩, ⟨.ls, t + 3⟩]

/-- The cells a copied operand assigns. -/
def pairRefs (col : CellCol) (t : Nat) : List CellRef := [⟨col, t⟩, ⟨col, t + 1⟩]

/-- The cells a command assigns. -/
def cellsOf : Instr → List CellRef
  | .certify t _ => [⟨.ld, t⟩, ⟨.ls, t⟩]
  | .copy _ _ w t => [⟨w.col, t⟩]
  | .cert4 t _ _ _ _ => lookupRefs4 t
  | .f1 t _ _ _ => pairRefs .w0 t ++ pairRefs .w1 t ++ pairRefs .w2 t ++ lookupRefs4 t
  | .ch t _ _ => pairRefs .w0 t ++ pairRefs .w1 t ++ lookupRefs4 t
  | .chneg t _ _ => pairRefs .w0 t ++ pairRefs .w1 t ++ pairRefs .w2 t ++ lookupRefs4 t

/-- The bits a command sets. -/
def bitsOf : Instr → List (BitCol × Nat)
  | .certify t _ => [(.lq, t)]
  | .copy _ _ _ _ => []
  | .cert4 t _ _ _ _ => lookupBits4 t
  | .f1 t _ _ _ => (.sf1, t) :: lookupBits4 t
  | .ch t _ _ => (.sch, t) :: lookupBits4 t
  | .chneg t _ _ => (.scn, t) :: lookupBits4 t

/-- The entries a command appends to `EQ`. -/
def entriesOf : Instr → List EqEntry
  | .certify _ _ => []
  | .copy h sel w t => [{ left := { col := sel.col, row := h }, right := { col := w.col, row := t } }]
  | .cert4 _ _ _ _ _ => []
  | .f1 t b c d => copiedEntries .w0 t b ++ copiedEntries .w1 t c ++ copiedEntries .w2 t d
  | .ch t x y => copiedEntries .w0 t x ++ copiedEntries .w1 t y
  | .chneg t x z => copiedEntries .w0 t x ++ copiedEntries .w1 t z

/-- The handles a command returns. -/
def handlesOf : Instr → Handles
  | .certify t _ => oneHandle t
  | .copy _ _ _ _ => noHandles
  | .cert4 t _ _ _ _ => cert4Handles t
  | .f1 t _ _ _ => pairHandles (evenPair t)
  | .ch t _ _ => pairHandles (oddPair t)
  | .chneg t _ _ => pairHandles (oddPair t)

/-- A completed command has the effect of its layout, with some values. -/
theorem completed_effect {s' : State} {i : Instr} (hs : NoAbort s) (h : Completed i s s') :
    ∃ cells, cells.map Prod.fst = cellsOf i ∧ Effect s s' cells (bitsOf i) (entriesOf i) (handlesOf i) := by
  cases i with
  | certify t v => obtain ⟨x, -, rfl⟩ := h; exact ⟨_, rfl, certify_effect t v x hs⟩
  | copy h sel w t => obtain ⟨v, -, -, rfl⟩ := h; exact ⟨_, rfl, copy_effect h sel w t v hs⟩
  | cert4 t a b c d => obtain ⟨x, -, rfl⟩ := h; exact ⟨_, rfl, cert4_effect t _ x hs⟩
  | f1 t b c d =>
    obtain ⟨_, _, _, _, _, _, x, -, -, -, -, rfl⟩ := h; exact ⟨_, rfl, f1_effect t b c d _ _ _ _ _ _ _ x hs⟩
  | ch t x y => obtain ⟨_, _, _, _, i, -, -, -, rfl⟩ := h; exact ⟨_, rfl, ch_effect t x y _ _ _ _ _ i hs⟩
  | chneg t x z => obtain ⟨_, _, _, _, i, -, -, -, rfl⟩ := h; exact ⟨_, rfl, chneg_effect t x z _ _ _ _ _ i hs⟩

/-- A command that has a next state in a run not aborted completed. -/
theorem completed_of_next {s' : State} {i : Instr} (h : exec i s = .next s') (h' : NoAbort s') :
    NoAbort s ∧ Requires i s ∧ Completed i s s' := by
  obtain ⟨h0, hr, hc | ⟨e, -, rfl⟩⟩ := exec_next_iff i |>.1 h
  · exact ⟨h0, hr, hc⟩
  · cases h'

end Sys2Proof.Machine
end

