-- ==== Sys2Proof/Laws/PerInstr.lean ====
section
/-! SUPPORT. The family `EncodingFits`: the word of a well-formed command stays within the port and carries its operation
code (spec/30_encoding.md R73, R74), one lemma per constructor. -/

namespace Sys2Proof

theorem rowFits_iff (rw t : Nat) : rowFits rw t = true ↔ t < 2 ^ rw := by simp [rowFits]

theorem Operand.fits_iff (rw : Nat) (x : Operand) : x.fits rw = true ↔ x.lo < 2 ^ rw ∧ x.hi < 2 ^ rw := by
  simp [Operand.fits, rowFits]

namespace Laws.EncodingFits

/-- R73, R74: the encoding of the instruction fits the port, and its lowest three bits are the operation code. -/
def Statement (i : Instr) : Prop :=
  ∀ rw : Nat, i.wellFormed rw = true → encode rw i < 2 ^ cmdWidth rw ∧ fieldOp (encode rw i) = i.opcode

variable {rw : Nat}

theorem certify_fits {t : Nat} {v : Val} (h : (Instr.certify t v).wellFormed rw = true) :
    CommandFits rw 1 t 0 0 0 0 0 0 v .unresolved .unresolved .unresolved 0 0 := by
  simp only [Instr.wellFormed, Bool.and_eq_true, rowFits_iff] at h
  have hz := Nat.two_pow_pos rw
  exact ⟨by decide, h.1, hz, hz, hz, hz, hz, hz, h.2, rfl, rfl, rfl, by decide, by decide⟩

theorem copy_fits {k : Nat} {sel : Proj} {w : WCol} {t : Nat} (h : (Instr.copy k sel w t).wellFormed rw = true) :
    CommandFits rw 2 t k 0 0 0 0 0 .unresolved .unresolved .unresolved .unresolved sel.code w.code := by
  simp only [Instr.wellFormed, Bool.and_eq_true, rowFits_iff] at h
  have hz := Nat.two_pow_pos rw
  exact ⟨by decide, h.2, h.1, hz, hz, hz, hz, hz, rfl, rfl, rfl, rfl, by cases sel <;> decide, by cases w <;> decide⟩

theorem cert4_fits {t : Nat} {a b c d : Val} (h : (Instr.cert4 t a b c d).wellFormed rw = true) :
    CommandFits rw 3 t 0 0 0 0 0 0 a b c d 0 0 := by
  simp only [Instr.wellFormed, Bool.and_eq_true, rowFits_iff] at h
  have hz := Nat.two_pow_pos rw
  exact ⟨by decide, h.1.1.1.1, hz, hz, hz, hz, hz, hz, h.1.1.1.2, h.1.1.2, h.1.2, h.2, by decide, by decide⟩

theorem f1_fits {t : Nat} {b c d : Operand} (h : (Instr.f1 t b c d).wellFormed rw = true) :
    CommandFits rw 4 t b.lo b.hi c.lo c.hi d.lo d.hi .unresolved .unresolved .unresolved .unresolved 0 0 := by
  simp only [Instr.wellFormed, Bool.and_eq_true, rowFits_iff, Operand.fits_iff] at h
  obtain ⟨⟨⟨ht, hb⟩, hc⟩, hd⟩ := h
  exact ⟨by decide, ht, hb.1, hb.2, hc.1, hc.2, hd.1, hd.2, rfl, rfl, rfl, rfl, by decide, by decide⟩

theorem ch_fits {t : Nat} {x y : Operand} (h : (Instr.ch t x y).wellFormed rw = true) :
    CommandFits rw 5 t x.lo x.hi y.lo y.hi 0 0 .unresolved .unresolved .unresolved .unresolved 0 0 := by
  simp only [Instr.wellFormed, Bool.and_eq_true, rowFits_iff, Operand.fits_iff] at h
  obtain ⟨⟨ht, hx⟩, hy⟩ := h
  have hz := Nat.two_pow_pos rw
  exact ⟨by decide, ht, hx.1, hx.2, hy.1, hy.2, hz, hz, rfl, rfl, rfl, rfl, by decide, by decide⟩

theorem chneg_fits {t : Nat} {x z : Operand} (h : (Instr.chneg t x z).wellFormed rw = true) :
    CommandFits rw 6 t x.lo x.hi z.lo z.hi 0 0 .unresolved .unresolved .unresolved .unresolved 0 0 := by
  simp only [Instr.wellFormed, Bool.and_eq_true, rowFits_iff, Operand.fits_iff] at h
  obtain ⟨⟨ht, hx⟩, hz'⟩ := h
  have hz := Nat.two_pow_pos rw
  exact ⟨by decide, ht, hx.1, hx.2, hz'.1, hz'.2, hz, hz, rfl, rfl, rfl, rfl, by decide, by decide⟩

theorem certify (t : Nat) (v : Val) : Statement (.certify t v) :=
  fun _ h => ⟨packCommand_lt (certify_fits h), fieldOp_pack (certify_fits h)⟩

theorem copy (h : Nat) (sel : Proj) (w : WCol) (t : Nat) : Statement (.copy h sel w t) :=
  fun _ h => ⟨packCommand_lt (copy_fits h), fieldOp_pack (copy_fits h)⟩

theorem cert4 (t : Nat) (v0Even v0Odd v1Even v1Odd : Val) : Statement (.cert4 t v0Even v0Odd v1Even v1Odd) :=
  fun _ h => ⟨packCommand_lt (cert4_fits h), fieldOp_pack (cert4_fits h)⟩

theorem f1 (t : Nat) (b c d : Operand) : Statement (.f1 t b c d) :=
  fun _ h => ⟨packCommand_lt (f1_fits h), fieldOp_pack (f1_fits h)⟩

theorem ch (t : Nat) (x y : Operand) : Statement (.ch t x y) :=
  fun _ h => ⟨packCommand_lt (ch_fits h), fieldOp_pack (ch_fits h)⟩

theorem chneg (t : Nat) (x z : Operand) : Statement (.chneg t x z) :=
  fun _ h => ⟨packCommand_lt (chneg_fits h), fieldOp_pack (chneg_fits h)⟩

end Laws.EncodingFits

end Sys2Proof
end

