-- ==== Sys2Proof/Laws/Step.lean ====
section
/-! SUPPORT. What a step can do, said once, and what no command changes. -/

namespace Sys2Proof.Machine

variable {s s' : State}

/-- A step with a next state waited, took a reset, or ran a command. -/
theorem step_next_cases (h : step s = .next s') :
    (s.host = [] ∧ s' = s) ∨
    (∃ p rest, s.host = .reset p :: rest ∧ s' = applyReset p (withHost rest s)) ∨
    (∃ w rest i, s.host = .command w :: rest ∧ decode (rowWidth s.nRows) w = .ok i ∧
      exec i (withHost rest s) = .next s') := by
  unfold step takeMove at h
  cases hh : s.host with
  | nil => rw [hh] at h; cases h; exact .inl ⟨rfl, rfl⟩
  | cons m rest =>
    rw [hh] at h
    cases m with
    | reset p => cases h; exact .inr (.inl ⟨p, rest, rfl, rfl⟩)
    | command w =>
      cases hd : decode (rowWidth s.nRows) w with
      | error e => simp only [hd] at h; cases h
      | ok i => simp only [hd] at h; exact .inr (.inr ⟨w, rest, i, rfl, hd, h⟩)

/-- No command, completed or aborted, changes the launch inputs or the host's moves. -/
theorem exec_keeps_inputs {i : Instr} (h : exec i s = .next s') :
    s'.table = s.table ∧ s'.nRows = s.nRows ∧ s'.phase = s.phase ∧ s'.host = s.host := by
  obtain ⟨h0, -, hc | ⟨e, -, rfl⟩⟩ := (exec_next_iff i).1 h
  · obtain ⟨cells, -, he⟩ := completed_effect h0 hc
    exact ⟨he.table, he.nRows, he.phase, he.host⟩
  · exact ⟨rfl, rfl, rfl, rfl⟩

/-! ## The canonical memories -/

theorem Memory.wf_iff (s : State) : Memory.wf s = true ↔ tableWf s.table = true ∧ regionWf s.nRows s.region = true := by
  simp [Memory.wf]

section
variable {n t : Nat} (hw : regionWf n s.region = true) (ht : t + 1 < n)
include hw ht

theorem f1Wired_wf (b c d : Operand) (bLo bHi cLo cHi dLo dHi : Val) :
    regionWf n (f1Wired t b c d bLo bHi cLo cHi dLo dHi s).region = true := by
  unfold f1Wired
  exact bitSet_wf _ (copiedOperand_wf _ _ _ _ _ (copiedOperand_wf _ _ _ _ _ (copiedOperand_wf _ _ _ _ _ hw ht) ht) ht)
    (by omega)

theorem chWired_wf (x y : Operand) (xLo xHi yLo yHi : Val) :
    regionWf n (chWired t x y xLo xHi yLo yHi s).region = true := by
  unfold chWired
  exact bitSet_wf _ (copiedOperand_wf _ _ _ _ _ (copiedOperand_wf _ _ _ _ _ hw ht) ht) (by omega)

theorem chnegWired_wf (x z : Operand) (xLo xHi zLo zHi : Val) :
    regionWf n (chnegWired t x z xLo xHi zLo zHi s).region = true := by
  unfold chnegWired
  exact bitSet_wf _ (cellWrite_wf _ (cellWrite_wf _ (copiedOperand_wf _ _ _ _ _ (copiedOperand_wf _ _ _ _ _ hw ht) ht)
    (by omega)) ht) (by omega)

end

/-- A completed command keeps the canonical form of the region. -/
theorem completed_regionWf {i : Instr} (hr : Requires i s) (hw : regionWf s.nRows s.region = true)
    (h : Completed i s s') : regionWf s.nRows s'.region = true := by
  cases i with
  | certify t v => obtain ⟨x, -, rfl⟩ := h; rw [respond_region]; exact bindRow_wf hw hr.1
  | copy k sel w t => obtain ⟨v, -, -, rfl⟩ := h; rw [respond_region]; exact copied_wf k sel w t v hw hr.1
  | cert4 t a b c d => obtain ⟨x, -, rfl⟩ := h; rw [respond_region]; exact bound4_wf t _ x hw hr.1
  | f1 t b c d =>
    have ht : t + 3 < s.nRows := hr.1.1.1
    obtain ⟨_, _, _, _, _, _, x, -, -, -, -, rfl⟩ := h
    rw [respond_region]
    exact bound4_wf t _ x (f1Wired_wf hw (by omega) ..) ht
  | ch t x y =>
    have ht : t + 3 < s.nRows := hr.1.1.1
    obtain ⟨_, _, _, _, i, -, -, -, rfl⟩ := h
    rw [respond_region]
    exact bound4_wf t _ i (chWired_wf hw (by omega) ..) ht
  | chneg t x z =>
    have ht : t + 3 < s.nRows := hr.1.1.1
    obtain ⟨_, _, _, _, i, -, -, -, rfl⟩ := h
    rw [respond_region]
    exact bound4_wf t _ i (chnegWired_wf hw (by omega) ..) ht

/-- Every step keeps both memories canonical. -/
theorem step_memoryWf (hw : Memory.wf s = true) (h : step s = .next s') : Memory.wf s' = true := by
  rw [Memory.wf_iff] at hw ⊢
  rcases step_next_cases h with ⟨-, rfl⟩ | ⟨p, rest, -, rfl⟩ | ⟨w, rest, i, -, -, he⟩
  · exact hw
  · exact ⟨hw.1, by simp [regionWf, sparseWf]⟩
  · obtain ⟨h1, h2, -, -⟩ := exec_keeps_inputs he
    refine ⟨by rw [h1]; exact hw.1, ?_⟩
    rw [h2]
    obtain ⟨h0, hr, hc | ⟨e, -, rfl⟩⟩ := (exec_next_iff i).1 he
    · exact completed_regionWf hr hw.2 hc
    · exact freeRegion_wf _ _

/-- The memories of a launch are canonical with their table. -/
theorem launch_memoryWf (n : Nat) {tb : List (Nat × Option Nat)} (p : Phase) (h : tableWf tb = true) :
    Memory.wf (State.launch n tb p) = true :=
  (Memory.wf_iff _).2 ⟨h, by simp [State.launch, regionWf, sparseWf]⟩

/-- The memories of the reset state are canonical. -/
theorem reset_memoryWf : Memory.wf State.reset = true := launch_memoryWf _ _ (by simp [tableWf, sparseWf])

end Sys2Proof.Machine
end

