-- ==== Sys2Proof/Tests/Slice0.lean ====
section
/-! SUPPORT. Tests of the model against the numbers of spec/95_test_vectors.md (V and P numbers below), and for every
obligation with hypotheses a named witness that meets them. The test states are written from the tables of that file. -/

namespace Sys2Proof.Tests

open Sys2Proof Sys2Proof.Machine

/-! ## Helpers -/

/-- A certified row with the two values of a table of the spec. -/
def cert (d x : Nat) : RegionRow := { RegionRow.blank with ld := .assigned (.known d), ls := .assigned (.known x), lq := true }

/-- A row certified as `?`. -/
def certUnk : RegionRow := { RegionRow.blank with ld := .assigned .unresolved, ls := .assigned .unresolved, lq := true }

/-- A row certified with a dense value and nothing in `LS`: no state with the invariant R33 has one. -/
def certHalf : RegionRow := { RegionRow.blank with ld := .assigned (.known 0), lq := true }

/-- Rows from `k` on. -/
def listed : Nat → List RegionRow → List (Nat × RegionRow)
  | _, [] => []
  | k, r :: rs => (k, r) :: listed (k + 1) rs

/-- A run in progress on 16 rows, `TABLE_OK`, with these first rows. -/
def started (ph : Phase) (rows : List RegionRow) : State := { State.launch 16 [] ph with region := listed 0 rows }

/-- The same with the table of P6, without the row for 3. -/
def deficient (rows : List RegionRow) : State := { started .witness rows with table := [(3, none)] }

/-- The same after an abort. -/
def abortedAt (row : Nat) (s : State) : State := { s with status := { state := .aborted, cause := 2, subcause := 0, row := row } }

/-- The same with these moves of the host to come. -/
def given (moves : List HostMove) (s : State) : State := { s with host := moves }

/-- Rows 0 to 5 after commands 1 to 6 of P1. -/
def p1Rows : List RegionRow :=
  [cert 0xAB89 0x44454041, cert 0xEFCD 0x54555051, cert 0xDCFE 0x51505554, cert 0x98BA 0x41404544,
   cert 0x5476 0x11101514, cert 0x1032 0x01000504]

/-- Rows 0 to 3 after commands 1 to 4 of P5: row 3 is certified as `?`. -/
def p5Rows : List RegionRow :=
  [cert 0x5678 0x11141540, cert 0x1234 0x01040510, cert 0x00FF 0x00005555, certUnk]

/-- Rows 0 to 5 after commands 1 to 6 of P6. -/
def p6Rows : List RegionRow := [cert 1 1, cert 0 0, cert 2 4, cert 0 0, cert 0 0, cert 0 0]

/-- The outcome is a next state with the property. -/
def after (o : Host.Outcome State Fault Refusal) (p : State → Bool) : Bool :=
  match o with
  | .next s => p s
  | _ => false

/-- The reason of a refusal. -/
def refusalOf : Host.Outcome State Fault Refusal → Option Refusal
  | .refused r => some r
  | _ => none

/-- The reason of a fault. -/
def faultOf : Host.Outcome State Fault Refusal → Option Fault
  | .fault f => some f
  | _ => none

/-- The numbers `LD` and `LS` hold in rows `t` to `t + 3`. -/
def lookupPairs (s : State) (t : Nat) : List (Option Nat × Option Nat) :=
  [(numRead s .ld t, numRead s .ls t), (numRead s .ld (t + 1), numRead s .ls (t + 1)),
   (numRead s .ld (t + 2), numRead s .ls (t + 2)), (numRead s .ld (t + 3), numRead s .ls (t + 3))]

/-- The handles of the last response. -/
def handlesAfter (s : State) : Option Handles := s.rsp.map (·.handles)

/-- One entry of `EQ`. -/
def tie (c : CellCol) (r : Nat) (c' : CellCol) (r' : Nat) : EqEntry :=
  { left := { col := c, row := r }, right := { col := c', row := r' } }

theorem after_exists {o : Host.Outcome State Fault Refusal} {p : State → Bool} (h : after o p = true) :
    ∃ s', o = .next s' ∧ p s' = true := by
  cases o with
  | next s => exact ⟨s, rfl, h⟩
  | fault f => cases h
  | refused r => cases h

theorem tableOk_nil : TableOk [] := by
  intro d hd
  change fullTable d = _
  rw [fullTable, if_pos hd]

/-- No row at or above `N_ROWS` is enabled in a canonical region. -/
theorem enabled_lt {s : State} (h : regionWf s.nRows s.region = true) {r : Nat} (hr : bitRead s .lq r = true) :
    r < s.nRows := by
  by_contra hge
  have key : ∀ rg : List (Nat × RegionRow), (∀ e ∈ rg, e.1 < s.nRows) → sparseGet blankRow rg r = .blank := by
    intro rg
    induction rg with
    | nil => intro _; rfl
    | cons e rg ih =>
      intro he
      rw [sparseGet_cons, if_neg (by have := he e (List.mem_cons_self ..); omega)]
      exact ih fun e' h' => he e' (List.mem_cons_of_mem _ h')
  have hall : ∀ e ∈ s.region, e.1 < s.nRows := by
    simp only [regionWf, Bool.and_eq_true, List.all_eq_true, decide_eq_true_eq] at h
    exact h.2
  unfold bitRead rowRead at hr
  rw [key _ hall] at hr
  cases hr

/-- `INV` from its finite part. -/
theorem certifiedRows_of {s : State} (hw : Memory.wf s = true)
    (h : ∀ r < s.nRows, bitRead s .lq r = true → certifiedRow s r = true) : CertifiedRows s :=
  fun r hr => h r (enabled_lt ((Memory.wf_iff s).1 hw).2 hr) hr

theorem machineInv_of {s : State} (hw : Memory.wf s = true) (hs : s.status = .clear) (he : s.eqList = [])
    (h : ∀ r < s.nRows, bitRead s .lq r = true → certifiedRow s r = true) : MachineInv s where
  wf := hw
  status := by
    unfold StatusLegal
    rw [hs]
    rfl
  certified := fun _ => certifiedRows_of hw h
  wired := by
    intro _ e hmem
    rw [he] at hmem
    cases hmem

theorem p1_certified (ph : Phase) : CertifiedRows (started ph p1Rows) :=
  certifiedRows_of (by cases ph <;> decide) (by cases ph <;> decide)

theorem p1_inv : MachineInv (started .witness p1Rows) := machineInv_of (by decide) (by decide) (by decide) (by decide)

/-! ## WellFormed: each field check refuses an ill-formed term (R74, `ROW_W = 4`) -/

theorem test_wellFormed_accepts_the_largest_fields :
    (Instr.certify 15 (.known 0xFFFFFFFF)).wellFormed 4 = true ∧ (Instr.copy 15 .spread .w2 15).wellFormed 4 = true ∧
    (Instr.cert4 15 .unresolved (.known 0xFFFFFFFF) .unresolved (.known 0)).wellFormed 4 = true ∧
    (Instr.f1 15 ⟨15, 15⟩ ⟨15, 15⟩ ⟨15, 15⟩).wellFormed 4 = true := by decide

theorem test_wellFormed_refuses_rows :
    (Instr.certify 16 .unresolved).wellFormed 4 = false ∧ (Instr.copy 0 .dense .w0 16).wellFormed 4 = false ∧
    (Instr.cert4 16 .unresolved .unresolved .unresolved .unresolved).wellFormed 4 = false ∧
    (Instr.f1 16 ⟨0, 0⟩ ⟨0, 0⟩ ⟨0, 0⟩).wellFormed 4 = false ∧ (Instr.ch 16 ⟨0, 0⟩ ⟨0, 0⟩).wellFormed 4 = false ∧
    (Instr.chneg 16 ⟨0, 0⟩ ⟨0, 0⟩).wellFormed 4 = false := by decide

theorem test_wellFormed_refuses_handles :
    (Instr.copy 16 .dense .w0 0).wellFormed 4 = false ∧
    (Instr.f1 0 ⟨16, 0⟩ ⟨0, 0⟩ ⟨0, 0⟩).wellFormed 4 = false ∧ (Instr.f1 0 ⟨0, 16⟩ ⟨0, 0⟩ ⟨0, 0⟩).wellFormed 4 = false ∧
    (Instr.f1 0 ⟨0, 0⟩ ⟨16, 0⟩ ⟨0, 0⟩).wellFormed 4 = false ∧ (Instr.f1 0 ⟨0, 0⟩ ⟨0, 0⟩ ⟨0, 16⟩).wellFormed 4 = false ∧
    (Instr.ch 0 ⟨16, 0⟩ ⟨0, 0⟩).wellFormed 4 = false ∧ (Instr.ch 0 ⟨0, 0⟩ ⟨0, 16⟩).wellFormed 4 = false ∧
    (Instr.chneg 0 ⟨0, 16⟩ ⟨0, 0⟩).wellFormed 4 = false ∧ (Instr.chneg 0 ⟨0, 0⟩ ⟨16, 0⟩).wellFormed 4 = false := by decide

theorem test_wellFormed_refuses_candidates :
    (Instr.certify 0 (.known 0x100000000)).wellFormed 4 = false ∧
    (Instr.cert4 0 (.known 0x100000000) .unresolved .unresolved .unresolved).wellFormed 4 = false ∧
    (Instr.cert4 0 .unresolved (.known 0x100000000) .unresolved .unresolved).wellFormed 4 = false ∧
    (Instr.cert4 0 .unresolved .unresolved (.known 0x100000000) .unresolved).wellFormed 4 = false ∧
    (Instr.cert4 0 .unresolved .unresolved .unresolved (.known 0x100000000)).wellFormed 4 = false := by decide

/-! ## Decode: words written from R73, R74 and the programs of the spec -/

/-- P4, command 2: `CERTIFY 1, 0x10000`. -/
theorem test_decode_certify :
    decode 4 0x000000000000000000000000008000800000000009 = .ok (.certify 1 (.known 0x10000)) := by decide

/-- P7, command 6: `COPY 9.dense, W2, 13`; and `COPY 1.spread, W1, 2` field by field: op, `cmd_t` at 3, `cmd_h0` at 7,
`cmd_sel` at 163, `cmd_col` at 164. -/
theorem test_decode_copy :
    decode 4 0x2000000000000000000000000000000000000004EA = .ok (.copy 9 .dense .w2 13) ∧
    decode 4 (2 + 2 * 2 ^ 3 + 1 * 2 ^ 7 + 2 ^ 163 + 1 * 2 ^ 164) = .ok (.copy 1 .spread .w1 2) := by decide

/-- V24 field by field: the candidates' values at bits 31, 64, 97, 130, their tags at 63, 96, 129, 162. -/
theorem test_decode_cert4 :
    decode 4 (3 + 0x2301 * 2 ^ 31 + 2 ^ 63 + 0xDCFE * 2 ^ 64 + 2 ^ 96 + 0x6745 * 2 ^ 97 + 2 ^ 129 + 0x98BA * 2 ^ 130 + 2 ^ 162)
      = .ok (.cert4 0 (.known 0x2301) (.known 0xDCFE) (.known 0x6745) (.known 0x98BA)) := by decide

/-- P7, command 3. -/
theorem test_decode_f1 :
    decode 4 0x000000000000000000000000000000000008080814 = .ok (.f1 2 ⟨0, 1⟩ ⟨0, 1⟩ ⟨0, 1⟩) := by decide

/-- P7, command 4. -/
theorem test_decode_ch :
    decode 4 0x00000000000000000000000000000000000029A135 = .ok (.ch 6 ⟨2, 4⟩ ⟨3, 5⟩) := by decide

/-- P2, command 8. -/
theorem test_decode_chneg :
    decode 4 0x0000000000000000000000000000000000002A0856 = .ok (.chneg 10 ⟨0, 1⟩ ⟨4, 5⟩) := by decide

/-- V65, and a number wider than the port. -/
theorem test_decode_refuses :
    decode 4 0 = .error (.reservedOpcode 0) ∧ decode 4 7 = .error (.reservedOpcode 7) ∧
    decode 4 (2 + 3 * 2 ^ 164) = .error .reservedColumn ∧ decode 4 (1 + 2 ^ 166) = .error .wordTooWide := by decide

/-- R78: the unread fields of a CH word may hold anything. -/
theorem test_decode_ignores_unread_fields :
    decode 4 (0x000000000000000000000000000000000000190835 + 2 ^ 166 - 2 ^ 23) = .ok (.ch 6 ⟨0, 1⟩ ⟨2, 3⟩) := by decide

/-- The operation codes of opcode_table.json. -/
theorem test_decodeTableWord :
    decodeTableWord 8 1 = some (.certify 0 .unresolved) ∧ decodeTableWord 8 2 = some (.copy 0 .dense .w0 0) ∧
    decodeTableWord 8 3 = some (.cert4 0 .unresolved .unresolved .unresolved .unresolved) ∧
    decodeTableWord 8 4 = some (.f1 0 ⟨0, 0⟩ ⟨0, 0⟩ ⟨0, 0⟩) ∧ decodeTableWord 8 5 = some (.ch 0 ⟨0, 0⟩ ⟨0, 0⟩) ∧
    decodeTableWord 8 6 = some (.chneg 0 ⟨0, 0⟩ ⟨0, 0⟩) ∧ decodeTableWord 8 7 = none := by decide

/-! ## Bit primitives (vectors 2.1) -/

/-- V8, V15a, V19, V18 and V19b; the halves of V19 joined are fresh as 64 bits, with bit 63 set they are not. -/
theorem test_bit_primitives :
    spread16 0xABCD = 0x44455051 ∧ evenBits 0xDEADBEEF = 0xE36B ∧ oddBits 0xDEADBEEF = 0xBEFF ∧
    negSpread 0x44454041 = 0x11101514 ∧ negSpread 0x54555051 = 0x01000504 ∧ negSpread 0x44455051 = 0x11100504 ∧
    isFresh 0xBBBAAFAE = false ∧ isFresh64 0x5455505144454041 = true ∧ isFresh64 0xD455505144454041 = false := by decide

/-- The last lines of 2.1. -/
theorem test_bit_sequences : toBits 4 6 = [0, 1, 1, 0] ∧ fromBits [1, 0, 1] = 5 := by decide

/-! ## Instructions, one step each -/

/-- V20. -/
theorem test_certify_known : after (exec (.certify 5 (.known 0xABCD)) (started .witness [])) (fun s =>
    numRead s .ld 5 = some 0xABCD && numRead s .ls 5 = some 0x44455051 && bitRead s .lq 5 &&
    handlesAfter s = some { h0 := some 5, h1 := none, h2 := none, h3 := none }) = true := by decide

/-- V22, and V29c with P6's table. -/
theorem test_certify_rejects :
    after (exec (.certify 0 (.known 0x10000)) (started .describe [])) (fun s =>
      s.status = { state := .aborted, cause := 2, subcause := 0, row := 0 }) = true ∧
    after (exec (.certify 0 (.known 3)) (deficient [])) (fun s =>
      s.status = { state := .aborted, cause := 2, subcause := 1, row := 0 }) = true := by decide

/-- V26 at row 5. -/
theorem test_copy_spread : after (exec (.copy 0 .spread .w0 9) (started .witness [cert 0xABCD 0x44455051])) (fun s =>
    numRead s .w0 9 = some 0x44455051 && s.eqList = [tie .ls 0 .w0 9] && !bitRead s .lq 9) = true := by decide

/-- V28, V28a and V29. -/
theorem test_copy_unresolved_and_invalid :
    after (exec (.copy 3 .spread .w0 7) (started .witness p5Rows)) (fun s =>
      s.status = { state := .aborted, cause := 1, subcause := 0, row := 7 }) = true ∧
    after (exec (.copy 3 .spread .w0 7) (started .describe p5Rows)) (fun s =>
      cellRead s .w0 7 = .assigned .unresolved && s.eqList = [tie .ls 3 .w0 7]) = true ∧
    refusalOf (exec (.copy 4 .spread .w0 7) (started .describe p5Rows)) = some (.invalidHandle 4) := by decide

/-- V24. -/
theorem test_cert4 :
    after (exec (.cert4 0 (.known 0x2301) (.known 0xDCFE) (.known 0x6745) (.known 0x98BA)) (started .witness []))
      (fun s => lookupPairs s 0 = [(some 0x2301, some 0x04050001), (some 0xDCFE, some 0x51505554),
        (some 0x6745, some 0x14151011), (some 0x98BA, some 0x41404544)] &&
      handlesAfter s = some { h0 := some 0, h1 := some 2, h2 := some 1, h3 := some 3 }) = true := by decide

/-- V25, and V29b. -/
theorem test_cert4_stops :
    after (exec (.cert4 0 (.known 1) (.known 2) (.known 0x1FFFF) (.known 0x20000)) (started .witness [])) (fun s =>
      s.status = { state := .aborted, cause := 2, subcause := 0, row := 2 }) = true ∧
    refusalOf (exec (.cert4 13 (.known 0) (.known 0) (.known 0) (.known 0)) (started .witness []))
      = some (.rowOutOfRange 16) := by decide

/-- P1, command 7 (V30), with V67: `Satisfied` holds at the end. -/
theorem test_f1 : after (exec (.f1 6 ⟨0, 1⟩ ⟨2, 3⟩ ⟨4, 5⟩) (started .witness p1Rows)) (fun s =>
    lookupPairs s 6 = [(some 0x2301, some 0x04050001), (some 0xDCFE, some 0x51505554),
      (some 0x6745, some 0x14151011), (some 0x98BA, some 0x41404544)] &&
    s.eqList = [tie .ls 0 .w0 6, tie .ls 1 .w0 7, tie .ls 2 .w1 6, tie .ls 3 .w1 7, tie .ls 4 .w2 6, tie .ls 5 .w2 7] &&
    bitRead s .sf1 6 && handlesAfter s = some { h0 := some 6, h1 := some 8, h2 := none, h3 := none } &&
    Satisfied true s) = true := by decide

/-- P6, command 7 (V62), and V64. -/
theorem test_f1_stops :
    after (exec (.f1 6 ⟨0, 1⟩ ⟨2, 3⟩ ⟨4, 5⟩) (deficient p6Rows)) (fun s =>
      s.status = { state := .aborted, cause := 2, subcause := 1, row := 6 }) = true ∧
    refusalOf (exec (.f1 1 ⟨0, 1⟩ ⟨0, 1⟩ ⟨0, 1⟩) (started .witness [cert 1 1, cert 0 0]))
      = some (.cellAssigned { col := .ld, row := 1 }) := by decide

/-- P2, command 7 (V40). -/
theorem test_ch : after (exec (.ch 6 ⟨0, 1⟩ ⟨2, 3⟩) (started .witness p1Rows)) (fun s =>
    lookupPairs s 6 = [(some 0x7777, some 0x15151515), (some 0x8888, some 0x40404040),
      (some 0x7777, some 0x15151515), (some 0x8888, some 0x40404040)] &&
    s.eqList = [tie .ls 0 .w0 6, tie .ls 1 .w0 7, tie .ls 2 .w1 6, tie .ls 3 .w1 7] && bitRead s .sch 6 &&
    cellRead s .w2 6 = .unassigned && handlesAfter s = some { h0 := some 7, h1 := some 9, h2 := none, h3 := none } &&
    Satisfied true s) = true := by decide

/-- P5, command 5 (V60), and the same in the description phase (V61). -/
theorem test_ch_unresolved :
    after (exec (.ch 4 ⟨0, 1⟩ ⟨2, 3⟩) (started .witness p5Rows)) (fun s =>
      s.status = { state := .aborted, cause := 1, subcause := 0, row := 5 }) = true ∧
    after (exec (.ch 4 ⟨0, 1⟩ ⟨2, 3⟩) (started .describe p5Rows)) (fun s =>
      numRead s .w1 4 = some 0x00005555 && cellRead s .w1 5 = .assigned .unresolved &&
      cellRead s .ls 4 = .assigned .unresolved && bitRead s .lq 7 && bitRead s .sch 4) = true := by decide

/-- P2, command 8, at row 6 (V50). -/
theorem test_chneg : after (exec (.chneg 6 ⟨0, 1⟩ ⟨4, 5⟩) (started .witness p1Rows)) (fun s =>
    numRead s .w2 6 = some 0x11101514 && numRead s .w2 7 = some 0x01000504 &&
    lookupPairs s 6 = [(some 0, some 0), (some 0x5476, some 0x11101514), (some 0, some 0), (some 0x1032, some 0x01000504)] &&
    s.eqList = [tie .ls 0 .w0 6, tie .ls 1 .w0 7, tie .ls 4 .w1 6, tie .ls 5 .w1 7] && bitRead s .scn 6 &&
    handlesAfter s = some { h0 := some 7, h1 := some 9, h2 := none, h3 := none } && Satisfied true s) = true := by decide

/-- V54; the operands' spread values are by R100 from V15a's rule, dense 0xBEEF, 0xDEAD, 0x4567, 0x0123. -/
theorem test_chneg_mixed : after (exec (.chneg 4 ⟨0, 1⟩ ⟨2, 3⟩)
    (started .witness [cert 0xBEEF (spread16 0xBEEF), cert 0xDEAD (spread16 0xDEAD), cert 0x4567 (spread16 0x4567),
      cert 0x0123 (spread16 0x0123)])) (fun s =>
    numRead s .w2 4 = some 0x10010100 && numRead s .w2 5 = some 0x04011104 &&
    pairNumber s ⟨5, 7⟩ = some 0x01024100 && pairNumber s ⟨4, 6⟩ = some 0x20710477) = true := by decide

/-- R72: the word of P4's command 1, presented at reset, runs as the first step. -/
theorem test_step_first_command : after (step (State.reset.withFetchWord 168 0x00000000000000000000000000800055E680000001))
    (fun s => numRead s .ls 0 = some 0x44455051 && s.host = []) = true := by decide

/-- V63: a command after an abort. -/
theorem test_step_after_abort :
    faultOf (step (given [.command 1] (abortedAt 0 (started .witness [])))) = some .abortedRun := by decide

/-! ## Witnesses: a state and operands that meet the hypotheses of each obligation -/

/-- The status is not aborted. -/
def isOk (s : State) : Bool := decide (s.status.state = .ok)

theorem completes {o : Host.Outcome State Fault Refusal} (h : after o isOk = true) : ∃ s', o = .next s' ∧ NoAbort s' := by
  obtain ⟨s', h1, h2⟩ := after_exists h
  exact ⟨s', h1, of_decide_eq_true h2⟩

theorem aborts {o : Host.Outcome State Fault Refusal} (h : after o (fun s => decide (s.status.state = .aborted)) = true) :
    ∃ s', o = .next s' ∧ s'.status.state = .aborted := by
  obtain ⟨s', h1, h2⟩ := after_exists h
  exact ⟨s', h1, of_decide_eq_true h2⟩

theorem witness_DecodeInvertsEncode :
    (Instr.certify 15 (.known 0xFFFFFFFF)).wellFormed 4 = true ∧ (Instr.copy 15 .spread .w2 15).wellFormed 4 = true ∧
    (Instr.cert4 15 .unresolved (.known 0xFFFFFFFF) (.known 0) .unresolved).wellFormed 4 = true ∧
    (Instr.f1 15 ⟨15, 0⟩ ⟨0, 15⟩ ⟨15, 15⟩).wellFormed 4 = true ∧ (Instr.ch 15 ⟨15, 0⟩ ⟨0, 15⟩).wellFormed 4 = true ∧
    (Instr.chneg 15 ⟨15, 0⟩ ⟨0, 15⟩).wellFormed 4 = true := by decide

theorem witness_DecodedCommandsAreWellFormed :
    decode 4 (1 + 15 * 2 ^ 3 + 0xFFFFFFFF * 2 ^ 31 + 2 ^ 63) = .ok (.certify 15 (.known 0xFFFFFFFF)) := by decide

theorem witness_ReservedCodesRefusedUnreadFieldsIgnored :
    ((given [.command 8] State.reset).host = .command 8 :: [] ∧
      8 < 2 ^ cmdWidth (rowWidth (given [.command 8] State.reset).nRows) ∧ fieldOp 8 = 0) ∧
    fieldOp (2 ^ 166 - 1) = 7 ∧ 2 ^ 166 - 1 < 2 ^ cmdWidth 4 ∧
    (fieldOp (2 + 3 * 2 ^ 164) = 2 ∧ fieldCol 4 (2 + 3 * 2 ^ 164) = none ∧ 2 + 3 * 2 ^ 164 < 2 ^ cmdWidth 4) ∧
    (∀ op < 7, op + 2 ^ 165 < 2 ^ cmdWidth 4 ∧ fieldOp (op + 2 ^ 165) = fieldOp (op + 2 ^ 164) ∧
      fieldOp (op + 2 ^ 165) = op ∧ fieldT 4 (op + 2 ^ 165) = fieldT 4 (op + 2 ^ 164) ∧
      (∀ k < 4, fieldV 4 k (op + 2 ^ 165) = fieldV 4 k (op + 2 ^ 164)) ∧
      (∀ k < 6, fieldH 4 k (op + 2 ^ 165) = fieldH 4 k (op + 2 ^ 164))) ∧
    fieldSel 4 (2 + 2 ^ 165) = fieldSel 4 (2 + 2 ^ 165 + 2 ^ 31) ∧
    fieldCol 4 (2 + 2 ^ 165) = fieldCol 4 (2 + 2 ^ 165 + 2 ^ 31) ∧
    fieldH 4 0 (2 + 2 ^ 165) = fieldH 4 0 (2 + 2 ^ 165 + 2 ^ 31) := by decide

theorem witness_StepRunsTheDecodedCommand :
    (given [.command 0x190835, .reset .describe] State.reset).host = .command 0x190835 :: [.reset .describe] ∧
    decode (rowWidth (given [.command 0x190835, .reset .describe] State.reset).nRows) 0x190835 = .ok (.ch 6 ⟨0, 1⟩ ⟨2, 3⟩) ∧
    State.reset.host = [] := by decide

theorem witness_RowWidthIsCeilingOfLogTwo : 16 ≤ 2 ^ 4 ∧ 17 ≤ 2 ^ 5 ∧ rowWidth 16 = 4 ∧ rowWidth 17 = 5 := by decide

theorem witness_ResetPutsEveryPieceAtItsValue :
    (given [.reset .describe, .command 1] (abortedAt 3 (started .witness p1Rows))).host =
      .reset .describe :: [.command 1] := by decide

theorem witness_ResetTableIsTheSpreadRelation : tableWf [] = true ∧ TableOk [] := ⟨by decide, tableOk_nil⟩

theorem witness_StepKeepsTheLaunchInputs :
    (∃ s', step (given [.command 0x000000000000000000000000000000000000190835] (started .witness p1Rows)) = .next s') ∧
    (∃ s', step (given [.reset .describe] (started .witness p1Rows)) = .next s') :=
  ⟨(after_exists (p := fun _ => true) (by decide)).imp fun _ h => h.1,
    (after_exists (p := fun _ => true) (by decide)).imp fun _ h => h.1⟩

theorem witness_ResetMeetsTheMachineInvariant : tableWf [(3, none), (0xFFFF, some 0)] = true := by decide

theorem witness_StepKeepsTheMachineInvariant :
    MachineInv (given [.command 0x000000000000000000000000000000000000190835] (started .witness p1Rows)) ∧
    ∃ s', step (given [.command 0x000000000000000000000000000000000000190835] (started .witness p1Rows)) = .next s' ∧
      NoAbort s' :=
  ⟨machineInv_of (by decide) (by decide) (by decide) (by decide), completes (by decide)⟩

theorem witness_WrittenCellsNeverChange :
    (∃ s', exec (.ch 6 ⟨0, 1⟩ ⟨2, 3⟩) (started .witness p1Rows) = .next s' ∧ NoAbort s') ∧
    cellRead (started .witness p1Rows) .ld 0 = .assigned (.known 0xAB89) ∧
    bitRead (started .witness p1Rows) .lq 0 = true := ⟨completes (by decide), by decide, by decide⟩

theorem witness_LookupCellsAreWrittenByCertificationsOnly :
    ∃ s', exec (.ch 6 ⟨0, 1⟩ ⟨2, 3⟩) (started .witness p1Rows) = .next s' ∧
      (decide (NoAbort s') && !bitRead (started .witness p1Rows) .lq 6 && bitRead s' .lq 6 &&
        bitRead s' .lq 10 == bitRead (started .witness p1Rows) .lq 10) = true :=
  after_exists (by decide)

theorem witness_CommandsRunExactlyUnderTheirRequires :
    NoAbort (started .witness p5Rows) ∧ Requires (.certify 15 (.known 0x10000)) (started .witness p5Rows) ∧
    ¬ Requires (.certify 16 (.known 0x10000)) (started .witness p5Rows) ∧
    Requires (.copy 3 .spread .w0 7) (started .witness p5Rows) ∧
    ¬ Requires (.copy 4 .spread .w0 7) (started .witness p5Rows) ∧
    Requires (.cert4 12 (.known 0) (.known 0) (.known 0) (.known 0)) (started .witness p5Rows) ∧
    ¬ Requires (.cert4 13 (.known 0) (.known 0) (.known 0) (.known 0)) (started .witness p5Rows) ∧
    Requires (.f1 4 ⟨0, 1⟩ ⟨0, 1⟩ ⟨2, 3⟩) (started .witness p5Rows) ∧
    ¬ Requires (.f1 3 ⟨0, 1⟩ ⟨0, 1⟩ ⟨2, 3⟩) (started .witness p5Rows) ∧
    Requires (.ch 4 ⟨0, 1⟩ ⟨2, 3⟩) (started .witness p5Rows) ∧
    ¬ Requires (.ch 4 ⟨0, 1⟩ ⟨2, 4⟩) (started .witness p5Rows) ∧
    Requires (.chneg 4 ⟨0, 1⟩ ⟨2, 3⟩) (started .witness p5Rows) ∧
    ¬ Requires (.chneg 13 ⟨0, 1⟩ ⟨2, 3⟩) (started .witness p5Rows) ∧
    ¬ Requires (.copy 0 .spread .w0 7) (started .witness [certHalf]) := by
  refine ⟨by decide, ?_, ?_, ?_, ?_, ?_, ?_, ?_, ?_, ?_, ?_, ?_, ?_, ?_⟩ <;> simp only [Requires] <;> decide

theorem witness_OnlyResetLeavesAnAbortedRun :
    (abortedAt 3 State.reset).status.state = .aborted ∧
    step (abortedAt 3 State.reset) = .next (abortedAt 3 State.reset) ∧
    ∃ s', step (given [.reset .describe] (abortedAt 3 State.reset)) = .next s' :=
  ⟨rfl, rfl, _, rfl⟩

theorem witness_RaisingWritesStatusAndResponse :
    (NoAbort (started .witness p5Rows) ∧
      ∃ s', exec (.copy 3 .spread .w0 7) (started .witness p5Rows) = .next s' ∧ s'.status.state = .aborted) ∧
    ∃ s', exec (.certify 15 (.known 0x10000)) (started .witness p5Rows) = .next s' ∧ s'.status.state = .aborted :=
  ⟨⟨rfl, aborts (by decide)⟩, aborts (by decide)⟩

theorem witness_MissingAssignmentRaisedExactlyInWitnessPhase :
    NoAbort (started .witness p5Rows) ∧ Requires (.chneg 4 ⟨0, 1⟩ ⟨2, 3⟩) (started .witness p5Rows) ∧
    (started .witness p5Rows).phase = .witness ∧
    cellRead (started .witness p5Rows) .ls 3 = .assigned .unresolved := by
  simp only [Requires]
  decide

theorem witness_EachCommandRaisesOnlyItsConditions :
    (∃ s', exec (.certify 6 (.known 3)) (deficient p6Rows) = .next s' ∧ s'.status.state = .aborted) ∧
    (∃ s', exec (.copy 3 .spread .w0 7) (started .witness p5Rows) = .next s' ∧ s'.status.state = .aborted) ∧
    (∃ s', exec (.cert4 6 (.known 0) (.known 3) (.known 0) (.known 0)) (deficient p6Rows) = .next s' ∧
      s'.status.state = .aborted) ∧
    (∃ s', exec (.f1 6 ⟨0, 1⟩ ⟨2, 3⟩ ⟨4, 5⟩) (deficient p6Rows) = .next s' ∧ s'.status.state = .aborted) ∧
    (∃ s', exec (.ch 6 ⟨0, 1⟩ ⟨2, 3⟩) (deficient p6Rows) = .next s' ∧ s'.status.state = .aborted) ∧
    (∃ s', exec (.chneg 4 ⟨0, 1⟩ ⟨2, 3⟩) (started .witness p5Rows) = .next s' ∧ s'.status.state = .aborted) ∧
    TableOk (started .witness p5Rows).table :=
  ⟨aborts (by decide), aborts (by decide), aborts (by decide), aborts (by decide), aborts (by decide), aborts (by decide),
    tableOk_nil⟩

theorem image_known {tb : List (Nat × Option Nat)} {c n : Nat} (h : c < 2 ^ 16) (ht : tableRead tb c = some n) :
    TableImage tb (.known c) (.known n) := ⟨h, n, ht, rfl⟩

/-- The last free row; 0xFFFF and `?`; 0x10000 and a missing row; a row out of range and one already certified. -/
theorem witness_CertifyBindsOrRejectsTheCandidate :
    NoAbort (started .witness p5Rows) ∧ 15 < (started .witness p5Rows).nRows ∧ LookupFree (started .witness p5Rows) 15 ∧
    TableImage (started .witness p5Rows).table (.known 0xFFFF) (.known 0x55555555) ∧
    TableImage (started .witness p5Rows).table .unresolved .unresolved ∧ TableOk (started .witness p5Rows).table ∧
    2 ^ 16 ≤ 0x10000 ∧ 3 < 2 ^ 16 ∧ tableRead (deficient p5Rows).table 3 = none ∧
    ¬ (16 < (started .witness p5Rows).nRows ∧ LookupFree (started .witness p5Rows) 16) ∧
    ¬ (3 < (started .witness p5Rows).nRows ∧ LookupFree (started .witness p5Rows) 3) :=
  ⟨by decide, by decide, by decide, image_known (by decide) (by decide), rfl, tableOk_nil, by decide, by decide, by decide,
    by decide, by decide⟩

theorem witness_CopyWiresTheProjection :
    NoAbort (started .witness p5Rows) ∧ 15 < (started .witness p5Rows).nRows ∧
    cellRead (started .witness p5Rows) .w2 15 = .unassigned ∧ ValidHandle (started .witness p5Rows) 0 ∧
    cellRead (started .witness p5Rows) .ld 0 = .assigned (.known 0x5678) ∧
    Resolved (started .witness p5Rows) (.known 0x5678) ∧ ValidHandle (started .witness p5Rows) 3 ∧
    cellRead (started .witness p5Rows) .ls 3 = .assigned .unresolved ∧
    ¬ Resolved (started .witness p5Rows) .unresolved ∧ Resolved (started .describe p5Rows) .unresolved ∧
    ¬ (15 < (started .witness p5Rows).nRows ∧ cellRead (started .witness p5Rows) .w2 15 = .unassigned ∧
      ValidHandle (started .witness p5Rows) 4) ∧
    ¬ (16 < (started .witness p5Rows).nRows ∧ cellRead (started .witness p5Rows) .w2 16 = .unassigned ∧
      ValidHandle (started .witness p5Rows) 0) := by decide

/-- V25's candidates, and P6's with V24's. -/
theorem witness_Cert4CertifiesFourRows :
    NoAbort (deficient p6Rows) ∧ LookupRowsFree (deficient p6Rows) 12 ∧ ¬ LookupRowsFree (deficient p6Rows) 13 ∧
    ¬ LookupRowsFree (deficient p6Rows) 5 ∧
    TableImages (deficient p6Rows).table ⟨.known 0x2301, .unresolved, .known 1, .known 0⟩
      ⟨.known 0x04050001, .unresolved, .known 1, .known 0⟩ ∧
    FirstTooWide (deficient p6Rows).table (Candidates.toList ⟨.known 1, .known 2, .known 0x1FFFF, .known 0x20000⟩) 2 ∧
    FirstMissingRow (deficient p6Rows).table (Candidates.toList ⟨.known 1, .known 3, .known 0x1FFFF, .known 0⟩) 1 := by
  refine ⟨by decide, by decide, by decide, by decide,
    ⟨⟨by decide, _, by decide, rfl⟩, rfl, ⟨by decide, _, by decide, rfl⟩, by decide, _, by decide, rfl⟩,
    ⟨⟨_, rfl, by decide⟩, ?_⟩, ⟨⟨_, rfl, by decide, by decide⟩, ?_⟩⟩
  · intro j hj v hv
    rcases (by omega : j = 0 ∨ j = 1) with rfl | rfl <;> cases hv
    · exact ⟨.known 1, by decide, 1, by decide, rfl⟩
    · exact ⟨.known 4, by decide, 4, by decide, rfl⟩
  · intro j hj v hv
    rcases (by omega : j = 0) with rfl
    cases hv
    exact ⟨.known 1, by decide, 1, by decide, rfl⟩

/-- V30 for the completing clause, V62 for the missing row, P5's row 3 for the unresolved half, V64 for the refusal. -/
theorem witness_F1CopiesSumsAndCertifies :
    (NoAbort (started .witness p1Rows) ∧ F1Free (started .witness p1Rows) 12 ∧
      SpreadHalves (started .witness p1Rows) ⟨0, 1⟩ (.known 0x44454041) (.known 0x54555051) ∧
      SpreadHalves (started .witness p1Rows) ⟨2, 3⟩ (.known 0x51505554) (.known 0x41404544) ∧
      SpreadHalves (started .witness p1Rows) ⟨4, 5⟩ (.known 0x11101514) (.known 0x01000504) ∧
      AccFits (.known 0x96959A99A6A5AAA9) ∧
      Val.vzip3 (fun x y z => x + y + z) (join64 (.known 0x44454041) (.known 0x54555051))
        (join64 (.known 0x51505554) (.known 0x41404544)) (join64 (.known 0x11101514) (.known 0x01000504)) =
        .known 0x96959A99A6A5AAA9 ∧
      TableImages (started .witness p1Rows).table (split4 (.known 0x96959A99A6A5AAA9))
        ⟨.known 0x04050001, .known 0x51505554, .known 0x14151011, .known 0x41404544⟩) ∧
    (F1Free (deficient p6Rows) 6 ∧ SpreadHalves (deficient p6Rows) ⟨0, 1⟩ (.known 1) (.known 0) ∧
      SpreadHalves (deficient p6Rows) ⟨2, 3⟩ (.known 4) (.known 0) ∧
      SpreadHalves (deficient p6Rows) ⟨4, 5⟩ (.known 0) (.known 0) ∧
      FirstMissingRow (deficient p6Rows).table (Candidates.toList (split4 (.known 5))) 0) ∧
    (F1Free (started .witness p5Rows) 4 ∧
      SpreadHalves (started .witness p5Rows) ⟨2, 3⟩ (.known 0x00005555) .unresolved ∧
      FirstUnresolved [.known 0x11141540, .known 0x01040510, .known 0x00005555, .unresolved, .known 0x11141540, .known 0x01040510] 3) ∧
    ¬ Requires (.f1 1 ⟨0, 1⟩ ⟨0, 1⟩ ⟨0, 1⟩) (started .witness p1Rows) := by
  refine ⟨⟨by decide, by decide, by decide, by decide, by decide, ?_, by decide, ?_⟩,
    ⟨by decide, by decide, by decide, by decide, ⟨⟨3, by decide, by decide, by decide⟩, ?_⟩⟩,
    ⟨by decide, by decide, by decide⟩, ?_⟩
  · intro n hn
    cases hn
    decide
  · exact ⟨image_known (by decide) (by decide), image_known (by decide) (by decide), image_known (by decide) (by decide),
      image_known (by decide) (by decide)⟩
  · intro j hj
    omega
  · simp only [Requires]
    decide

/-- V40, V62's operands, V60 and a row out of range. -/
theorem witness_ChCopiesSumsAndCertifies :
    (NoAbort (started .witness p1Rows) ∧ ChFree (started .witness p1Rows) 12 ∧
      SpreadHalves (started .witness p1Rows) ⟨0, 1⟩ (.known 0x44454041) (.known 0x54555051) ∧
      SpreadHalves (started .witness p1Rows) ⟨2, 3⟩ (.known 0x51505554) (.known 0x41404544) ∧
      AccFits (.known 0x9595959595959595) ∧
      Val.vzip (fun a b => a + b) (join64 (.known 0x44454041) (.known 0x54555051))
        (join64 (.known 0x51505554) (.known 0x41404544)) = .known 0x9595959595959595 ∧
      TableImages (started .witness p1Rows).table (split4 (.known 0x9595959595959595))
        ⟨.known 0x15151515, .known 0x40404040, .known 0x15151515, .known 0x40404040⟩) ∧
    (ChFree (deficient p6Rows) 6 ∧ SpreadHalves (deficient p6Rows) ⟨0, 1⟩ (.known 1) (.known 0) ∧
      SpreadHalves (deficient p6Rows) ⟨2, 3⟩ (.known 4) (.known 0) ∧
      FirstMissingRow (deficient p6Rows).table (Candidates.toList (split4 (.known 5))) 0) ∧
    (ChFree (started .witness p5Rows) 4 ∧
      SpreadHalves (started .witness p5Rows) ⟨2, 3⟩ (.known 0x00005555) .unresolved ∧
      FirstUnresolved [.known 0x11141540, .known 0x01040510, .known 0x00005555, .unresolved] 3) ∧
    ¬ Requires (.ch 13 ⟨0, 1⟩ ⟨0, 1⟩) (started .witness p1Rows) := by
  refine ⟨⟨by decide, by decide, by decide, by decide, ?_, by decide, ?_⟩,
    ⟨by decide, by decide, by decide, ⟨⟨3, by decide, by decide, by decide⟩, ?_⟩⟩,
    ⟨by decide, by decide, by decide⟩, ?_⟩
  · intro n hn
    cases hn
    decide
  · exact ⟨image_known (by decide) (by decide), image_known (by decide) (by decide), image_known (by decide) (by decide),
      image_known (by decide) (by decide)⟩
  · intro j hj
    omega
  · simp only [Requires]
    decide

/-- V50; NOT 0xFFFC is 3, so the table of P6 has no row for `(NOT x) XOR 0`; P5's row 3; a row out of range. -/
theorem witness_ChnegComplementsSumsAndCertifies :
    (NoAbort (started .witness p1Rows) ∧ ChnegFree (started .witness p1Rows) 12 ∧
      SpreadHalves (started .witness p1Rows) ⟨0, 1⟩ (.known 0x44454041) (.known 0x54555051) ∧
      SpreadHalves (started .witness p1Rows) ⟨4, 5⟩ (.known 0x11101514) (.known 0x01000504) ∧
      AccFits (.known 0x02000A0822202A28) ∧
      Val.vzip (fun a b => a + b) (join64 ((Val.known 0x44454041).vmap negSpread) ((Val.known 0x54555051).vmap negSpread))
        (join64 (.known 0x11101514) (.known 0x01000504)) = .known 0x02000A0822202A28 ∧
      TableImages (started .witness p1Rows).table (split4 (.known 0x02000A0822202A28))
        ⟨.known 0, .known 0x11101514, .known 0, .known 0x01000504⟩) ∧
    (ChnegFree (deficient [cert 0xFFFC 0x55555550, cert 0xFFFC 0x55555550, cert 0 0]) 3 ∧
      SpreadHalves (deficient [cert 0xFFFC 0x55555550, cert 0xFFFC 0x55555550, cert 0 0]) ⟨0, 1⟩ (.known 0x55555550)
        (.known 0x55555550) ∧
      SpreadHalves (deficient [cert 0xFFFC 0x55555550, cert 0xFFFC 0x55555550, cert 0 0]) ⟨2, 2⟩ (.known 0) (.known 0) ∧
      Val.vzip (fun a b => a + b) (join64 ((Val.known 0x55555550).vmap negSpread) ((Val.known 0x55555550).vmap negSpread))
        (join64 (.known 0) (.known 0)) = .known 0x500000005 ∧
      FirstMissingRow (deficient []).table (Candidates.toList (split4 (.known 0x500000005))) 0) ∧
    (ChnegFree (started .witness p5Rows) 4 ∧
      SpreadHalves (started .witness p5Rows) ⟨2, 3⟩ (.known 0x00005555) .unresolved ∧
      FirstUnresolved [.known 0x00005555, .unresolved, .known 0x11141540, .known 0x01040510] 1) ∧
    ¬ Requires (.chneg 13 ⟨0, 1⟩ ⟨0, 1⟩) (started .witness p1Rows) := by
  refine ⟨⟨by decide, by decide, by decide, by decide, ?_, by decide, ?_⟩,
    ⟨by decide, by decide, by decide, by decide, ⟨⟨3, by decide, by decide, by decide⟩, ?_⟩⟩,
    ⟨by decide, by decide, by decide⟩, ?_⟩
  · intro n hn
    cases hn
    decide
  · exact ⟨image_known (by decide) (by decide), image_known (by decide) (by decide), image_known (by decide) (by decide),
      image_known (by decide) (by decide)⟩
  · intro j hj
    omega
  · simp only [Requires]
    decide

theorem witness_F1ComputesXorOfThree :
    NoAbort (started .witness p1Rows) ∧ TableOk (started .witness p1Rows).table ∧ CertifiedRows (started .witness p1Rows) ∧
    F1Free (started .witness p1Rows) 12 ∧ OperandValue (started .witness p1Rows) ⟨0, 1⟩ 0xEFCDAB89 ∧
    OperandValue (started .witness p1Rows) ⟨2, 3⟩ 0x98BADCFE ∧ OperandValue (started .witness p1Rows) ⟨4, 5⟩ 0x10325476 :=
  ⟨by decide, tableOk_nil, p1_certified .witness, by decide, by decide, by decide, by decide⟩

theorem witness_ChComputesAnd :
    NoAbort (started .describe p1Rows) ∧ TableOk (started .describe p1Rows).table ∧
    CertifiedRows (started .describe p1Rows) ∧ ChFree (started .describe p1Rows) 6 ∧
    OperandValue (started .describe p1Rows) ⟨0, 1⟩ 0xEFCDAB89 ∧ OperandValue (started .describe p1Rows) ⟨2, 3⟩ 0x98BADCFE :=
  ⟨by decide, tableOk_nil, p1_certified .describe, by decide, by decide, by decide⟩

theorem witness_ChnegComputesAndWithComplement :
    NoAbort (started .witness p1Rows) ∧ TableOk (started .witness p1Rows).table ∧ CertifiedRows (started .witness p1Rows) ∧
    ChnegFree (started .witness p1Rows) 6 ∧ OperandValue (started .witness p1Rows) ⟨0, 1⟩ 0xEFCDAB89 ∧
    OperandValue (started .witness p1Rows) ⟨4, 5⟩ 0x10325476 :=
  ⟨by decide, tableOk_nil, p1_certified .witness, by decide, by decide, by decide⟩

theorem witness_UnreturnedPairsHoldMajorityAndXor :
    TableOk (started .witness p1Rows).table ∧ CertifiedRows (started .witness p1Rows) ∧
    OperandValue (started .witness p1Rows) ⟨0, 1⟩ 0xEFCDAB89 ∧ OperandValue (started .witness p1Rows) ⟨2, 3⟩ 0x98BADCFE ∧
    OperandValue (started .witness p1Rows) ⟨4, 5⟩ 0x10325476 ∧
    (∃ s', exec (.f1 12 ⟨0, 1⟩ ⟨2, 3⟩ ⟨4, 5⟩) (started .witness p1Rows) = .next s' ∧ NoAbort s') ∧
    (∃ s', exec (.ch 6 ⟨0, 1⟩ ⟨2, 3⟩) (started .witness p1Rows) = .next s' ∧ NoAbort s') ∧
    (∃ s', exec (.chneg 6 ⟨0, 1⟩ ⟨2, 3⟩) (started .witness p1Rows) = .next s' ∧ NoAbort s') :=
  ⟨tableOk_nil, p1_certified .witness, by decide, by decide, by decide, completes (by decide), completes (by decide),
    completes (by decide)⟩

/-- One call of each gadget, one of them on an unresolved operand in the description phase. -/
theorem witness_GadgetCallsHaveOneShape :
    (∃ s', exec (.f1 12 ⟨0, 1⟩ ⟨2, 3⟩ ⟨4, 5⟩) (started .witness p1Rows) = .next s' ∧ NoAbort s') ∧
    (∃ s', exec (.ch 4 ⟨0, 1⟩ ⟨2, 3⟩) (started .describe p5Rows) = .next s' ∧ NoAbort s') ∧
    (∃ s', exec (.chneg 6 ⟨0, 1⟩ ⟨2, 3⟩) (started .witness p1Rows) = .next s' ∧ NoAbort s') :=
  ⟨completes (by decide), completes (by decide), completes (by decide)⟩

theorem witness_AccumulatorsFitUnderTableOk :
    TableOk (started .witness p1Rows).table ∧ CertifiedRows (started .witness p1Rows) ∧
    F1Free (started .witness p1Rows) 12 ∧ ChFree (started .witness p1Rows) 12 ∧ ChnegFree (started .witness p1Rows) 12 ∧
    ∀ h ∈ [0, 1, 2, 3, 4, 5], ValidHandle (started .witness p1Rows) h :=
  ⟨tableOk_nil, p1_certified .witness, by decide, by decide, by decide, by decide⟩

theorem witness_PhaseIsReadByOneCheckOnly :
    (∃ s', exec (.ch 6 ⟨0, 1⟩ ⟨2, 3⟩) (withPhase .witness (started .describe p1Rows)) = .next s' ∧
      decide (s'.status.cause ≠ 1) = true) ∧
    exec (.certify 16 .unresolved) (withPhase .witness (started .describe p1Rows)) = .refused (.rowOutOfRange 16) :=
  ⟨after_exists (by decide), rfl⟩

/-- Two certifications and a gadget, in the witness phase with values and in the description phase without. -/
theorem witness_RunsOfOneLayoutKeepOneShape :
    List.Forall₂ SameLayout
      [.certify 0 (.known 0xFFFF), .cert4 1 (.known 0) (.known 1) (.known 2) (.known 3), .ch 5 ⟨0, 1⟩ ⟨2, 3⟩]
      [.certify 0 .unresolved, .cert4 1 .unresolved .unresolved .unresolved .unresolved, .ch 5 ⟨0, 1⟩ ⟨2, 3⟩] ∧
    SameShape State.reset (State.launch 16 [] .describe) ∧
    (∃ s', RunSucceeds
      [.certify 0 (.known 0xFFFF), .cert4 1 (.known 0) (.known 1) (.known 2) (.known 3), .ch 5 ⟨0, 1⟩ ⟨2, 3⟩]
      State.reset s') ∧
    (∃ s', RunSucceeds
      [.certify 0 .unresolved, .cert4 1 .unresolved .unresolved .unresolved .unresolved, .ch 5 ⟨0, 1⟩ ⟨2, 3⟩]
      (State.launch 16 [] .describe) s') :=
  ⟨.cons rfl (.cons rfl (.cons rfl .nil)), ⟨rfl, fun _ _ => rfl, fun _ _ => Iff.rfl⟩, completes (by decide),
    completes (by decide)⟩

theorem witness_CommandsKeepSatisfied :
    TableOk (started .witness p1Rows).table ∧ MachineInv (started .witness p1Rows) ∧
    Satisfied true (started .witness p1Rows) ∧ Satisfied false (started .witness p1Rows) ∧
    (∀ v ∈ candidatesOf (.certify 15 (.known 0xFFFF)), v ≠ .unresolved) ∧
    (∃ s', exec (.certify 15 (.known 0xFFFF)) (started .witness p1Rows) = .next s' ∧ NoAbort s') ∧
    ∃ s', exec (.chneg 12 ⟨0, 1⟩ ⟨2, 3⟩) (started .witness p1Rows) = .next s' ∧ NoAbort s' :=
  ⟨tableOk_nil, p1_inv, by decide, by decide, by decide, completes (by decide), completes (by decide)⟩

theorem witness_CompletedRunsAreSatisfied :
    tableWf [] = true ∧ TableOk [] ∧
    (∀ i ∈ [Instr.certify 0 (.known 0x5678), .certify 1 (.known 0x1234), .f1 2 ⟨0, 1⟩ ⟨0, 1⟩ ⟨0, 1⟩],
      ∀ v ∈ candidatesOf i, v ≠ .unresolved) ∧
    ∃ s', RunSucceeds [.certify 0 (.known 0x5678), .certify 1 (.known 0x1234), .f1 2 ⟨0, 1⟩ ⟨0, 1⟩ ⟨0, 1⟩]
      (State.launch 16 [] .witness) s' :=
  ⟨by decide, tableOk_nil, by decide, completes (by decide)⟩

theorem witness_GateRowsDetermineDenseValues :
    TableOk (started .witness p1Rows).table ∧ LookupClause (started .witness p1Rows) ∧
    4 + 1 < (started .witness p1Rows).nRows ∧ bitRead (started .witness p1Rows) .lq 4 = true ∧
    bitRead (started .witness p1Rows) .lq 5 = true ∧ numRead (started .witness p1Rows) .ls 4 = some 0x11101514 ∧
    numRead (started .witness p1Rows) .ls 5 = some 0x01000504 :=
  ⟨tableOk_nil, by decide, by decide, by decide, by decide, by decide, by decide⟩

/-- The hypotheses of the soundness statements, met by the state the gadget leaves. -/
theorem sound_witness (link : Bool) {i : Instr}
    (h : after (exec i (started .witness p1Rows)) (fun s => decide (NoAbort s) && decide (Satisfied link s)) = true) :
    ∃ s', exec i (started .witness p1Rows) = .next s' ∧ NoAbort s' ∧ SameShape s' s' ∧ TableOk s'.table ∧
      Satisfied link s' := by
  obtain ⟨s', h1, h2⟩ := after_exists h
  rw [Bool.and_eq_true, decide_eq_true_eq, decide_eq_true_eq] at h2
  refine ⟨s', h1, h2.1, ⟨rfl, fun _ _ => rfl, fun _ _ => Iff.rfl⟩, ?_, h2.2⟩
  rw [(exec_keeps_inputs h1).1]
  exact tableOk_nil

theorem witness_F1LayoutIsSound : ∃ s', exec (.f1 6 ⟨0, 1⟩ ⟨2, 3⟩ ⟨4, 5⟩) (started .witness p1Rows) = .next s' ∧
    NoAbort s' ∧ SameShape s' s' ∧ TableOk s'.table ∧ Satisfied false s' := sound_witness false (by decide)

theorem witness_ChLayoutIsSound : ∃ s', exec (.ch 6 ⟨0, 1⟩ ⟨2, 3⟩) (started .witness p1Rows) = .next s' ∧
    NoAbort s' ∧ SameShape s' s' ∧ TableOk s'.table ∧ Satisfied false s' := sound_witness false (by decide)

theorem witness_ChnegLayoutIsSoundWithTheLink : ∃ s', exec (.chneg 6 ⟨0, 1⟩ ⟨4, 5⟩) (started .witness p1Rows) = .next s' ∧
    NoAbort s' ∧ SameShape s' s' ∧ TableOk s'.table ∧ Satisfied true s' := sound_witness true (by decide)

/-- Boundary values for the hypotheses of the statements on the combinational units. -/
theorem witness_SpreadMovesEachBitToTwiceItsPosition : 31 < 32 ∧ bit (spread 32 0x80000000) 62 = 1 := by decide

theorem witness_SpreadIsInjectiveAndFresh :
    0xABCD < 2 ^ 16 ∧ spread 16 0xABCD = spread 16 0xABCD ∧ 0x44455051 < 2 ^ 32 ∧ isFresh 0x44455051 = true := by decide

theorem witness_ParityExtractionTakesAlternateBits : 0xFFFFFFFF < 2 ^ 32 ∧ 15 < 16 := by decide

theorem witness_ParityExtractionIsReversible : 0xFFFFFFFF < 2 ^ 32 ∧ 0xFFFF < 2 ^ 16 := by decide

theorem witness_SlotLaw : 0xFFFF < 2 ^ 16 ∧ 0 < 2 ^ 16 ∧ 0xABCD < 2 ^ 16 := by decide

theorem witness_NegSpreadFlipsEvenPositionsOnly : 0x55555555 < 2 ^ 32 ∧ isFresh 0x55555555 = true ∧ 15 < 16 := by decide

theorem witness_NegSpreadCommutesWithComplement :
    0xFFFF < 2 ^ 16 ∧ 0xFFFFFFFF < 2 ^ 32 ∧ 0x44455051 < 2 ^ 32 ∧ isFresh 0x44455051 = true := by decide

theorem witness_FreshSixtyFourBitValuesAreOperandSpreads :
    0x5555555555555555 < 2 ^ 64 ∧ isFresh64 0x5555555555555555 = true ∧ 0xFFFFFFFF < 2 ^ 32 := by decide

theorem witness_BitSequencesRoundTrip : 6 < 2 ^ 4 ∧ (∀ x ∈ [0, 1, 1, 0], x < 2) ∧ 15 < 16 := by decide

end Sys2Proof.Tests
end

/-! ## When a command runs: O14 (spec/00_scope.md R16) -/

namespace Sys2Proof.Machine

section
variable {s : State} {requires : List (Bool × Refusal)} {body : Except Halt (State × Handles)}

/-- R16: before an abort a command answers a next state or is refused, and then for a listed precondition or by its body. -/
theorem runCommand_next_or_refused (hs : NoAbort s) :
    (∃ s', runCommand requires body s = .next s') ∨
      ∃ r, runCommand requires body s = .refused r ∧ (firstBroken requires = some r ∨ body = .error (.refuse r)) := by
  cases hr : firstBroken requires with
  | some r => exact .inr ⟨r, runCommand_refused hs hr, .inl rfl⟩
  | none =>
    match body with
    | .ok (s', hs') => exact .inl ⟨_, runCommand_next_iff.2 ⟨hs, hr, .inl ⟨s', hs', rfl, rfl⟩⟩⟩
    | .error (.raise e) => exact .inl ⟨_, runCommand_next_iff.2 ⟨hs, hr, .inr ⟨e, rfl, rfl⟩⟩⟩
    | .error (.refuse r) => exact .inr ⟨r, by simp [runCommand, show s.status.state = .ok from hs, hr], .inr rfl⟩

/-- R16: a command whose listed preconditions hold and whose body refuses nothing has a next state. -/
theorem runCommand_next_of_not_refused (hs : NoAbort s) (hr : firstBroken requires = none)
    (hb : ∀ r, body ≠ .error (.refuse r)) : ∃ s', runCommand requires body s = .next s' := by
  rcases runCommand_next_or_refused hs with hnext | ⟨r, -, hbroken | hbody⟩
  · exact hnext
  · exact absurd (hbroken.symm.trans hr) (Option.some_ne_none r)
  · exact absurd hbody (hb r)

/-- R228: only an aborted run answers a command with a fault. -/
theorem exec_next_or_refused (i : Instr) (hs : NoAbort s) :
    (∃ s', exec i s = .next s') ∨ ∃ r, exec i s = .refused r := by
  cases i <;> exact (runCommand_next_or_refused hs).imp_right fun ⟨r, h, _⟩ => ⟨r, h⟩

/-- R16: under its preconditions a command has a next state. The listed checks pass, and all that its body can still
answer is a result or an exception: a certification refuses nothing, a copy only an unassigned source (log 15), a gadget
only an accumulator too wide (log 19). -/
theorem exec_next_of_requires {i : Instr} (hs : NoAbort s) (h : Requires i s) : ∃ s', exec i s = .next s' := by
  cases i with
  | certify t v =>
    obtain ⟨ht, hfree⟩ := h
    refine runCommand_next_of_not_refused hs ((requireRow_none ..).2 ⟨ht, (requireLookupRow_none ..).2 hfree⟩) fun r => ?_
    simp [exceptBind_error_iff, certify_raises_iff, pure, Except.pure]
  | copy k sel w t =>
    obtain ⟨ht, hfree, hk⟩ := h
    refine runCommand_next_of_not_refused hs
      ((requireRow_none ..).2 ⟨ht, (requireCell_none ..).2 ⟨hfree, (requireHandle_none ..).2 hk⟩⟩) fun r => ?_
    simp [exceptBind_error_iff, copy_error_iff, resolve_raises_iff hk.2, pure, Except.pure]
  | cert4 t a b c d =>
    obtain ⟨ht, hfree⟩ := h
    refine runCommand_next_of_not_refused hs ((requireRow_none ..).2 ⟨ht, (requireLookupRows_none ..).2 hfree⟩) fun r => ?_
    simp [exceptBind_error_iff, cert4_raises_iff, pure, Except.pure]
  | f1 t b c d =>
    obtain ⟨hfree, hb, hc, hd, hfits⟩ := h
    refine runCommand_next_of_not_refused hs ((f1Requires_none ..).2 ⟨hfree, hb, hc, hd⟩) fun r hr => ?_
    rcases (f1Body_error_iff hb hc hd).1 hr with ⟨e, -, -, hraise⟩ | ⟨hwide, -⟩
    · cases hraise
    · exact hwide hfits
  | ch t x y =>
    obtain ⟨hfree, hx, hy, hfits⟩ := h
    refine runCommand_next_of_not_refused hs ((chRequires_none ..).2 ⟨hfree, hx, hy⟩) fun r hr => ?_
    rcases (chBody_error_iff hx hy).1 hr with ⟨e, -, -, hraise⟩ | ⟨hwide, -⟩
    · cases hraise
    · exact hwide hfits
  | chneg t x z =>
    obtain ⟨hfree, hx, hz, hfits⟩ := h
    refine runCommand_next_of_not_refused hs ((chnegRequires_none ..).2 ⟨hfree, hx, hz⟩) fun r hr => ?_
    rcases (chnegBody_error_iff hx hz).1 hr with ⟨e, -, -, hraise⟩ | ⟨hwide, -⟩
    · cases hraise
    · exact hwide hfits

end

/-- Settles O14: the preconditions give a next state, and a next state gives them back (`exec_next_iff`), so without them
the only answer left before an abort is a refusal. -/
theorem commandsRunExactlyUnderTheirRequires : Obligations.CommandsRunExactlyUnderTheirRequires := by
  intro i s hs
  refine ⟨exec_next_of_requires hs, fun hn => ?_⟩
  rcases exec_next_or_refused i hs with ⟨s', h⟩ | hrefused
  · obtain ⟨-, hr, -⟩ := (exec_next_iff i).1 h
    exact absurd hr hn
  · exact hrefused

end Sys2Proof.Machine

/-! ## The decoder by operation code (R73, R76, R78)

For a word of the port: one equation per operation code. The right side of each names exactly the fields the operation
reads, so two words that agree on them decode alike. -/

namespace Sys2Proof

section

variable {rw w : Nat}

/-- R78: an operation code that names no command. -/
theorem decode_reservedOpcode (hw : w < 2 ^ cmdWidth rw) (hop : fieldOp w = 0 ∨ fieldOp w = 7) :
    decode rw w = .error (.reservedOpcode (fieldOp w)) := by
  rcases hop with hop | hop <;> simp [decode, hw, hop]

/-- R78: COPY with a column code that names no column. -/
theorem decode_copy_reservedColumn (hw : w < 2 ^ cmdWidth rw) (hop : fieldOp w = 2) (hcol : fieldCol rw w = none) :
    decode rw w = .error .reservedColumn := by
  simp [decode, hw, hop, hcol]

theorem decode_certify (hw : w < 2 ^ cmdWidth rw) (hop : fieldOp w = 1) :
    decode rw w = .ok (.certify (fieldT rw w) (fieldV rw 0 w)) := by
  simp [decode, hw, hop]

/-- A COPY reads its source, projection, column and row; the column alone can refuse it. -/
theorem decode_copy (hw : w < 2 ^ cmdWidth rw) (hop : fieldOp w = 2) :
    decode rw w = ((fieldCol rw w).elim (.error .reservedColumn) fun c =>
      .ok (.copy (fieldH rw 0 w) (fieldSel rw w) c (fieldT rw w))) := by
  cases hcol : fieldCol rw w with
  | none => exact decode_copy_reservedColumn hw hop hcol
  | some c => simp [decode, hw, hop, hcol]

theorem decode_cert4 (hw : w < 2 ^ cmdWidth rw) (hop : fieldOp w = 3) :
    decode rw w =
      .ok (.cert4 (fieldT rw w) (fieldV rw 0 w) (fieldV rw 1 w) (fieldV rw 2 w) (fieldV rw 3 w)) := by
  simp [decode, hw, hop]

theorem decode_f1 (hw : w < 2 ^ cmdWidth rw) (hop : fieldOp w = 4) :
    decode rw w =
      .ok (.f1 (fieldT rw w) (fieldOperand rw 0 w) (fieldOperand rw 2 w) (fieldOperand rw 4 w)) := by
  simp [decode, hw, hop]

theorem decode_ch (hw : w < 2 ^ cmdWidth rw) (hop : fieldOp w = 5) :
    decode rw w = .ok (.ch (fieldT rw w) (fieldOperand rw 0 w) (fieldOperand rw 2 w)) := by
  simp [decode, hw, hop]

theorem decode_chneg (hw : w < 2 ^ cmdWidth rw) (hop : fieldOp w = 6) :
    decode rw w = .ok (.chneg (fieldT rw w) (fieldOperand rw 0 w) (fieldOperand rw 2 w)) := by
  simp [decode, hw, hop]

/-- R76: an operand is read from its two handle fields alone. -/
theorem fieldOperand_congr {w' k : Nat} (hlo : fieldH rw k w = fieldH rw k w')
    (hhi : fieldH rw (k + 1) w = fieldH rw (k + 1) w') : fieldOperand rw k w = fieldOperand rw k w' := by
  rw [fieldOperand, fieldOperand, hlo, hhi]

end

namespace Machine

/-- R78: a word the decoder refuses stops the step under the decoder's reason, in any state. -/
theorem step_refused_of_decode_error {s : State} {w : Nat} {rest : List HostMove} {e : DecodeError}
    (hh : s.host = .command w :: rest) (he : decode (rowWidth s.nRows) w = .error e) :
    step s = .refused (decodeRefusal e) := by
  simp [step, takeMove, hh, he]

/-- Settles O3: the step passes on the decoder's refusal, and each operation's decoder equation names only the fields it
reads. -/
theorem reservedCodesRefusedUnreadFieldsIgnored : Obligations.ReservedCodesRefusedUnreadFieldsIgnored := by
  refine ⟨fun s w rest hh hw => ⟨fun hop => ?reservedOpcode, fun ⟨hop, hcol⟩ => ?reservedColumn⟩,
    fun rw w w' hw hw' hop ht => ⟨fun h1 hv => ?certify, fun h2 hh hsel hcol => ?copy, fun h3 hv => ?cert4,
      fun h4 hh => ?f1, fun h56 hh => ?chOrChneg⟩⟩
  case reservedOpcode => exact step_refused_of_decode_error hh (decode_reservedOpcode hw hop)
  case reservedColumn => exact step_refused_of_decode_error hh (decode_copy_reservedColumn hw hop hcol)
  case certify => rw [decode_certify hw h1, decode_certify hw' (hop ▸ h1), ht, hv]
  case copy => rw [decode_copy hw h2, decode_copy hw' (hop ▸ h2), ht, hh, hsel, hcol]
  case cert4 =>
    rw [decode_cert4 hw h3, decode_cert4 hw' (hop ▸ h3), ht, hv 0 (by decide), hv 1 (by decide), hv 2 (by decide),
      hv 3 (by decide)]
  case f1 =>
    have hb := fieldOperand_congr (hh 0 (by decide)) (hh 1 (by decide))
    have hc := fieldOperand_congr (hh 2 (by decide)) (hh 3 (by decide))
    have hd := fieldOperand_congr (hh 4 (by decide)) (hh 5 (by decide))
    rw [decode_f1 hw h4, decode_f1 hw' (hop ▸ h4), ht, hb, hc, hd]
  case chOrChneg =>
    have hx := fieldOperand_congr (hh 0 (by decide)) (hh 1 (by decide))
    have hy := fieldOperand_congr (hh 2 (by decide)) (hh 3 (by decide))
    rcases h56 with h5 | h6
    · rw [decode_ch hw h5, decode_ch hw' (hop ▸ h5), ht, hx, hy]
    · rw [decode_chneg hw h6, decode_chneg hw' (hop ▸ h6), ht, hx, hy]

end Machine

end Sys2Proof

/-! ## The units of spec/40_bit_primitives.md, bit by bit: O40, O42, O45 -/

namespace Sys2Proof.Machine

section

variable {n i : Nat}

/-! ### Bits under the operations -/

theorem bit_mod_two_pow (d : Nat) (hi : i < n) : bit (d % 2 ^ n) i = bit d i := by
  simp [bit_eq_testBit, Nat.testBit_mod_two_pow, hi]

theorem bit_xor (a b i : Nat) : bit (a ^^^ b) i = (bit a i + bit b i) % 2 := by
  simp only [bit_eq_testBit, Nat.testBit_xor]
  cases a.testBit i <;> cases b.testBit i <;> rfl

/-- XOR is the sum without its carries, AND the carries. -/
theorem xor_add_two_mul_and (a b : Nat) : (a ^^^ b) + 2 * (a &&& b) = a + b := by
  induction a using Nat.strongRecOn generalizing b with
  | ind a ih =>
    rcases Nat.eq_zero_or_pos a with rfl | ha
    · simp
    · have hcarry := ih (a / 2) (by omega) (b / 2)
      rw [xor_peel, and_peel a b]
      rcases Nat.mod_two_eq_zero_or_one a with h | h <;> rw [h] <;> omega

/-! ### R100: `spread` -/

theorem spread_lt (n d : Nat) : spread n d < 2 ^ (2 * n) := by
  have h := three_mul_spread_lt n d
  rw [pow_mul, show (2 : Nat) ^ 2 = 4 from rfl]; omega

/-- The windows of `spread` above its lowest are the spread of the remaining bits. -/
theorem spread_succ_div_four (n d : Nat) : spread (n + 1) d / 2 ^ 2 = spread n (d / 2) := by
  rw [spread_succ]; omega

theorem bit_spread_even (n d : Nat) (hi : i < n) : bit (spread n d) (2 * i) = bit d i := by
  induction n generalizing d i with
  | zero => omega
  | succ n ih =>
    cases i with
    | zero => rw [bit_zero, bit_zero, spread_succ]; omega
    | succ i => rw [Nat.mul_succ, bit_add, spread_succ_div_four, ih _ (by omega), bit_succ]

theorem bit_spread_odd (n d i : Nat) : bit (spread n d) (2 * i + 1) = 0 := by
  induction n generalizing d i with
  | zero => simp [spread_zero, bit]
  | succ n ih =>
    cases i with
    | zero => rw [bit_succ, bit_zero, spread_succ]; omega
    | succ i => rw [show 2 * (i + 1) + 1 = 2 * i + 1 + 2 by ring, bit_add, spread_succ_div_four, ih]

/-- A spread is read from the low `n` bits alone. -/
theorem spread_mod_two_pow (n d : Nat) : spread n (d % 2 ^ n) = spread n d :=
  sumBelow_congr fun i hi => by rw [bit_mod_two_pow d hi]

theorem spread_add (m n d : Nat) : spread (m + n) d = spread m d + 4 ^ m * spread n (d / 2 ^ m) := by
  induction m generalizing d with
  | zero => simp [spread_zero]
  | succ m ih =>
    rw [Nat.succ_add, spread_succ, ih, spread_succ, Nat.div_div_eq_div_mul, ← Nat.pow_succ', pow_succ 4]
    ring

/-- R100, derived: the spread of an operand from the spreads of its half-words. -/
theorem spread_32_halves (x : Nat) : spread 32 x = spread16 (lo16 x) + 2 ^ 32 * spread16 (hi16 x) := by
  have hlo : spread16 (lo16 x) = spread 16 x := by
    rw [spread16, lo16, slice, spread_mod_two_pow, Nat.pow_zero, Nat.div_one]
  have hhi : spread16 (hi16 x) = spread 16 (x / 2 ^ 16) := spread_mod_two_pow 16 _
  rw [hlo, hhi]
  exact spread_add 16 16 x

/-- Settles O40: the bits by induction on the width, one window of the spread at a time. -/
theorem spreadMovesEachBitToTwiceItsPosition : Obligations.SpreadMovesEachBitToTwiceItsPosition :=
  ⟨fun n d => ⟨spread_lt n d, fun _ => bit_spread_even n d, bit_spread_odd n d⟩, spread_32_halves⟩

/-! ### R103, R104: `evenBits` and `oddBits` -/

/-- The extracted bits above the lowest are those of `v` from its next two positions on. -/
theorem parityBits_succ_div_two (n sel v : Nat) : parityBits (n + 1) sel v / 2 = parityBits n sel (v / 2 ^ 2) := by
  have hsel := bit_lt_two v sel
  rw [parityBits_succ, show (2 : Nat) ^ 2 = 4 from rfl]; omega

theorem bit_parityBits (n sel v : Nat) (hi : i < n) : bit (parityBits n sel v) i = bit v (2 * i + sel) := by
  induction n generalizing v i with
  | zero => omega
  | succ n ih =>
    cases i with
    | zero =>
      have hsel := bit_lt_two v sel
      rw [bit_zero, parityBits_succ, Nat.mul_zero, Nat.zero_add]; omega
    | succ i =>
      rw [bit_succ, parityBits_succ_div_two, ih _ (by omega), ← bit_add]
      congr 1; ring

/-- R104, derived: the odd positions of `v` are the even ones of its half. -/
theorem oddBits_eq_evenBits_half (v : Nat) : oddBits v = evenBits (v / 2) :=
  sumBelow_congr fun i _ => by rw [bit_succ, Nat.add_zero]

/-- Settles O42: bit `i` of the extracted value by induction on the number of bits, two positions of `v` at a time. -/
theorem parityExtractionTakesAlternateBits : Obligations.ParityExtractionTakesAlternateBits := fun v _ =>
  ⟨evenBits_lt v, oddBits_lt v, fun _ hi => ⟨bit_parityBits 16 0 v hi, bit_parityBits 16 1 v hi⟩,
    oddBits_eq_evenBits_half v⟩

/-! ### R107: `negSpread` -/

/-- R17: `M16` is the spread of the full half-word. -/
theorem m16_eq_spread16 : m16 = spread16 (2 ^ 16 - 1) := by decide

theorem bit_m16_even (hi : i < 16) : bit m16 (2 * i) = 1 := by
  rw [m16_eq_spread16, spread16, bit_spread_even 16 _ hi, bit_eq_testBit, Nat.testBit_two_pow_sub_one]
  simp [hi]

theorem bit_m16_odd (i : Nat) : bit m16 (2 * i + 1) = 0 := by
  rw [m16_eq_spread16]; exact bit_spread_odd 16 _ i

variable {s : Nat}

theorem negSpread_lt (hs : s < 2 ^ 32) : negSpread s < 2 ^ 32 := Nat.xor_lt_two_pow hs (by decide)

theorem bit_negSpread_even (s : Nat) (hi : i < 16) : bit (negSpread s) (2 * i) = 1 - bit s (2 * i) := by
  have hbit := bit_lt_two s (2 * i)
  rw [negSpread, bit_xor, bit_m16_even hi]; omega

theorem bit_negSpread_odd (s i : Nat) : bit (negSpread s) (2 * i + 1) = bit s (2 * i + 1) := by
  have hbit := bit_lt_two s (2 * i + 1)
  rw [negSpread, bit_xor, bit_m16_odd]; omega

/-- R102: a fresh value lies within `M16`. -/
theorem and_m16_of_isFresh (hs : s < 2 ^ 32) (hf : isFresh s = true) : s &&& m16 = s := by
  have hodd : s &&& 0xAAAAAAAA = 0 := of_decide_eq_true hf
  calc s &&& m16 = s &&& m16 ||| s &&& 0xAAAAAAAA := by rw [hodd, Nat.or_zero]
    _ = s &&& (m16 ||| 0xAAAAAAAA) := (Nat.and_or_distrib_left ..).symm
    _ = s := Nat.and_two_pow_sub_one_of_lt_two_pow hs

/-- On a fresh value the XOR takes away what `M16` and the value share, which is the whole value. -/
theorem negSpread_of_isFresh (hs : s < 2 ^ 32) (hf : isFresh s = true) : negSpread s = m16 - s := by
  have hsum := xor_add_two_mul_and s m16
  rw [and_m16_of_isFresh hs hf] at hsum
  rw [negSpread]; omega

/-- Settles O45: bit by bit through `M16`, whose even positions are 1 and whose odd positions are 0; on a fresh value
through the sum `s + M16`. -/
theorem negSpreadFlipsEvenPositionsOnly : Obligations.NegSpreadFlipsEvenPositionsOnly := fun s hs =>
  ⟨negSpread_lt hs, fun i hi => ⟨bit_negSpread_even s hi, bit_negSpread_odd s i⟩, negSpread_of_isFresh hs⟩

end

end Sys2Proof.Machine

/-! ## The lookup enforcer: O19, O20, O21 (spec/41_lookup_enforcer.md) -/

namespace Sys2Proof.Machine

section

variable {s : State}

/-! ### Completing, raising and being refused, from the preconditions -/

/-- R227: what an exception writes, keeps and leaves unsaid. -/
theorem abortRun_aborts (e : Raise) (s : State) : Aborts s (abortRun e s) e.cause e.subcause e.row :=
  ⟨rfl, rfl, rfl, rfl, rfl, rfl⟩

theorem exec_next_of_completed {s' : State} {i : Instr} (hs : NoAbort s) (hr : Requires i s) (hc : Completed i s s') :
    exec i s = .next s' :=
  (exec_next_iff i).2 ⟨hs, hr, .inl hc⟩

theorem exec_aborts_of_raises {i : Instr} {e : Raise} (hs : NoAbort s) (hr : Requires i s) (he : Raises i s e) :
    ∃ s', exec i s = .next s' ∧ Aborts s s' e.cause e.subcause e.row :=
  ⟨_, (exec_next_iff i).2 ⟨hs, hr, .inr ⟨e, he, rfl⟩⟩, abortRun_aborts e s⟩

theorem exec_refused_of_not_requires (i : Instr) (hs : NoAbort s) (hr : ¬ Requires i s) : ∃ r, exec i s = .refused r :=
  (commandsRunExactlyUnderTheirRequires i s hs).2 hr

/-! ### Candidates against the table -/

variable {tb : List (Nat × Option Nat)} {c t : Nat}

/-- R131: under `TABLE_OK` the image of a known candidate is its spread. -/
theorem tableImage_eq_spread16 {x : Val} (htb : TableOk tb) (hx : TableImage tb (.known c) x) :
    x = .known (spread16 c) := by
  obtain ⟨hc, n, hn, rfl⟩ := hx
  rw [htb c hc] at hn
  cases hn; rfl

/-- R136: a missing row below 2^16 contradicts `TABLE_OK`. -/
theorem not_tableOk_of_missing (hc : c < 2 ^ 16) (hmissing : tableRead tb c = none) : ¬ TableOk tb := fun htb =>
  Option.some_ne_none _ ((htb c hc).symm.trans hmissing)

/-- R135: a wide candidate fails its certification, whatever the table. -/
theorem certifyRaises_width (tb : List (Nat × Option Nat)) (t : Nat) (hc : 2 ^ 16 ≤ c) :
    CertifyRaises tb (.known c) t (.candidateWidth t) :=
  ⟨c, rfl, .inl ⟨hc, rfl⟩⟩

/-- R136: a candidate below 2^16 without a table row fails its certification. -/
theorem certifyRaises_noRow (t : Nat) (hc : c < 2 ^ 16) (hmissing : tableRead tb c = none) :
    CertifyRaises tb (.known c) t (.candidateNoRow t) :=
  ⟨c, rfl, .inr ⟨hc, hmissing, rfl⟩⟩

/-- CERTIFY raises what the certification of its one candidate raises. -/
theorem raises_certify_iff {v : Val} {e : Raise} : Raises (.certify t v) s e ↔ CertifyRaises s.table v t e := by
  simp only [Raises, certRaises_cons, certRaises_nil, and_false, or_false]

end

/-- Settles O19: an image completes the command, a wide candidate or a missing row raises for its row, and a row that is
out of range or not free breaks a precondition. -/
theorem certifyBindsOrRejectsTheCandidate : Obligations.CertifyBindsOrRejectsTheCandidate := by
  intro s t v hs
  refine ⟨fun ht hfree => ⟨fun x hx => ⟨?binds, ?spread⟩, ?tooWide, ?noRow⟩,
    exec_refused_of_not_requires (.certify t v) hs⟩
  case binds =>
    have hr : Requires (.certify t v) s := ⟨ht, hfree⟩
    exact ⟨_, exec_next_of_completed hs hr ⟨x, hx, rfl⟩, certify_effect t v x hs⟩
  case spread =>
    rintro htb c rfl
    exact tableImage_eq_spread16 htb hx
  case tooWide =>
    rintro c rfl hc tb
    have hr : Requires (.certify t (.known c)) { s with table := tb } := ⟨ht, hfree⟩
    exact exec_aborts_of_raises (s := { s with table := tb }) hs hr (raises_certify_iff.2 (certifyRaises_width tb t hc))
  case noRow =>
    rintro c rfl hc hmissing
    have hr : Requires (.certify t (.known c)) s := ⟨ht, hfree⟩
    exact ⟨not_tableOk_of_missing hc hmissing,
      exec_aborts_of_raises hs hr (raises_certify_iff.2 (certifyRaises_noRow t hc hmissing))⟩

/-- COPY raises, for its destination row, when its source is `Unresolved` in the witness phase. -/
theorem raises_copy {s : State} {h t : Nat} {sel : Proj} {w : WCol} {v : Val} (hv : cellRead s sel.col h = .assigned v)
    (hn : ¬ Resolved s v) : Raises (.copy h sel w t) s (.missingPriorAssignment t) := by
  obtain ⟨hphase, hunresolved⟩ := Classical.not_imp.1 hn
  have hsource : cellRead s sel.col h = .assigned .unresolved := by rw [hv, not_not.1 hunresolved]
  exact (readRaises_cons ..).2 (.inl ⟨hphase, hsource, rfl⟩)

/-- Settles O20: an assigned source makes the handle readable; then the copy completes or raises as its value is resolved
or not. Readability includes validity, so a broken clause of the refusal breaks a precondition. -/
theorem copyWiresTheProjection : Obligations.CopyWiresTheProjection := by
  refine ⟨fun s h sel w t v hs ht hfree hvalid hv => ?_, fun s h sel w t hs hbroken => ?_⟩
  · have hr : Requires (.copy h sel w t) s := ⟨ht, hfree, hvalid, by simp [hv]⟩
    refine ⟨fun hres => ?_, fun hn => exec_aborts_of_raises hs hr (raises_copy hv hn)⟩
    exact ⟨_, exec_next_of_completed hs hr ⟨v, hv, hres, rfl⟩, copy_effect h sel w t v hs⟩
  · refine exec_refused_of_not_requires (.copy h sel w t) hs fun hr => hbroken ?_
    obtain ⟨ht, hfree, hvalid, -⟩ := hr
    exact ⟨ht, hfree, hvalid⟩

/-- Settles O21: four images complete the command; the first candidate without one raises for its row (`CertRaises`). -/
theorem cert4CertifiesFourRows : Obligations.Cert4CertifiesFourRows := by
  intro s t c hs
  refine ⟨fun hfree => ⟨fun x hx => ?completes, fun k hk => ?tooWide, fun k hk => ?noRow⟩,
    exec_refused_of_not_requires (.cert4 t c.v0Even c.v0Odd c.v1Even c.v1Odd) hs⟩
  case completes => exact ⟨_, exec_next_of_completed hs hfree ⟨x, hx, rfl⟩, cert4_effect t c x hs⟩
  case tooWide => exact exec_aborts_of_raises (e := .candidateWidth (t + k)) hs hfree ⟨k, .inl ⟨hk, rfl⟩⟩
  case noRow => exact exec_aborts_of_raises (e := .candidateNoRow (t + k)) hs hfree ⟨k, .inr ⟨hk, rfl⟩⟩

end Sys2Proof.Machine

/-! ## The boolean gadgets: O22, O23, O24, O29 (spec/42_boolean_gadgets.md) -/

namespace Sys2Proof.Machine

section

variable {s : State} {x y : Operand} {xLo xHi yLo yHi : Val}

/-! ### Operands whose spread halves are assigned -/

theorem operandReadable_of_spreadHalves (hx : SpreadHalves s x xLo xHi) : OperandReadable s x := by
  obtain ⟨hlo, hhi, rlo, rhi⟩ := hx
  exact ⟨⟨hlo, by simp [rlo]⟩, hhi, by simp [rhi]⟩

/-- R138: halves that can be resolved in the phase are what the copies read. -/
theorem operandResolves_of_spreadHalves (hx : SpreadHalves s x xLo xHi) (hlo : Resolved s xLo) (hhi : Resolved s xHi) :
    OperandResolves s x xLo xHi := by
  obtain ⟨-, -, rlo, rhi⟩ := hx
  exact ⟨rlo, rhi, hlo, hhi⟩

theorem spreadHalves_of_operandResolves (hx : OperandReadable s x) (h : OperandResolves s x xLo xHi) :
    SpreadHalves s x xLo xHi := by
  obtain ⟨⟨hlo, -⟩, hhi, -⟩ := hx
  obtain ⟨rlo, rhi, -, -⟩ := h
  exact ⟨hlo, hhi, rlo, rhi⟩

theorem operandNumber_of_spreadHalves (g : Nat → Nat) (hx : SpreadHalves s x xLo xHi) :
    operandNumber s g x = knownNumber (join64 (xLo.vmap g) (xHi.vmap g)) := by
  obtain ⟨-, -, rlo, rhi⟩ := hx
  exact operandNumber_eq g rlo rhi

/-- R162: the `require` on the accumulator of a two-operand gadget, resolved or not. -/
theorem pairFits_of_spreadHalves (g : Nat → Nat) (hx : SpreadHalves s x xLo xHi) (hy : SpreadHalves s y yLo yHi)
    (hfits : AccFits (pairSum (xLo.vmap g) (xHi.vmap g) yLo yHi)) :
    SumFits [operandNumber s g x, operandNumber s id y] := by
  rw [operandNumber_of_spreadHalves g hx, operandNumber_of_spreadHalves id hy, sumFits_two]
  simpa only [vmap_id, pairSum] using hfits

/-- R162: the same for the three operands of F1. -/
theorem f1Fits_of_spreadHalves {z : Operand} {zLo zHi : Val} (hx : SpreadHalves s x xLo xHi)
    (hy : SpreadHalves s y yLo yHi) (hz : SpreadHalves s z zLo zHi) (hfits : AccFits (f1Sum xLo xHi yLo yHi zLo zHi)) :
    SumFits [operandNumber s id x, operandNumber s id y, operandNumber s id z] := by
  rw [operandNumber_of_spreadHalves id hx, operandNumber_of_spreadHalves id hy, operandNumber_of_spreadHalves id hz,
    sumFits_three]
  simpa only [vmap_id, f1Sum] using hfits

/-- R229 (2): of operands copied in order, each to rows `t` and `t + 1`, the first unresolved half raises for the row it
is copied to. -/
theorem readRaises_of_firstUnresolved (hw : s.phase = .witness) (t : Nat) {k : Nat} {xs : List (Operand × Val × Val)}
    (hxs : ∀ x ∈ xs, SpreadHalves s x.1 x.2.1 x.2.2) (hk : FirstUnresolved (xs.flatMap fun x => [x.2.1, x.2.2]) k) :
    ReadRaises s (xs.flatMap fun x => operandReads x.1 t) (.missingPriorAssignment (t + k % 2)) := by
  induction xs generalizing k with
  | nil => exact absurd hk.1 (by simp)
  | cons x xs ih =>
    obtain ⟨x, lo, hi⟩ := x
    obtain ⟨⟨-, -, rlo, rhi⟩, hrest⟩ := List.forall_mem_cons.1 hxs
    obtain ⟨hat, hbefore⟩ := hk
    simp only [List.flatMap_cons, operandReads, List.cons_append, List.nil_append, readRaises_cons, rlo, rhi] at hat ⊢
    match k with
    | 0 =>
      have hlo : lo = .unresolved := by simpa using hat
      exact .inl ⟨hw, by rw [hlo], rfl⟩
    | 1 =>
      have hlo : lo ≠ .unresolved := by simpa using hbefore 0 (by omega)
      have hhi : hi = .unresolved := by simpa using hat
      exact .inr ⟨by simpa using hlo, .inl ⟨hw, by rw [hhi], rfl⟩⟩
    | k + 2 =>
      have hlo : lo ≠ .unresolved := by simpa using hbefore 0 (by omega)
      have hhi : hi ≠ .unresolved := by simpa using hbefore 1 (by omega)
      have hfirst : FirstUnresolved (xs.flatMap fun x => [x.2.1, x.2.2]) k :=
        ⟨hat, fun j hj => hbefore (j + 2) (by omega)⟩
      rw [Nat.add_mod_right]
      exact .inr ⟨by simpa using hlo, .inr ⟨by simpa using hhi, ih hrest hfirst⟩⟩

/-- R229 (3): a first candidate without a table row raises for its lookup row. -/
theorem certRaises_of_firstMissingRow {tb : List (Nat × Option Nat)} {vs : List Val} {k : Nat} (t : Nat)
    (hk : FirstMissingRow tb vs k) : CertRaises tb vs t (.candidateNoRow (t + k)) :=
  ⟨k, .inr ⟨hk, rfl⟩⟩

end

/-- Settles O22: assigned halves make the operands readable and the accumulator's `require` true; then the command
completes, or raises with its first unresolved half or its first candidate without a row. -/
theorem f1CopiesSumsAndCertifies : Obligations.F1CopiesSumsAndCertifies := by
  refine ⟨?_, fun s t b c d hs => exec_refused_of_not_requires (.f1 t b c d) hs⟩
  rintro s t b c d bLo bHi cLo cHi dLo dHi m hs hfree hb hc hd rfl hfits
  have hr : Requires (.f1 t b c d) s :=
    ⟨hfree, operandReadable_of_spreadHalves hb, operandReadable_of_spreadHalves hc, operandReadable_of_spreadHalves hd,
      f1Fits_of_spreadHalves hb hc hd hfits⟩
  refine ⟨fun hres => ?resolved, fun hw k hk => ?unresolved⟩
  case resolved =>
    simp only [List.forall_mem_cons] at hres
    obtain ⟨hbLo, hbHi, hcLo, hcHi, hdLo, hdHi, -⟩ := hres
    have rb := operandResolves_of_spreadHalves hb hbLo hbHi
    have rc := operandResolves_of_spreadHalves hc hcLo hcHi
    have rd := operandResolves_of_spreadHalves hd hdLo hdHi
    refine ⟨fun x hx => ?completes, fun k hk => ?noRow⟩
    case completes =>
      exact ⟨_, exec_next_of_completed hs hr ⟨_, _, _, _, _, _, x, rb, rc, rd, hx, rfl⟩,
        f1_effect t b c d _ _ _ _ _ _ _ x hs⟩
    case noRow =>
      exact exec_aborts_of_raises hs hr (.inr ⟨_, _, _, _, _, _, rb, rc, rd, certRaises_of_firstMissingRow t hk⟩)
  case unresolved =>
    have hraise := readRaises_of_firstUnresolved hw t (xs := [(b, bLo, bHi), (c, cLo, cHi), (d, dLo, dHi)])
      (by simpa using ⟨hb, hc, hd⟩) hk
    exact exec_aborts_of_raises hs hr (.inl hraise)

/-- Settles O23, as `f1CopiesSumsAndCertifies` does O22. -/
theorem chCopiesSumsAndCertifies : Obligations.ChCopiesSumsAndCertifies := by
  refine ⟨?_, fun s t x y hs => exec_refused_of_not_requires (.ch t x y) hs⟩
  rintro s t x y xLo xHi yLo yHi p hs hfree hx hy rfl hfits
  have hr : Requires (.ch t x y) s :=
    ⟨hfree, operandReadable_of_spreadHalves hx, operandReadable_of_spreadHalves hy,
      pairFits_of_spreadHalves id hx hy (by simpa only [vmap_id, pairSum] using hfits)⟩
  refine ⟨fun hres => ?resolved, fun hw k hk => ?unresolved⟩
  case resolved =>
    simp only [List.forall_mem_cons] at hres
    obtain ⟨hxLo, hxHi, hyLo, hyHi, -⟩ := hres
    have rx := operandResolves_of_spreadHalves hx hxLo hxHi
    have ry := operandResolves_of_spreadHalves hy hyLo hyHi
    refine ⟨fun i hi => ?completes, fun k hk => ?noRow⟩
    case completes =>
      exact ⟨_, exec_next_of_completed hs hr ⟨_, _, _, _, i, rx, ry, hi, rfl⟩, ch_effect t x y _ _ _ _ _ i hs⟩
    case noRow => exact exec_aborts_of_raises hs hr (.inr ⟨_, _, _, _, rx, ry, certRaises_of_firstMissingRow t hk⟩)
  case unresolved =>
    have hraise := readRaises_of_firstUnresolved hw t (xs := [(x, xLo, xHi), (y, yLo, yHi)])
      (by simpa using ⟨hx, hy⟩) hk
    exact exec_aborts_of_raises hs hr (.inl hraise)

/-- Settles O24, as `f1CopiesSumsAndCertifies` does O22, X's halves under `negSpread` in the accumulator. -/
theorem chnegComplementsSumsAndCertifies : Obligations.ChnegComplementsSumsAndCertifies := by
  refine ⟨?_, fun s t x z hs => exec_refused_of_not_requires (.chneg t x z) hs⟩
  rintro s t x z xLo xHi zLo zHi q hs hfree hx hz rfl hfits
  have hr : Requires (.chneg t x z) s :=
    ⟨hfree, operandReadable_of_spreadHalves hx, operandReadable_of_spreadHalves hz,
      pairFits_of_spreadHalves negSpread hx hz hfits⟩
  refine ⟨fun hres => ?resolved, fun hw k hk => ?unresolved⟩
  case resolved =>
    simp only [List.forall_mem_cons] at hres
    obtain ⟨hxLo, hxHi, hzLo, hzHi, -⟩ := hres
    have rx := operandResolves_of_spreadHalves hx hxLo hxHi
    have rz := operandResolves_of_spreadHalves hz hzLo hzHi
    refine ⟨fun i hi => ?completes, fun k hk => ?noRow⟩
    case completes =>
      exact ⟨_, exec_next_of_completed hs hr ⟨_, _, _, _, i, rx, rz, hi, rfl⟩, chneg_effect t x z _ _ _ _ _ i hs⟩
    case noRow => exact exec_aborts_of_raises hs hr (.inr ⟨_, _, _, _, rx, rz, certRaises_of_firstMissingRow t hk⟩)
  case unresolved =>
    have hraise := readRaises_of_firstUnresolved hw t (xs := [(x, xLo, xHi), (z, zLo, zHi)])
      (by simpa using ⟨hx, hz⟩) hk
    exact exec_aborts_of_raises hs hr (.inl hraise)

section

/-! ### The shape of a gadget call (R196) -/

variable {cells : List (CellRef × Val)} {ref : CellRef} {t r : Nat}

/-- A cell under no listed key reads as before. -/
theorem cellAfter_of_not_listed (h : ∀ y ∈ cells, y.1 ≠ ref) (old : Cell) : cellAfter cells ref old = old := by
  induction cells with
  | nil => rfl
  | cons y ys ih =>
    obtain ⟨hy, hys⟩ := List.forall_mem_cons.1 h
    rw [cellAfter, if_neg hy.symm, ih hys]

/-- A cell of the witness columns at the two rows of a gadget at `t`. -/
def IsWitnessRef (t : Nat) (ref : CellRef) : Prop :=
  ref.col ≠ .ld ∧ ref.col ≠ .ls ∧ (ref.row = t ∨ ref.row = t + 1)

/-- A cell of the lookup columns at the four rows of a gadget at `t`. -/
def IsLookupRef (t : Nat) (ref : CellRef) : Prop :=
  (ref.col = .ld ∨ ref.col = .ls) ∧ t ≤ ref.row ∧ ref.row ≤ t + 3

theorem isLookupRef_of_mem_certifiedCells4 {v x : Candidates} : ∀ y ∈ certifiedCells4 t v x, IsLookupRef t y.1 := by
  simp [certifiedCells4, certifiedCells, IsLookupRef]

theorem mem_lookupBits4 {col : BitCol} : (col, r) ∈ lookupBits4 t ↔ col = .lq ∧ t ≤ r ∧ r ≤ t + 3 := by
  simp only [lookupBits4, List.mem_cons, Prod.mk.injEq, List.not_mem_nil, or_false]
  constructor
  · rintro (⟨h, rfl⟩ | ⟨h, rfl⟩ | ⟨h, rfl⟩ | ⟨h, rfl⟩) <;> exact ⟨h, by omega, by omega⟩
  · rintro ⟨h, hlo, hhi⟩
    simp only [h, true_and]; omega

/-- R143: row `t + k` takes candidate `k` and its image. -/
theorem cellAfter_certifiedCells4 {v x : Candidates} {k : Nat} {a : Val} (ha : v.toList[k]? = some a) (old : Cell) :
    cellAfter (certifiedCells4 t v x) { col := .ld, row := t + k } old = .assigned a ∧
      ∃ b, cellAfter (certifiedCells4 t v x) { col := .ls, row := t + k } old = .assigned b := by
  obtain ⟨hk, -⟩ := List.getElem?_eq_some_iff.1 ha
  simp only [Candidates.toList, List.length_cons, List.length_nil] at ha hk
  obtain rfl | rfl | rfl | rfl : k = 0 ∨ k = 1 ∨ k = 2 ∨ k = 3 := by omega
  all_goals
    cases ha
    simp [certifiedCells4, certifiedCells]

/-- A gadget at `t` with the gate flag `flag` completed: from free lookup rows and a clear flag it wrote witness cells, set
its flag, and bound the four candidates of `acc` to `x` in its lookup rows. -/
structure GadgetEffect (s s' : State) (flag : BitCol) (t : Nat) (acc : Val) (x : Candidates)
    (cells : List (CellRef × Val)) : Prop where
  lookupFree : ∀ k < 4, LookupFree s (t + k)
  flagClear : bitRead s flag t = false
  witness : ∀ y ∈ cells, IsWitnessRef t y.1
  cell : ∀ col r, cellRead s' col r =
    cellAfter (cells ++ certifiedCells4 t (split4 acc) x) { col := col, row := r } (cellRead s col r)
  bit : ∀ col r, bitRead s' col r = (((flag, t) :: lookupBits4 t).contains (col, r) || bitRead s col r)

namespace GadgetEffect

variable {s s' : State} {flag : BitCol} {acc : Val} {x : Candidates} (h : GadgetEffect s s' flag t acc x cells)
include h

theorem lookupFree_row (hlo : t ≤ r) (hhi : r ≤ t + 3) : LookupFree s r := by
  have hfree := h.lookupFree (r - t) (by omega)
  rwa [Nat.add_sub_cancel' hlo] at hfree

/-- R196: only witness cells and lookup cells change. -/
theorem isRef_of_changed {col : CellCol} (hne : cellRead s' col r ≠ cellRead s col r) :
    IsWitnessRef t { col := col, row := r } ∨ IsLookupRef t { col := col, row := r } := by
  by_contra hn
  obtain ⟨hwit, hlook⟩ := not_or.1 hn
  refine hne ((h.cell col r).trans (cellAfter_of_not_listed (fun y hy heq => ?_) _))
  rcases List.mem_append.1 hy with hy | hy
  · exact hwit (heq ▸ h.witness y hy)
  · exact hlook (heq ▸ isLookupRef_of_mem_certifiedCells4 y hy)

/-- R196: the bits set are the flag and the four lookup enables, which were all clear. -/
theorem bit_set_iff (col : BitCol) (r : Nat) :
    (bitRead s col r = false ∧ bitRead s' col r = true) ↔
      (col = flag ∧ r = t) ∨ (col = .lq ∧ t ≤ r ∧ r ≤ t + 3) := by
  have hset : ((flag, t) :: lookupBits4 t).contains (col, r) = true ↔
      (col = flag ∧ r = t) ∨ (col = .lq ∧ t ≤ r ∧ r ≤ t + 3) := by
    rw [List.contains_iff_mem, List.mem_cons, mem_lookupBits4, Prod.mk.injEq]
  rw [h.bit, Bool.or_eq_true, hset]
  constructor
  · rintro ⟨hclear, hnew | hold⟩
    · exact hnew
    · exact absurd (hclear.symm.trans hold) Bool.false_ne_true
  · intro hnew
    refine ⟨?_, .inl hnew⟩
    rcases hnew with ⟨rfl, rfl⟩ | ⟨rfl, hlo, hhi⟩
    · exact h.flagClear
    · obtain ⟨-, -, hclear⟩ := h.lookupFree_row hlo hhi
      exact hclear

/-- A lookup cell reads as the certifications leave it. -/
theorem cellRead_lookup {col : CellCol} (hcol : col = .ld ∨ col = .ls) (r : Nat) : cellRead s' col r =
    cellAfter (certifiedCells4 t (split4 acc) x) { col := col, row := r } (cellRead s col r) := by
  rw [h.cell, cellAfter_append]
  refine cellAfter_of_not_listed (fun y hy heq => ?_) _
  obtain ⟨hld, hls, -⟩ := h.witness y hy
  rw [heq] at hld hls
  exact hcol.elim hld hls

/-- R196: row `t + k` holds candidate `k` and an image. -/
theorem lookup_row {k : Nat} {a : Val} (ha : (split4 acc).toList[k]? = some a) :
    cellRead s' .ld (t + k) = .assigned a ∧ ∃ b, cellRead s' .ls (t + k) = .assigned b := by
  rw [h.cellRead_lookup (.inl rfl), h.cellRead_lookup (.inr rfl)]
  exact ⟨(cellAfter_certifiedCells4 ha _).1, (cellAfter_certifiedCells4 ha _).2⟩

theorem lookup_row_written (hlo : t ≤ r) (hhi : r ≤ t + 3) : cellRead s' .ls r ≠ .unassigned := by
  have hk : r - t < (split4 acc).toList.length := show r - t < 4 by omega
  obtain ⟨-, b, hb⟩ := h.lookup_row (List.getElem?_eq_getElem hk)
  rw [Nat.add_sub_cancel' hlo] at hb
  simp [hb]

end GadgetEffect

/-- R196: a gadget call that completes has the effect of a gadget, with its own accumulator. -/
theorem gadgetEffect_of_next {s s' : State} {i : Instr} {flag : BitCol}
    (hi : (∃ b c d, i = .f1 t b c d) ∧ flag = .sf1 ∨ (∃ x y, i = .ch t x y) ∧ flag = .sch ∨
      (∃ x z, i = .chneg t x z) ∧ flag = .scn)
    (hnext : exec i s = .next s') (hok : NoAbort s') :
    ∃ acc x cells, GadgetAccumulator s i acc ∧ GadgetEffect s s' flag t acc x cells := by
  obtain ⟨hs, hr, hdone⟩ := completed_of_next hnext hok
  rcases hi with ⟨⟨b, c, d, rfl⟩, rfl⟩ | ⟨⟨x, y, rfl⟩, rfl⟩ | ⟨⟨x, z, rfl⟩, rfl⟩
  · obtain ⟨⟨⟨-, hfree⟩, -, -, -, hflag⟩, hb, hc, hd, -⟩ := hr
    obtain ⟨bLo, bHi, cLo, cHi, dLo, dHi, x, rb, rc, rd, -, rfl⟩ := hdone
    have he := f1_effect t b c d bLo bHi cLo cHi dLo dHi (split4 (f1Sum bLo bHi cLo cHi dLo dHi)) x hs
    exact ⟨_, x, _, ⟨_, _, _, _, _, _, spreadHalves_of_operandResolves hb rb, spreadHalves_of_operandResolves hc rc,
      spreadHalves_of_operandResolves hd rd, rfl⟩, hfree, hflag, by simp [copiedCells, IsWitnessRef], he.cell, he.bit⟩
  · obtain ⟨⟨⟨-, hfree⟩, -, -, hflag⟩, hx, hy, -⟩ := hr
    obtain ⟨xLo, xHi, yLo, yHi, i, rx, ry, -, rfl⟩ := hdone
    have he := ch_effect t x y xLo xHi yLo yHi (split4 (pairSum xLo xHi yLo yHi)) i hs
    exact ⟨_, i, _, ⟨_, _, _, _, spreadHalves_of_operandResolves hx rx, spreadHalves_of_operandResolves hy ry, rfl⟩,
      hfree, hflag, by simp [copiedCells, IsWitnessRef], he.cell, he.bit⟩
  · obtain ⟨⟨⟨-, hfree⟩, -, -, -, hflag⟩, hx, hz, -⟩ := hr
    obtain ⟨xLo, xHi, zLo, zHi, i, rx, rz, -, rfl⟩ := hdone
    have he := chneg_effect t x z xLo xHi zLo zHi
      (split4 (pairSum (xLo.vmap negSpread) (xHi.vmap negSpread) zLo zHi)) i hs
    exact ⟨_, i, _, ⟨_, _, _, _, spreadHalves_of_operandResolves hx rx, spreadHalves_of_operandResolves hz rz, rfl⟩,
      hfree, hflag, by simp [copiedCells, IsWitnessRef], he.cell, he.bit⟩

end

/-- Settles O29: the effect of a gadget (`GadgetEffect`), which each of the three has, read clause by clause. -/
theorem gadgetCallsHaveOneShape : Obligations.GadgetCallsHaveOneShape := by
  intro i flag t s s' hi hnext hok
  obtain ⟨acc, x, cells, hacc, he⟩ := gadgetEffect_of_next hi hnext hok
  refine ⟨fun col r hne => ?_, he.bit_set_iff,
    fun r hlo hhi => ⟨he.lookupFree_row hlo hhi, he.lookup_row_written hlo hhi⟩,
    acc, hacc, fun k _ v hv => (he.lookup_row hv).1⟩
  exact (he.isRef_of_changed hne).imp_left fun ⟨hld, hls, hrow⟩ => ⟨hld, hls, hrow⟩

end Sys2Proof.Machine

/-! ## Exceptions: O15, O16, O17 (spec/60_exceptions.md) -/

namespace Sys2Proof.Machine

section

variable {s s' : State} {i : Instr} {e : Raise}

/-- R228: an aborted run gives no command a step. -/
theorem exec_aborted (i : Instr) (hs : s.status.state = .aborted) : exec i s = .fault .abortedRun := by
  cases i <;> exact runCommand_aborted hs

/-- R227: a command that ends aborted raised an exception: a completed one keeps the status. -/
theorem raises_of_next_aborted (hnext : exec i s = .next s') (haborted : s'.status.state = .aborted) :
    Requires i s ∧ ∃ e, Raises i s e ∧ s' = abortRun e s := by
  obtain ⟨hs, hr, hdone | hraise⟩ := (exec_next_iff i).1 hnext
  · obtain ⟨cells, -, heffect⟩ := completed_effect hs hdone
    rw [heffect.status, show s.status.state = .ok from hs] at haborted
    cases haborted
  · exact ⟨hr, hraise⟩

/-! ### The two sources of an exception: a copy and a certification -/

/-- R222: the projections a command's copies read, in order, each with the row it is copied to. -/
def copyReads : Instr → List (CellRef × Nat)
  | .certify _ _ => []
  | .copy h sel _ t => [({ col := sel.col, row := h }, t)]
  | .cert4 _ _ _ _ _ => []
  | .f1 t b c d => operandReads b t ++ operandReads c t ++ operandReads d t
  | .ch t x y => operandReads x t ++ operandReads y t
  | .chneg t x z => operandReads x t ++ operandReads z t

theorem map_fst_copyReads (i : Instr) : (copyReads i).map Prod.fst = projections i := by
  cases i <;> rfl

theorem raises_of_readRaises (h : ReadRaises s (copyReads i) e) : Raises i s e := by
  cases i with
  | certify t v => exact absurd h (readRaises_nil s e)
  | copy k sel w t => exact h
  | cert4 t a b c d => exact absurd h (readRaises_nil s e)
  | f1 t b c d => exact .inl h
  | ch t x y => exact .inl h
  | chneg t x z => exact .inl h

/-- R222 to R224: an exception is raised by a copy, or by a certification within the region. -/
theorem readRaises_or_certRaises (hr : Requires i s) (h : Raises i s e) :
    ReadRaises s (copyReads i) e ∨ ∃ vs t, t + vs.length ≤ s.nRows ∧ CertRaises s.table vs t e := by
  cases i with
  | certify t v => exact .inr ⟨_, _, hr.1, h⟩
  | copy k sel w t => exact .inl h
  | cert4 t a b c d => exact .inr ⟨_, _, hr.1, h⟩
  | f1 t b c d =>
    obtain ⟨⟨⟨ht, -⟩, -⟩, -⟩ := hr
    exact h.imp_right fun ⟨_, _, _, _, _, _, _, _, _, hcert⟩ => ⟨_, _, ht, hcert⟩
  | ch t x y =>
    obtain ⟨⟨⟨ht, -⟩, -⟩, -⟩ := hr
    exact h.imp_right fun ⟨_, _, _, _, _, _, hcert⟩ => ⟨_, _, ht, hcert⟩
  | chneg t x z =>
    obtain ⟨⟨⟨ht, -⟩, -⟩, -⟩ := hr
    exact h.imp_right fun ⟨_, _, _, _, _, _, hcert⟩ => ⟨_, _, ht, hcert⟩

/-! ### What each source records -/

theorem readRaises_cause {ps : List (CellRef × Nat)} (h : ReadRaises s ps e) : e.cause = 1 := by
  obtain ⟨-, k, p, -, -, -, rfl⟩ := h
  rfl

theorem certRaises_cause {tb : List (Nat × Option Nat)} {vs : List Val} {t : Nat} (h : CertRaises tb vs t e) :
    e.cause = 2 := by
  obtain ⟨k, ⟨-, rfl⟩ | ⟨-, rfl⟩⟩ := h <;> rfl

/-- R221: the sub-cause of cause 1 is 0. -/
theorem cause_subcause (e : Raise) : (e.cause = 1 ∧ e.subcause = 0) ∨ e.cause = 2 := by
  cases e with
  | missingPriorAssignment row => exact .inl ⟨rfl, rfl⟩
  | candidateWidth row => exact .inr rfl
  | candidateNoRow row => exact .inr rfl

/-- R222: a copy records its destination row. -/
theorem readRaises_row {ps : List (CellRef × Nat)} (h : ReadRaises s ps e) : ∃ p ∈ ps, e.row = p.2 := by
  obtain ⟨-, k, p, hp, -, -, rfl⟩ := h
  exact ⟨p, List.mem_of_getElem? hp, rfl⟩

/-- R223, R224: a certification records the row of its candidate. -/
theorem certRaises_row_lt {tb : List (Nat × Option Nat)} {vs : List Val} {t : Nat} (h : CertRaises tb vs t e) :
    e.row < t + vs.length := by
  obtain ⟨k, ⟨⟨⟨c, hc, -⟩, -⟩, rfl⟩ | ⟨⟨⟨c, hc, -⟩, -⟩, rfl⟩⟩ := h <;>
    exact Nat.add_lt_add_left (List.getElem?_eq_some_iff.1 hc).1 t

theorem operandReads_row_lt {n t : Nat} (x : Operand) (ht : t + 3 < n) : ∀ p ∈ operandReads x t, p.2 < n := by
  simp only [operandReads, List.forall_mem_cons]
  exact ⟨by omega, by omega, List.forall_mem_nil _⟩

/-- The copies of a command whose preconditions hold write within the region. -/
theorem copyReads_row_lt (hr : Requires i s) : ∀ p ∈ copyReads i, p.2 < s.nRows := by
  cases i with
  | certify t v => simp [copyReads]
  | copy k sel w t => simpa [copyReads] using hr.1
  | cert4 t a b c d => simp [copyReads]
  | f1 t b c d =>
    obtain ⟨⟨⟨ht, -⟩, -⟩, -⟩ := hr
    exact List.forall_mem_append.2
      ⟨List.forall_mem_append.2 ⟨operandReads_row_lt b ht, operandReads_row_lt c ht⟩, operandReads_row_lt d ht⟩
  | ch t x y =>
    obtain ⟨⟨⟨ht, -⟩, -⟩, -⟩ := hr
    exact List.forall_mem_append.2 ⟨operandReads_row_lt x ht, operandReads_row_lt y ht⟩
  | chneg t x z =>
    obtain ⟨⟨⟨ht, -⟩, -⟩, -⟩ := hr
    exact List.forall_mem_append.2 ⟨operandReads_row_lt x ht, operandReads_row_lt z ht⟩

/-- R221: the row an exception records is in the region. -/
theorem raises_row_lt (hr : Requires i s) (h : Raises i s e) : e.row < s.nRows := by
  rcases readRaises_or_certRaises hr h with hread | ⟨vs, t, hrows, hcert⟩
  · obtain ⟨p, hp, hrow⟩ := readRaises_row hread
    exact hrow ▸ copyReads_row_lt hr p hp
  · exact Nat.lt_of_lt_of_le (certRaises_row_lt hcert) hrows

/-- R222: copies raise exactly when, in the witness phase, one of them reads an `Unresolved` projection. -/
theorem exists_readRaises_iff (ps : List (CellRef × Nat)) :
    (∃ e, ReadRaises s ps e) ↔
      s.phase = .witness ∧ ∃ p ∈ ps.map Prod.fst, cellRead s p.col p.row = .assigned .unresolved := by
  induction ps with
  | nil => simp [readRaises_nil]
  | cons p ps ih =>
    simp only [readRaises_cons, exists_or, exists_and_left, exists_eq, and_true, ih, List.map_cons, List.exists_mem_cons_iff]
    tauto

end

/-- Settles O15: a command faults, so a step that answers a next state waited or took a reset. -/
theorem onlyResetLeavesAnAbortedRun : Obligations.OnlyResetLeavesAnAbortedRun := by
  refine ⟨fun i s hs => exec_aborted i hs, fun s s' hs hstep => ?_⟩
  rcases step_next_cases hstep with ⟨hidle, rfl⟩ | ⟨p, rest, hreset, -⟩ | ⟨w, rest, i, -, -, hexec⟩
  · exact .inl ⟨rfl, hidle⟩
  · exact .inr ⟨p, rest, hreset⟩
  · rw [exec_aborted i (s := withHost rest s) hs] at hexec
    cases hexec

/-- Settles O16: the command raised, so its next state is `abortRun` of an exception whose row is in the region. -/
theorem raisingWritesStatusAndResponse : Obligations.RaisingWritesStatusAndResponse := by
  intro i s s' _ hnext haborted
  obtain ⟨hr, e, hraise, rfl⟩ := raises_of_next_aborted hnext haborted
  exact ⟨e.cause, e.subcause, e.row, abortRun_aborts e s, raises_row_lt hr hraise, cause_subcause e⟩

/-- Settles O17: an exception of cause 1 comes from a copy and not from a certification, and the copies raise exactly on an
`Unresolved` projection in the witness phase. -/
theorem missingAssignmentRaisedExactlyInWitnessPhase : Obligations.MissingAssignmentRaisedExactlyInWitnessPhase := by
  intro i s hs hr
  rw [← map_fst_copyReads, ← exists_readRaises_iff]
  constructor
  · rintro ⟨s', hnext, haborted, hcause⟩
    obtain ⟨-, e, hraise, rfl⟩ := raises_of_next_aborted hnext haborted
    rcases readRaises_or_certRaises hr hraise with hread | ⟨vs, t, -, hcert⟩
    · exact ⟨e, hread⟩
    · exact absurd ((certRaises_cause hcert).symm.trans hcause) (by decide)
  · rintro ⟨e, hread⟩
    obtain ⟨s', hnext, habort⟩ := exec_aborts_of_raises hs hr (raises_of_readRaises hread)
    exact ⟨s', hnext, by rw [habort.status], by rw [habort.status]; exact readRaises_cause hread⟩

end Sys2Proof.Machine

/-! ## Reset: O7 (spec/70_reset_and_hazards.md) -/

namespace Sys2Proof.Machine

/-- R36: at launch every cell is `Unassigned`. -/
@[simp] theorem cellRead_launch (n : Nat) (tb : List (Nat × Option Nat)) (p : Phase) (c : CellCol) (r : Nat) :
    cellRead (State.launch n tb p) c r = .unassigned := RegionRow.cell_blank c

/-- R36: at launch every enable and flag bit is 0. -/
@[simp] theorem bitRead_launch (n : Nat) (tb : List (Nat × Option Nat)) (p : Phase) (b : BitCol) (r : Nat) :
    bitRead (State.launch n tb p) b r = false := RegionRow.bit_blank b

/-- R231, R250: a reset move is taken in any state, aborted or not. -/
theorem step_of_reset {s : State} {p : Phase} {rest : List HostMove} (hh : s.host = .reset p :: rest) :
    step s = .next (applyReset p (withHost rest s)) := by
  simp [step, takeMove, hh]

/-- Settles O7: the launch state and the state a reset move steps to (`step_of_reset`), read piece by piece. -/
theorem resetPutsEveryPieceAtItsValue : Obligations.ResetPutsEveryPieceAtItsValue := by
  refine ⟨fun n tb p => ⟨cellRead_launch n tb p, bitRead_launch n tb p, rfl, rfl, rfl, rfl⟩, fun s p rest hh => ?_⟩
  exact ⟨applyReset p (withHost rest s), step_of_reset hh, cellRead_applyReset _ p, bitRead_applyReset _ p,
    applyReset_eqList _ p, applyReset_status _ p, applyReset_phase _ p, applyReset_table _ p, applyReset_nRows _ p⟩

end Sys2Proof.Machine

/-! ## The command word and its decoder: O1, O2, O4 (spec/30_encoding.md) -/

namespace Sys2Proof

open Machine (slice)

section

variable {rw op t h0 h1 h2 h3 h4 h5 : Nat} {v0 v1 v2 v3 : Val} {sel col : Nat}

/-- R76: the three operands of a packed word, each from two neighbouring handle fields. -/
theorem fieldOperand_pack (h : CommandFits rw op t h0 h1 h2 h3 h4 h5 v0 v1 v2 v3 sel col) :
    fieldOperand rw 0 (packCommand rw op t h0 h1 h2 h3 h4 h5 v0 v1 v2 v3 sel col) = ⟨h0, h1⟩ ∧
    fieldOperand rw 2 (packCommand rw op t h0 h1 h2 h3 h4 h5 v0 v1 v2 v3 sel col) = ⟨h2, h3⟩ ∧
    fieldOperand rw 4 (packCommand rw op t h0 h1 h2 h3 h4 h5 v0 v1 v2 v3 sel col) = ⟨h4, h5⟩ := by
  have hfield : ∀ k < 6, ∀ x, [h0, h1, h2, h3, h4, h5][k]? = some x →
      fieldH rw k (packCommand rw op t h0 h1 h2 h3 h4 h5 v0 v1 v2 v3 sel col) = x :=
    fun k hk x hx => Option.some.inj ((fieldH_pack h k hk).trans hx)
  refine ⟨?_, ?_, ?_⟩
  · rw [fieldOperand, hfield 0 (by decide) h0 rfl, hfield 1 (by decide) h1 rfl]
  · rw [fieldOperand, hfield 2 (by decide) h2 rfl, hfield 3 (by decide) h3 rfl]
  · rw [fieldOperand, hfield 4 (by decide) h4 rfl, hfield 5 (by decide) h5 rfl]

/-- R74: the projection is read back from its code. -/
theorem proj_of_code (sel : Proj) : (if sel.code = 0 then Proj.dense else Proj.spread) = sel := by cases sel <;> rfl

/-- R71: a candidate field of a packed word holds its candidate. -/
theorem fieldV_pack_eq (h : CommandFits rw op t h0 h1 h2 h3 h4 h5 v0 v1 v2 v3 sel col) {k : Nat} {v : Val}
    (hv : [v0, v1, v2, v3][k]? = some v) :
    fieldV rw k (packCommand rw op t h0 h1 h2 h3 h4 h5 v0 v1 v2 v3 sel col) = v :=
  Option.some.inj ((fieldV_pack h k (List.getElem?_eq_some_iff.1 hv).1).trans hv)

end

/-- Settles O1: the word of each command stays within the port and carries the command's operation code, whose decoder
equation reads back exactly the fields the encoder packed. -/
theorem decodeInvertsEncode : Obligations.DecodeInvertsEncode := by
  intro rw i h
  cases i with
  | certify t v =>
    have hf := Laws.EncodingFits.certify_fits h
    rw [encode, decode_certify (packCommand_lt hf) (fieldOp_pack hf), fieldT_pack hf, fieldV_pack_eq hf rfl]
  | copy k sel w t =>
    have hf := Laws.EncodingFits.copy_fits h
    have hsource : fieldH rw 0 _ = k := Option.some.inj (fieldH_pack hf 0 (by decide))
    rw [encode, decode_copy (packCommand_lt hf) (fieldOp_pack hf), fieldCol_pack w hf, hsource, fieldSel_pack hf,
      proj_of_code, fieldT_pack hf, Option.elim_some]
  | cert4 t a b c d =>
    have hf := Laws.EncodingFits.cert4_fits h
    rw [encode, decode_cert4 (packCommand_lt hf) (fieldOp_pack hf), fieldT_pack hf, fieldV_pack_eq hf (k := 0) rfl,
      fieldV_pack_eq hf (k := 1) rfl, fieldV_pack_eq hf (k := 2) rfl, fieldV_pack_eq hf (k := 3) rfl]
  | f1 t b c d =>
    have hf := Laws.EncodingFits.f1_fits h
    obtain ⟨hb, hc, hd⟩ := fieldOperand_pack hf
    rw [encode, decode_f1 (packCommand_lt hf) (fieldOp_pack hf), fieldT_pack hf, hb, hc, hd]
  | ch t x y =>
    have hf := Laws.EncodingFits.ch_fits h
    obtain ⟨hx, hy, -⟩ := fieldOperand_pack hf
    rw [encode, decode_ch (packCommand_lt hf) (fieldOp_pack hf), fieldT_pack hf, hx, hy]
  | chneg t x z =>
    have hf := Laws.EncodingFits.chneg_fits h
    obtain ⟨hx, hz, -⟩ := fieldOperand_pack hf
    rw [encode, decode_chneg (packCommand_lt hf) (fieldOp_pack hf), fieldT_pack hf, hx, hz]

section

variable (rw w : Nat)

/-! ### Every field of a word fits its width -/

theorem slice_lt (lo width : Nat) : slice w lo width < 2 ^ width := Nat.mod_lt _ (Nat.two_pow_pos width)

theorem rowFits_fieldT : rowFits rw (fieldT rw w) = true := (rowFits_iff ..).2 (slice_lt w 3 rw)

theorem rowFits_fieldH (k : Nat) : rowFits rw (fieldH rw k w) = true := (rowFits_iff ..).2 (slice_lt w _ rw)

theorem fits_fieldOperand (k : Nat) : (fieldOperand rw k w).fits rw = true :=
  (Operand.fits_iff ..).2 ⟨slice_lt w _ rw, slice_lt w _ rw⟩

theorem fits_fieldV (k : Nat) : (fieldV rw k w).fits = true := by
  unfold fieldV
  split
  · rfl
  · exact decide_eq_true (slice_lt w _ 32)

end

/-- Settles O2: by the operation code, which has 3 bits; each decoder equation fills a command with fields, and a field
fits its width. -/
theorem decodedCommandsAreWellFormed : Obligations.DecodedCommandsAreWellFormed := by
  intro rw w i h
  by_cases hw : w < 2 ^ cmdWidth rw
  · have hop : fieldOp w < 8 := slice_lt w 0 3
    have hcode : (fieldOp w = 0 ∨ fieldOp w = 7) ∨ fieldOp w = 1 ∨ fieldOp w = 2 ∨ fieldOp w = 3 ∨ fieldOp w = 4 ∨
        fieldOp w = 5 ∨ fieldOp w = 6 := by omega
    rcases hcode with hop | hop | hop | hop | hop | hop | hop
    · rw [decode_reservedOpcode hw hop] at h
      cases h
    · rw [decode_certify hw hop] at h
      cases h
      simp [Instr.wellFormed, rowFits_fieldT, fits_fieldV]
    · rw [decode_copy hw hop] at h
      cases hcol : fieldCol rw w with
      | none => rw [hcol] at h; cases h
      | some c =>
        rw [hcol] at h
        cases h
        simp [Instr.wellFormed, rowFits_fieldT, rowFits_fieldH]
    · rw [decode_cert4 hw hop] at h
      cases h
      simp [Instr.wellFormed, rowFits_fieldT, fits_fieldV]
    · rw [decode_f1 hw hop] at h
      cases h
      simp [Instr.wellFormed, rowFits_fieldT, fits_fieldOperand]
    · rw [decode_ch hw hop] at h
      cases h
      simp [Instr.wellFormed, rowFits_fieldT, fits_fieldOperand]
    · rw [decode_chneg hw hop] at h
      cases h
      simp [Instr.wellFormed, rowFits_fieldT, fits_fieldOperand]
  · simp [decode, not_lt.1 hw] at h

/-- Settles O4: the decoder runs on the six words. -/
theorem specProgramWordsDecode : Obligations.SpecProgramWordsDecode := by
  unfold Obligations.SpecProgramWordsDecode
  decide

namespace Machine

/-! ## The step and the row width: O5, O6 (spec/00_scope.md R8, R10) -/

/-- Settles O5: the two branches of `takeMove` a step meets here. -/
theorem stepRunsTheDecodedCommand : Obligations.StepRunsTheDecodedCommand := by
  refine ⟨fun s w rest i hh hd => ?_, fun s hh => ?_⟩
  · simp [step, takeMove, hh, hd, withHost]
  · simp [step, takeMove, hh]

/-- With `fuel` steps in hand the search from `k` passes no exponent that is enough and stops at one. -/
theorem leastPow_spec (n : Nat) : ∀ fuel k : Nat, n ≤ 2 ^ (k + fuel) →
    n ≤ 2 ^ leastPow n fuel k ∧ ∀ j, k ≤ j → n ≤ 2 ^ j → leastPow n fuel k ≤ j := by
  intro fuel
  induction fuel with
  | zero => exact fun k hn => ⟨hn, fun j hkj _ => hkj⟩
  | succ fuel ih =>
    intro k hn
    rw [leastPow]
    split
    case isTrue hk => exact ⟨hk, fun j hkj _ => hkj⟩
    case isFalse hk =>
      obtain ⟨henough, hleast⟩ := ih (k + 1) (by rwa [Nat.succ_add_eq_add_succ])
      refine ⟨henough, fun j hkj hj => hleast j (Nat.lt_of_le_of_ne hkj ?_) hj⟩
      rintro rfl
      exact hk hj

/-- Settles O6: `n` steps from 0 are enough, since `n ≤ 2 ^ n`. -/
theorem rowWidthIsCeilingOfLogTwo : Obligations.RowWidthIsCeilingOfLogTwo := by
  intro n
  obtain ⟨henough, hleast⟩ := leastPow_spec n n 0 (by rw [Nat.zero_add]; exact Nat.lt_two_pow_self.le)
  exact ⟨henough, fun k => hleast k k.zero_le⟩

end Machine

end Sys2Proof

/-! ## What a completed command changes: O12, O13 (spec/20_memory.md R53, R54, R63; spec/41_lookup_enforcer.md R133) -/

namespace Sys2Proof.Machine

section

variable {s s' : State} {i : Instr} {t : Nat}

/-! ### The layout a command finds free -/

theorem lookupRefs4_free (h : ∀ k < 4, LookupFree s (t + k)) :
    ∀ ref ∈ lookupRefs4 t, cellRead s ref.col ref.row = .unassigned := by
  obtain ⟨⟨d0, l0, -⟩, ⟨d1, l1, -⟩, ⟨d2, l2, -⟩, d3, l3, -⟩ := (lookupFree_four s t).1 h
  simpa [lookupRefs4] using ⟨d0, l0, d1, l1, d2, l2, d3, l3⟩

theorem lookupBits4_free (h : ∀ k < 4, LookupFree s (t + k)) :
    ∀ b ∈ lookupBits4 t, bitRead s b.1 b.2 = false := by
  obtain ⟨⟨-, -, q0⟩, ⟨-, -, q1⟩, ⟨-, -, q2⟩, -, -, q3⟩ := (lookupFree_four s t).1 h
  simpa [lookupBits4] using ⟨q0, q1, q2, q3⟩

theorem pairRefs_free {col : CellCol} (h : WitnessFree s col t) :
    ∀ ref ∈ pairRefs col t, cellRead s ref.col ref.row = .unassigned := by
  simpa [pairRefs] using h

/-- R53: a command assigns only cells its preconditions find `Unassigned`. -/
theorem cellsOf_free (hr : Requires i s) : ∀ ref ∈ cellsOf i, cellRead s ref.col ref.row = .unassigned := by
  cases i with
  | certify t v =>
    obtain ⟨-, hd, hl, -⟩ := hr
    simpa [cellsOf] using ⟨hd, hl⟩
  | copy k sel w t =>
    obtain ⟨-, hfree, -⟩ := hr
    simpa [cellsOf] using hfree
  | cert4 t a b c d => exact lookupRefs4_free hr.2
  | f1 t b c d =>
    obtain ⟨⟨⟨-, hlook⟩, h0, h1, h2, -⟩, -⟩ := hr
    simp only [cellsOf, List.forall_mem_append]
    exact ⟨⟨⟨pairRefs_free h0, pairRefs_free h1⟩, pairRefs_free h2⟩, lookupRefs4_free hlook⟩
  | ch t x y =>
    obtain ⟨⟨⟨-, hlook⟩, h0, h1, -⟩, -⟩ := hr
    simp only [cellsOf, List.forall_mem_append]
    exact ⟨⟨pairRefs_free h0, pairRefs_free h1⟩, lookupRefs4_free hlook⟩
  | chneg t x z =>
    obtain ⟨⟨⟨-, hlook⟩, h0, h1, h2, -⟩, -⟩ := hr
    simp only [cellsOf, List.forall_mem_append]
    exact ⟨⟨⟨pairRefs_free h0, pairRefs_free h1⟩, pairRefs_free h2⟩, lookupRefs4_free hlook⟩

/-- R54: a command sets only bits its preconditions find 0. -/
theorem bitsOf_free (hr : Requires i s) : ∀ b ∈ bitsOf i, bitRead s b.1 b.2 = false := by
  cases i with
  | certify t v =>
    obtain ⟨-, -, -, hq⟩ := hr
    simpa [bitsOf] using hq
  | copy k sel w t => simp [bitsOf]
  | cert4 t a b c d => exact lookupBits4_free hr.2
  | f1 t b c d =>
    obtain ⟨⟨⟨-, hlook⟩, -, -, -, hflag⟩, -⟩ := hr
    exact List.forall_mem_cons.2 ⟨hflag, lookupBits4_free hlook⟩
  | ch t x y =>
    obtain ⟨⟨⟨-, hlook⟩, -, -, hflag⟩, -⟩ := hr
    exact List.forall_mem_cons.2 ⟨hflag, lookupBits4_free hlook⟩
  | chneg t x z =>
    obtain ⟨⟨⟨-, hlook⟩, -, -, -, hflag⟩, -⟩ := hr
    exact List.forall_mem_cons.2 ⟨hflag, lookupBits4_free hlook⟩

/-- R133: a command sets the lookup enable of exactly the rows whose lookup cells it assigns. -/
theorem lookupRefs_iff (i : Instr) (r : Nat) :
    (⟨.ld, r⟩ ∈ cellsOf i ↔ (.lq, r) ∈ bitsOf i) ∧ (⟨.ls, r⟩ ∈ cellsOf i ↔ (.lq, r) ∈ bitsOf i) := by
  cases i with
  | copy k sel w t => cases w <;> simp [cellsOf, bitsOf, WCol.col]
  | certify t v => simp [cellsOf, bitsOf]
  | cert4 t a b c d => simp [cellsOf, bitsOf, lookupRefs4, lookupBits4]
  | f1 t b c d => simp [cellsOf, bitsOf, pairRefs, lookupRefs4, lookupBits4]
  | ch t x y => simp [cellsOf, bitsOf, pairRefs, lookupRefs4, lookupBits4]
  | chneg t x z => simp [cellsOf, bitsOf, pairRefs, lookupRefs4, lookupBits4]

/-! ### Reading after a completed command -/

theorem cellAfter_of_listed {cells : List (CellRef × Val)} {ref : CellRef} (h : ref ∈ cells.map Prod.fst) (old : Cell) :
    ∃ v, cellAfter cells ref old = .assigned v := by
  induction cells with
  | nil => cases h
  | cons y ys ih =>
    by_cases hy : ref = y.1
    · exact ⟨y.2, by rw [cellAfter, if_pos hy]⟩
    · rw [cellAfter, if_neg hy]
      exact ih ((List.mem_cons.1 h).resolve_left hy)

theorem completed_cell_of_not_listed (hs : NoAbort s) (hc : Completed i s s') {col : CellCol} {r : Nat}
    (h : ⟨col, r⟩ ∉ cellsOf i) : cellRead s' col r = cellRead s col r := by
  obtain ⟨cells, hcells, he⟩ := completed_effect hs hc
  rw [he.cell]
  refine cellAfter_of_not_listed (fun y hy heq => h ?_) _
  rw [← hcells, ← heq]
  exact List.mem_map_of_mem hy

theorem completed_cell_of_listed (hs : NoAbort s) (hc : Completed i s s') {col : CellCol} {r : Nat}
    (h : ⟨col, r⟩ ∈ cellsOf i) : cellRead s' col r ≠ .unassigned := by
  obtain ⟨cells, hcells, he⟩ := completed_effect hs hc
  rw [← hcells] at h
  obtain ⟨v, hv⟩ := cellAfter_of_listed h (cellRead s col r)
  simp [he.cell, hv]

theorem completed_bit_iff (hs : NoAbort s) (hc : Completed i s s') (b : BitCol) (r : Nat) :
    bitRead s' b r = true ↔ (b, r) ∈ bitsOf i ∨ bitRead s b r = true := by
  obtain ⟨cells, -, he⟩ := completed_effect hs hc
  rw [he.bit, Bool.or_eq_true, List.contains_iff_mem]

/-- R53, R63: an assigned cell keeps its value, since the cells a command assigns were free. -/
theorem completed_keeps_assigned (hs : NoAbort s) (hr : Requires i s) (hc : Completed i s s') (col : CellCol) (r : Nat)
    (v : Val) (hv : cellRead s col r = .assigned v) : cellRead s' col r = .assigned v := by
  rw [completed_cell_of_not_listed hs hc, hv]
  intro hmem
  rw [cellsOf_free hr _ hmem] at hv
  cases hv

end

/-- Settles O12: the cells a command assigns were free; a bit is set or as before; its entries follow the old ones. -/
theorem writtenCellsNeverChange : Obligations.WrittenCellsNeverChange := by
  intro i s s' h hok
  obtain ⟨hs, hr, hc⟩ := completed_of_next h hok
  refine ⟨completed_keeps_assigned hs hr hc, fun b r hb => (completed_bit_iff hs hc b r).2 (.inr hb), ?_⟩
  obtain ⟨cells, -, he⟩ := completed_effect hs hc
  exact ⟨_, he.eqs⟩

/-- Settles O13: an enable goes from 0 to 1 exactly at the rows whose lookup cells the command assigns. -/
theorem lookupCellsAreWrittenByCertificationsOnly : Obligations.LookupCellsAreWrittenByCertificationsOnly := by
  intro i s s' h hok r
  obtain ⟨hs, hr, hc⟩ := completed_of_next h hok
  obtain ⟨hld, hls⟩ := lookupRefs_iff i r
  refine ⟨fun ⟨hclear, hset⟩ => ?_, fun hsame => ?_⟩
  · have hnew : (.lq, r) ∈ bitsOf i :=
      ((completed_bit_iff hs hc .lq r).1 hset).resolve_right (by simp [hclear])
    exact ⟨cellsOf_free hr _ (hld.2 hnew), cellsOf_free hr _ (hls.2 hnew), completed_cell_of_listed hs hc (hld.2 hnew),
      completed_cell_of_listed hs hc (hls.2 hnew)⟩
  · have hold : (.lq, r) ∉ bitsOf i := by
      intro hnew
      have hset := (completed_bit_iff hs hc .lq r).2 (.inl hnew)
      rw [hsame, bitsOf_free hr _ hnew] at hset
      cases hset
    exact ⟨completed_cell_of_not_listed hs hc (mt hld.1 hold), completed_cell_of_not_listed hs hc (mt hls.1 hold)⟩

/-! ## Launch inputs and the machine's invariant: O8, O9, O10, O11 (spec/10_state.md, spec/41_lookup_enforcer.md) -/

/-- Settles O9: waiting keeps the state, reset takes the phase from the host, and no command writes the launch inputs. -/
theorem stepKeepsTheLaunchInputs : Obligations.StepKeepsTheLaunchInputs := by
  intro s s' h
  rcases step_next_cases h with ⟨-, rfl⟩ | ⟨p, rest, hh, rfl⟩ | ⟨w, rest, i, -, -, he⟩
  · exact ⟨rfl, rfl, .inl rfl⟩
  · exact ⟨rfl, rfl, .inr ⟨rest, hh⟩⟩
  · obtain ⟨htable, hrows, hphase, -⟩ := exec_keeps_inputs he
    exact ⟨htable, hrows, .inl hphase⟩

/-- R131: the empty list of differences is the spread relation. -/
theorem tableOk_of_no_differences : TableOk [] := fun _ hd => if_pos hd

/-- Settles O8: a listed row of a canonical table differs from the spread relation, so under `TABLE_OK` none is listed. -/
theorem resetTableIsTheSpreadRelation : Obligations.ResetTableIsTheSpreadRelation := by
  refine ⟨tableOk_of_no_differences, fun tb hwf hok => ?_⟩
  cases tb with
  | nil => rfl
  | cons e m =>
    simp only [tableWf, Bool.and_eq_true, sparseWf_iff, List.all_eq_true, decide_eq_true_eq] at hwf
    obtain ⟨⟨-, hdiffers⟩, hfits⟩ := hwf
    have hkey : e.1 < 2 ^ 16 := (hfits e (List.mem_cons_self ..)).1
    have hread : e.2 = some (spread16 e.1) := by
      have h := hok e.1 hkey
      rwa [tableRead, sparseGet_cons, if_pos rfl] at h
    exact absurd (hread.trans (if_pos hkey).symm) (hdiffers e (List.mem_cons_self ..))

section

variable {s s1 s' : State} {i : Instr} {t r : Nat} {v x : Val}

/-! ### Certified rows (R33) -/

/-- A row that holds a candidate with its table image is certified. -/
theorem certifiedRow_of_image (hi : TableImage s.table v x) (hd : cellRead s .ld r = .assigned v)
    (hl : cellRead s .ls r = .assigned x) : certifiedRow s r = true := by
  cases v with
  | unresolved => obtain rfl := hi; simp [certifiedRow, hd, hl]
  | known c =>
    obtain ⟨hc, n, hn, rfl⟩ := hi
    simpa [certifiedRow, hd, hl, inTable, hn] using hc

/-- A state with the table, enables and lookup cells of another has its certified rows. -/
theorem CertifiedRows.of_same_lookup (h : CertifiedRows s) (htable : s1.table = s.table)
    (hcell : ∀ c r, c = CellCol.ld ∨ c = CellCol.ls → cellRead s1 c r = cellRead s c r)
    (hbit : ∀ r, bitRead s1 .lq r = bitRead s .lq r) : CertifiedRows s1 := by
  intro r hr
  rw [hbit] at hr
  simpa only [certifiedRow, htable, hcell .ld r (.inl rfl), hcell .ls r (.inr rfl)] using h r hr

/-- R134: a certification certifies its row and leaves the others. -/
theorem CertifiedRows.bindRow (h : CertifiedRows s) (hi : TableImage s.table v x) :
    CertifiedRows (bindRow t v x s) := by
  intro r hr
  by_cases hrt : r = t
  · exact certifiedRow_of_image hi (by simp [hrt]) (by simp [hrt])
  · have hold : bitRead s .lq r = true := by simpa [hrt] using hr
    simpa [certifiedRow, hrt] using h r hold

theorem CertifiedRows.bound4 {c xs : Candidates} (h : CertifiedRows s1) (htable : s1.table = s.table)
    (hi : TableImages s.table c xs) : CertifiedRows (bound4 t c xs s1) := by
  rw [← htable] at hi
  obtain ⟨i0, i1, i2, i3⟩ := hi
  have h1 := h.bindRow (t := t) i0
  have h2 := h1.bindRow (t := t + 1) (v := c.v0Odd) (x := xs.v0Odd) (by rwa [bindRow_table])
  have h3 := h2.bindRow (t := t + 2) (v := c.v1Even) (x := xs.v1Even) (by rwa [bindRow_table, bindRow_table])
  exact h3.bindRow (t := t + 3) (by rwa [bindRow_table, bindRow_table, bindRow_table])

theorem CertifiedRows.respond {hs : Handles} (h : CertifiedRows s) : CertifiedRows (respond hs s) :=
  h.of_same_lookup rfl (fun _ _ _ => rfl) fun _ => rfl

theorem CertifiedRows.copied {k : Nat} {sel : Proj} {w : WCol} (h : CertifiedRows s) :
    CertifiedRows (copied k sel w t v s) := by
  refine h.of_same_lookup rfl (fun c r hc => ?_) (by simp)
  have hne : c ≠ w.col := by rcases hc with rfl | rfl <;> cases w <;> decide
  simp [hne]

theorem CertifiedRows.copiedOperand {a : Operand} {w : WCol} {lo hi : Val} (h : CertifiedRows s) :
    CertifiedRows (copiedOperand a w t lo hi s) := h.copied.copied

theorem CertifiedRows.bitSet {b : BitCol} (h : CertifiedRows s) (hb : b ≠ .lq) : CertifiedRows (bitSet b t s) :=
  h.of_same_lookup rfl (by simp) (by simp [hb.symm])

theorem CertifiedRows.cellWrite {w : WCol} (h : CertifiedRows s) : CertifiedRows (cellWrite w.col t v s) := by
  refine h.of_same_lookup rfl (fun c r hc => ?_) (by simp)
  have hne : c ≠ w.col := by rcases hc with rfl | rfl <;> cases w <;> decide
  simp [hne]

theorem CertifiedRows.f1Wired {b c d : Operand} {bLo bHi cLo cHi dLo dHi : Val} (h : CertifiedRows s) :
    CertifiedRows (f1Wired t b c d bLo bHi cLo cHi dLo dHi s) :=
  h.copiedOperand.copiedOperand.copiedOperand.bitSet (by decide)

theorem CertifiedRows.chWired {a b : Operand} {aLo aHi bLo bHi : Val} (h : CertifiedRows s) :
    CertifiedRows (chWired t a b aLo aHi bLo bHi s) :=
  h.copiedOperand.copiedOperand.bitSet (by decide)

theorem CertifiedRows.chnegWired {a b : Operand} {aLo aHi bLo bHi : Val} (h : CertifiedRows s) :
    CertifiedRows (chnegWired t a b aLo aHi bLo bHi s) :=
  (h.copiedOperand.copiedOperand.cellWrite (w := .w2)).cellWrite (w := .w2) |>.bitSet (by decide)

/-- R33: a completed command keeps the certified rows: what it wires touches no lookup cell, and what it certifies are
candidates with their images. -/
theorem completed_certifiedRows (h : CertifiedRows s) (hc : Completed i s s') : CertifiedRows s' := by
  cases i with
  | certify t v => obtain ⟨x, hi, rfl⟩ := hc; exact (h.bindRow hi).respond
  | copy k sel w t => obtain ⟨v, -, -, rfl⟩ := hc; exact h.copied.respond
  | cert4 t a b c d => obtain ⟨x, hi, rfl⟩ := hc; exact (h.bound4 rfl hi).respond
  | f1 t b c d =>
    obtain ⟨_, _, _, _, _, _, x, -, -, -, hi, rfl⟩ := hc
    exact .respond (.bound4 h.f1Wired (by simp [f1Wired]) hi)
  | ch t x y =>
    obtain ⟨_, _, _, _, i, -, -, hi, rfl⟩ := hc
    exact .respond (.bound4 h.chWired (by simp [chWired]) hi)
  | chneg t x z =>
    obtain ⟨_, _, _, _, i, -, -, hi, rfl⟩ := hc
    exact .respond (.bound4 h.chnegWired (by simp [chnegWired]) hi)

/-! ### Wired copies (R139) -/

/-- The entries of a copied operand are wired when its destination cells hold what its source cells hold. -/
theorem eqWired_copiedEntries {a : Operand} {w : CellCol} {lo hi : Val} (hlo : cellRead s .ls a.lo = .assigned lo)
    (hhi : cellRead s .ls a.hi = .assigned hi) (hwlo : cellRead s w t = .assigned lo)
    (hwhi : cellRead s w (t + 1) = .assigned hi) : ∀ e ∈ copiedEntries w t a, EqWired s e := by
  simpa [copiedEntries] using ⟨⟨lo, hlo, hwlo⟩, hi, hhi, hwhi⟩

/-- R139: the entries a completed command appends are wired. -/
theorem completed_entries_wired (hs : NoAbort s) (hr : Requires i s) (hc : Completed i s s') :
    ∀ e ∈ entriesOf i, EqWired s' e := by
  have hkeep := completed_keeps_assigned hs hr hc
  cases i with
  | certify t v => simp [entriesOf]
  | copy k sel w t =>
    obtain ⟨v, hv, -, rfl⟩ := hc
    simpa [entriesOf] using ⟨v, hkeep _ _ _ hv, by simp⟩
  | cert4 t a b c d => simp [entriesOf]
  | f1 t b c d =>
    obtain ⟨bLo, bHi, cLo, cHi, dLo, dHi, x, ⟨rbLo, rbHi, -⟩, ⟨rcLo, rcHi, -⟩, ⟨rdLo, rdHi, -⟩, -, rfl⟩ := hc
    have hcell := (f1_effect t b c d bLo bHi cLo cHi dLo dHi (split4 (f1Sum bLo bHi cLo cHi dLo dHi)) x hs).cell
    simp only [entriesOf, List.forall_mem_append]
    refine ⟨⟨eqWired_copiedEntries (hkeep _ _ _ rbLo) (hkeep _ _ _ rbHi) ?_ ?_,
      eqWired_copiedEntries (hkeep _ _ _ rcLo) (hkeep _ _ _ rcHi) ?_ ?_⟩,
      eqWired_copiedEntries (hkeep _ _ _ rdLo) (hkeep _ _ _ rdHi) ?_ ?_⟩ <;> rw [hcell] <;> simp [copiedCells]
  | ch t x y =>
    obtain ⟨xLo, xHi, yLo, yHi, i, ⟨rxLo, rxHi, -⟩, ⟨ryLo, ryHi, -⟩, -, rfl⟩ := hc
    have hcell := (ch_effect t x y xLo xHi yLo yHi (split4 (pairSum xLo xHi yLo yHi)) i hs).cell
    simp only [entriesOf, List.forall_mem_append]
    refine ⟨eqWired_copiedEntries (hkeep _ _ _ rxLo) (hkeep _ _ _ rxHi) ?_ ?_,
      eqWired_copiedEntries (hkeep _ _ _ ryLo) (hkeep _ _ _ ryHi) ?_ ?_⟩ <;> rw [hcell] <;> simp [copiedCells]
  | chneg t x z =>
    obtain ⟨xLo, xHi, zLo, zHi, i, ⟨rxLo, rxHi, -⟩, ⟨rzLo, rzHi, -⟩, -, rfl⟩ := hc
    have hcell := (chneg_effect t x z xLo xHi zLo zHi
      (split4 (pairSum (xLo.vmap negSpread) (xHi.vmap negSpread) zLo zHi)) i hs).cell
    simp only [entriesOf, List.forall_mem_append]
    refine ⟨eqWired_copiedEntries (hkeep _ _ _ rxLo) (hkeep _ _ _ rxHi) ?_ ?_,
      eqWired_copiedEntries (hkeep _ _ _ rzLo) (hkeep _ _ _ rzHi) ?_ ?_⟩ <;> rw [hcell] <;> simp [copiedCells]

theorem completed_wired (hs : NoAbort s) (hr : Requires i s) (hc : Completed i s s')
    (hwired : ∀ e ∈ s.eqList, EqWired s e) : ∀ e ∈ s'.eqList, EqWired s' e := by
  have hkeep := completed_keeps_assigned hs hr hc
  obtain ⟨cells, -, he⟩ := completed_effect hs hc
  rw [he.eqs, List.forall_mem_append]
  refine ⟨fun e hmem => ?_, completed_entries_wired hs hr hc⟩
  obtain ⟨v, hleft, hright⟩ := hwired e hmem
  exact ⟨v, hkeep _ _ _ hleft, hkeep _ _ _ hright⟩

/-! ### The invariant of the machine -/

/-- The invariant of a state whose cells, bits and entries are at their reset values. -/
theorem machineInv_of_blank (hwf : Memory.wf s = true) (hstatus : s.status = .clear)
    (hbit : ∀ r, bitRead s .lq r = false) (heq : s.eqList = []) : MachineInv s where
  wf := hwf
  status := by unfold StatusLegal; rw [hstatus]; rfl
  certified := fun _ r hr => by rw [hbit] at hr; cases hr
  wired := fun _ e he => by rw [heq] at he; cases he

/-- R221: the status an exception writes is legal if its row is in the region. -/
theorem statusLegal_abortRun {e : Raise} (hrow : e.row < s.nRows) : StatusLegal (abortRun e s) :=
  ⟨cause_subcause e, hrow⟩

/-- The state with a move taken has the invariant. -/
theorem MachineInv.withHost {moves : List HostMove} (h : MachineInv s) : MachineInv (withHost moves s) :=
  ⟨h.wf, h.status, h.certified, h.wired⟩

/-- Every command keeps the invariant, whether it completes or raises. -/
theorem exec_machineInv (h : MachineInv s) (hnext : exec i s = .next s') : MachineInv s' := by
  obtain ⟨hs, hr, hdone⟩ := (exec_next_iff i).1 hnext
  obtain ⟨htable, hrows, -, -⟩ := exec_keeps_inputs hnext
  obtain ⟨htableWf, hregionWf⟩ := (Memory.wf_iff s).1 h.wf
  rcases hdone with hc | ⟨e, hraise, rfl⟩
  · obtain ⟨cells, -, he⟩ := completed_effect hs hc
    refine ⟨(Memory.wf_iff s').2 ⟨by rwa [htable], by rw [hrows]; exact completed_regionWf hr hregionWf hc⟩, ?_,
      fun _ => completed_certifiedRows (h.certified hs) hc, fun _ => completed_wired hs hr hc (h.wired hs)⟩
    have hlegal := h.status
    unfold StatusLegal at hlegal ⊢
    rwa [he.status, hrows]
  · exact ⟨(Memory.wf_iff _).2 ⟨htableWf, freeRegion_wf ..⟩, statusLegal_abortRun (raises_row_lt hr hraise),
      fun hok => (by cases hok), fun hok => (by cases hok)⟩

theorem launch_machineInv (n : Nat) {tb : List (Nat × Option Nat)} (p : Phase) (h : tableWf tb = true) :
    MachineInv (State.launch n tb p) :=
  machineInv_of_blank (launch_memoryWf n p h) rfl (bitRead_launch n tb p .lq) rfl

end

/-- Settles O10: at launch nothing is enabled and nothing is wired. -/
theorem resetMeetsTheMachineInvariant : Obligations.ResetMeetsTheMachineInvariant :=
  ⟨machineInv_of_blank reset_memoryWf rfl (bitRead_launch _ _ _ .lq) rfl, fun n _ p h => launch_machineInv n p h⟩

/-- Settles O11: waiting keeps the state, reset leaves a blank one, and every command keeps the invariant
(`exec_machineInv`) in the state with its move taken. -/
theorem stepKeepsTheMachineInvariant : Obligations.StepKeepsTheMachineInvariant := by
  intro s s' hinv h
  have hwf := step_memoryWf hinv.wf h
  rcases step_next_cases h with ⟨-, rfl⟩ | ⟨p, rest, -, rfl⟩ | ⟨w, rest, i, -, -, he⟩
  · exact hinv
  · exact machineInv_of_blank hwf rfl (bitRead_applyReset _ p .lq) rfl
  · exact exec_machineInv hinv.withHost he

end Sys2Proof.Machine

/-! ## The units of spec/40_bit_primitives.md as laws: O41, O43, O44, O46, O47, O48, O49

Each law is an induction on the width, one window of two bits at a time, in any width; the half-word and the operand of the
spec are the widths 16 and 32. -/

namespace Sys2Proof.Machine

section

variable {n : Nat}

/-! ### R105: spread and parity extraction are inverse -/

theorem spread_of_zero (n : Nat) : spread n 0 = 0 := by
  induction n with
  | zero => rfl
  | succ n ih => rw [spread_succ, Nat.zero_div, ih]

/-- R105: from a sum of windows the even bits give the first number back and the odd bits the second. -/
theorem parityBits_spread_add (n a b : Nat) :
    parityBits n 0 (spread n a + 2 * spread n b) = a % 2 ^ n ∧
    parityBits n 1 (spread n a + 2 * spread n b) = b % 2 ^ n := by
  induction n generalizing a b with
  | zero => simp [parityBits_zero, Nat.mod_one]
  | succ n ih =>
    obtain ⟨heven, hodd⟩ := ih (a / 2) (b / 2)
    have hwindow : (spread (n + 1) a + 2 * spread (n + 1) b) / 4 = spread n (a / 2) + 2 * spread n (b / 2) := by
      rw [spread_succ, spread_succ]; omega
    have hlow : (spread (n + 1) a + 2 * spread (n + 1) b) % 2 = a % 2 := by
      rw [spread_succ, spread_succ]; omega
    have hhigh : (spread (n + 1) a + 2 * spread (n + 1) b) / 2 % 2 = b % 2 := by
      rw [spread_succ, spread_succ]; omega
    rw [parityBits_succ, parityBits_succ, hwindow, heven, hodd, bit_zero, bit_succ, bit_zero, hlow, hhigh, Nat.pow_succ',
      Nat.mod_mul, Nat.mod_mul]
    exact ⟨rfl, rfl⟩

/-- R105: a number of `2n` bits is the sum of the windows of its even and its odd bits. -/
theorem spread_parityBits (n v : Nat) (hv : v < 4 ^ n) :
    spread n (parityBits n 0 v) + 2 * spread n (parityBits n 1 v) = v := by
  induction n generalizing v with
  | zero =>
    have hzero : v = 0 := by simpa using hv
    rw [spread_zero, spread_zero, hzero]
  | succ n ih =>
    have hrest := ih (v / 4) (by rw [Nat.pow_succ] at hv; omega)
    have hlow := bit_lt_two v 0
    have hhigh := bit_lt_two v 1
    have hhalf : ∀ sel, parityBits (n + 1) sel v / 2 = parityBits n sel (v / 4) := fun sel => parityBits_succ_div_two n sel v
    have hparity : ∀ sel, parityBits (n + 1) sel v % 2 = bit v sel := by
      intro sel
      have := bit_lt_two v sel
      rw [parityBits_succ]; omega
    rw [spread_succ, spread_succ, hhalf, hhalf, hparity, hparity]
    rw [bit_zero] at hlow ⊢
    rw [bit_succ, bit_zero] at hhigh ⊢
    omega

/-- R105: two numbers of `n` bits are determined by the sum of their windows. -/
theorem spread_add_inj {a b a' b' : Nat} (ha : a < 2 ^ n) (hb : b < 2 ^ n) (ha' : a' < 2 ^ n) (hb' : b' < 2 ^ n)
    (h : spread n a + 2 * spread n b = spread n a' + 2 * spread n b') : a = a' ∧ b = b' := by
  obtain ⟨heven, hodd⟩ := parityBits_spread_add n a b
  obtain ⟨heven', hodd'⟩ := parityBits_spread_add n a' b'
  rw [Nat.mod_eq_of_lt ha, h] at heven
  rw [Nat.mod_eq_of_lt hb, h] at hodd
  rw [Nat.mod_eq_of_lt ha'] at heven'
  rw [Nat.mod_eq_of_lt hb'] at hodd'
  exact ⟨heven.symm.trans heven', hodd.symm.trans hodd'⟩

theorem parityBits_spread (n d : Nat) : parityBits n 0 (spread n d) = d % 2 ^ n ∧ parityBits n 1 (spread n d) = 0 := by
  have h := parityBits_spread_add n d 0
  rwa [spread_of_zero, Nat.mul_zero, Nat.add_zero, Nat.zero_mod] at h

/-- R105: the half-word form. -/
theorem evenBits_oddBits_spread16_add {a b : Nat} (ha : a < 2 ^ 16) (hb : b < 2 ^ 16) :
    evenBits (spread16 a + 2 * spread16 b) = a ∧ oddBits (spread16 a + 2 * spread16 b) = b := by
  have h := parityBits_spread_add 16 a b
  rwa [Nat.mod_eq_of_lt ha, Nat.mod_eq_of_lt hb] at h

/-! ### R102: fresh values -/

/-- The odd-position mask of `2n` bits keeps of a number the windows of its odd bits. -/
theorem and_oddMask (n s : Nat) : s &&& (2 * spread n (2 ^ n - 1)) = 2 * spread n (parityBits n 1 s) := by
  induction n generalizing s with
  | zero => simp [spread_zero]
  | succ n ih =>
    have hpos : 1 ≤ 2 ^ n := Nat.one_le_two_pow
    have hmask : 2 * spread (n + 1) (2 ^ (n + 1) - 1) = 2 * (1 + 2 * (2 * spread n (2 ^ n - 1))) := by
      have hlow : (2 ^ (n + 1) - 1) % 2 = 1 := by rw [Nat.pow_succ]; omega
      have hrest : (2 ^ (n + 1) - 1) / 2 = 2 ^ n - 1 := by rw [Nat.pow_succ]; omega
      rw [spread_succ, hlow, hrest]; ring
    have hquarter : s / 2 / 2 = s / 2 ^ 2 := Nat.div_div_eq_div_mul s 2 2
    have hbit := bit_lt_two s 1
    rw [hmask, and_peel, Nat.mul_mod_right, Nat.mul_zero, Nat.zero_add, Nat.mul_div_cancel_left _ (by decide), and_peel,
      Nat.add_mul_mod_self_left, Nat.add_mul_div_left _ _ (by decide), show (1 : Nat) / 2 = 0 from rfl, Nat.zero_add,
      Nat.one_mod, Nat.mul_one, hquarter, ih, spread_succ, parityBits_succ_div_two]
    rw [parityBits_succ, bit_succ, bit_zero]
    omega

/-- R102: a number of `2n` bits whose odd bits are 0 is the spread of its even bits. -/
theorem oddBits_zero_iff_spread {s : Nat} (hs : s < 4 ^ n) : parityBits n 1 s = 0 ↔ ∃ d < 2 ^ n, s = spread n d := by
  constructor
  · intro h
    have hsum := spread_parityBits n s hs
    rw [h, spread_of_zero] at hsum
    exact ⟨_, parityBits_lt n 0 s, hsum.symm⟩
  · rintro ⟨d, -, rfl⟩
    exact (parityBits_spread n d).2

/-- R102: masking the odd positions leaves 0 exactly when the odd bits are 0. -/
theorem and_oddMask_eq_zero_iff (n s : Nat) : s &&& (2 * spread n (2 ^ n - 1)) = 0 ↔ parityBits n 1 s = 0 := by
  rw [and_oddMask]
  constructor
  · intro h
    have hzero : spread n (parityBits n 1 s) = spread n 0 := by rw [spread_of_zero]; omega
    exact (spread_add_inj (parityBits_lt n 1 s) (Nat.two_pow_pos n) (Nat.two_pow_pos n) (Nat.two_pow_pos n)
      (congrArg (· + 2 * spread n 0) hzero)).1
  · intro h
    rw [h, spread_of_zero]

theorem isFresh_iff_oddBits (s : Nat) : isFresh s = true ↔ parityBits 16 1 s = 0 := by
  rw [← and_oddMask_eq_zero_iff, isFresh, decide_eq_true_iff, show 2 * spread 16 (2 ^ 16 - 1) = 0xAAAAAAAA by decide]

theorem isFresh64_iff_oddBits (s : Nat) : isFresh64 s = true ↔ parityBits 32 1 s = 0 := by
  rw [← and_oddMask_eq_zero_iff, isFresh64, decide_eq_true_iff,
    show 2 * spread 32 (2 ^ 32 - 1) = 0xAAAAAAAAAAAAAAAA by decide]

theorem isFresh_iff_spread16 {s : Nat} (hs : s < 2 ^ 32) : isFresh s = true ↔ ∃ d < 2 ^ 16, s = spread16 d := by
  rw [isFresh_iff_oddBits]
  exact oddBits_zero_iff_spread (n := 16) hs

theorem isFresh_spread16 (d : Nat) : isFresh (spread16 d) = true :=
  (isFresh_iff_oddBits _).2 (parityBits_spread 16 d).2

/-! ### R102, R106: spreads add as bits do in half adders and full adders -/

/-- R102: XOR is the sum of two spreads in each window, AND its carry. -/
theorem spread_xor_add_spread_and (n a b : Nat) :
    spread n (a ^^^ b) + 2 * spread n (a &&& b) = spread n a + spread n b := by
  induction n generalizing a b with
  | zero => simp [spread_zero]
  | succ n ih =>
    have hrest := ih (a / 2) (b / 2)
    have hbits := xor_add_two_mul_and (a % 2) (b % 2)
    have hxor : (a ^^^ b) % 2 = a % 2 ^^^ b % 2 := Nat.xor_mod_two_pow (n := 1)
    have hand : (a &&& b) % 2 = a % 2 &&& b % 2 := Nat.and_mod_two_pow (n := 1)
    rw [spread_succ, spread_succ, spread_succ, spread_succ, Nat.xor_div_two, Nat.and_div_two, hxor, hand]
    omega

/-- Of the two carries of a full adder at most one is 1, and one is exactly when two inputs are. -/
theorem carry_xor_carry_eq_majority (a b c : Nat) :
    (a ^^^ b) &&& c ^^^ a &&& b = (a &&& b) ||| (a &&& c) ||| (b &&& c) := by
  refine Nat.eq_of_testBit_eq fun i => ?_
  simp only [Nat.testBit_xor, Nat.testBit_and, Nat.testBit_or]
  cases a.testBit i <;> cases b.testBit i <;> cases c.testBit i <;> rfl

theorem carry_and_carry_eq_zero (a b c : Nat) : (a ^^^ b) &&& c &&& (a &&& b) = 0 := by
  refine Nat.eq_of_testBit_eq fun i => ?_
  simp only [Nat.testBit_xor, Nat.testBit_and, Nat.zero_testBit]
  cases a.testBit i <;> cases b.testBit i <;> cases c.testBit i <;> rfl

/-- R106: the sum of three spreads holds XOR in its even positions and the majority in its odd ones. -/
theorem spread_full_adder (n a b c : Nat) :
    spread n (a ^^^ b ^^^ c) + 2 * spread n ((a &&& b) ||| (a &&& c) ||| (b &&& c)) =
      spread n a + spread n b + spread n c := by
  have hfirst := spread_xor_add_spread_and n a b
  have hsecond := spread_xor_add_spread_and n (a ^^^ b) c
  have hcarries := spread_xor_add_spread_and n ((a ^^^ b) &&& c) (a &&& b)
  rw [carry_xor_carry_eq_majority, carry_and_carry_eq_zero, spread_of_zero] at hcarries
  omega

/-! ### R108: complements -/

theorem spread_notW_add (n d : Nat) (hd : d < 2 ^ n) : spread n (notW n d) + spread n d = spread n (2 ^ n - 1) := by
  induction n generalizing d with
  | zero => rfl
  | succ n ih =>
    rw [Nat.pow_succ] at hd
    have hrest := ih (d / 2) (by omega)
    have hlow : notW (n + 1) d % 2 = 1 - d % 2 := by rw [notW, Nat.pow_succ]; omega
    have hhalf : notW (n + 1) d / 2 = notW n (d / 2) := by rw [notW, notW, Nat.pow_succ]; omega
    have hones : (2 ^ (n + 1) - 1) % 2 = 1 ∧ (2 ^ (n + 1) - 1) / 2 = 2 ^ n - 1 := by
      rw [Nat.pow_succ]; omega
    obtain ⟨hlow1, hhalf1⟩ := hones
    rw [spread_succ, spread_succ, spread_succ, hlow, hhalf, hlow1, hhalf1]
    omega

theorem negSpread_spread16 {d : Nat} (hd : d < 2 ^ 16) : negSpread (spread16 d) = spread16 (notW 16 d) := by
  have hsum := spread_notW_add 16 d hd
  rw [negSpread_of_isFresh (spread16_lt d) (isFresh_spread16 d), m16_eq_spread16, spread16, spread16, spread16]
  omega

/-- R108: flipping the even positions twice restores them. -/
theorem negSpread_negSpread (s : Nat) : negSpread (negSpread s) = s := by
  rw [negSpread, negSpread, Nat.xor_assoc, Nat.xor_self, Nat.xor_zero]

theorem lo16_lt (x : Nat) : lo16 x < 2 ^ 16 := slice_lt x 0 16

theorem hi16_lt (x : Nat) : hi16 x < 2 ^ 16 := slice_lt x 16 16

theorem notW_16_lt (d : Nat) : notW 16 d < 2 ^ 16 := by rw [notW]; omega

theorem notW_32_lt (x : Nat) : notW 32 x < 2 ^ 32 := by rw [notW]; omega

/-- R13: the complement of an operand is that of its half-words. -/
theorem halves_notW_32 {x : Nat} (hx : x < 2 ^ 32) :
    lo16 (notW 32 x) = notW 16 (lo16 x) ∧ hi16 (notW 32 x) = notW 16 (hi16 x) := by
  simp only [lo16, hi16, slice, notW]
  omega

/-- R108: on an operand, half by half. -/
theorem negSpread_halves {x : Nat} (hx : x < 2 ^ 32) :
    negSpread (spread16 (lo16 x)) + 2 ^ 32 * negSpread (spread16 (hi16 x)) = spread 32 (notW 32 x) := by
  obtain ⟨hlo, hhi⟩ := halves_notW_32 hx
  rw [negSpread_spread16 (lo16_lt x), negSpread_spread16 (hi16_lt x), spread_32_halves, hlo, hhi]

/-! ### The halves of a sum of windows -/

theorem parityBits_add (m n sel v : Nat) :
    parityBits (m + n) sel v = parityBits m sel v + 2 ^ m * parityBits n sel (v / 4 ^ m) := by
  induction m generalizing v with
  | zero => simp [parityBits_zero]
  | succ m ih =>
    rw [Nat.succ_add, parityBits_succ, ih, parityBits_succ, Nat.div_div_eq_div_mul, ← Nat.pow_succ', pow_succ 2]
    ring

/-- The bits extracted below position `2n` are those of the number cut to `2n` bits. -/
theorem parityBits_mod (n v : Nat) {sel : Nat} (hsel : sel < 2) : parityBits n sel (v % 4 ^ n) = parityBits n sel v := by
  have hpow : (4 : Nat) ^ n = 2 ^ (2 * n) := by rw [pow_mul, show (2 : Nat) ^ 2 = 4 from rfl]
  rw [hpow]
  exact sumBelow_congr fun i hi => by rw [bit_mod_two_pow v (by omega)]

/-- R12, R113: the bits extracted from a 64-bit value are those of its halves. -/
theorem parityBits_halves (v : Nat) {sel : Nat} (hsel : sel < 2) :
    parityBits 32 sel v = parityBits 16 sel (lo32 v) + 2 ^ 16 * parityBits 16 sel (hi32 v) := by
  have hlo : lo32 v = v % 4 ^ 16 := congrArg (· % 4 ^ 16) (Nat.div_one v)
  have hhi : hi32 v = v / 4 ^ 16 % 4 ^ 16 := rfl
  rw [hlo, hhi, parityBits_mod 16 v hsel, parityBits_mod 16 _ hsel]
  exact parityBits_add 16 16 sel v

theorem isFresh64_iff_halves (s : Nat) : isFresh64 s = true ↔ isFresh (lo32 s) = true ∧ isFresh (hi32 s) = true := by
  rw [isFresh64_iff_oddBits, isFresh_iff_oddBits, isFresh_iff_oddBits, parityBits_halves s (by decide)]
  omega

/-! ### R109: bit sequences -/

theorem length_toBits (w v : Nat) : (toBits w v).length = w := by
  induction w generalizing v with
  | zero => rfl
  | succ w ih => rw [toBits, List.length_cons, ih]

theorem getElem?_toBits (w v : Nat) {i : Nat} (hi : i < w) : (toBits w v)[i]? = some (bit v i) := by
  induction w generalizing v i with
  | zero => omega
  | succ w ih =>
    cases i with
    | zero => rw [toBits, List.getElem?_cons_zero, bit_zero]
    | succ i => rw [toBits, List.getElem?_cons_succ, ih _ (by omega), bit_succ]

theorem fromBits_toBits (w v : Nat) (hv : v < 2 ^ w) : fromBits (toBits w v) = v := by
  induction w generalizing v with
  | zero => rw [toBits, fromBits]; omega
  | succ w ih =>
    rw [Nat.pow_succ] at hv
    rw [toBits, fromBits, ih _ (by omega)]
    omega

theorem toBits_fromBits (b : List Nat) (hb : ∀ x ∈ b, x < 2) : toBits b.length (fromBits b) = b := by
  induction b with
  | nil => rfl
  | cons x b ih =>
    obtain ⟨hx, hrest⟩ := List.forall_mem_cons.1 hb
    have hlow : (x + 2 * fromBits b) % 2 = x := by omega
    have hhalf : (x + 2 * fromBits b) / 2 = fromBits b := by omega
    rw [fromBits, List.length_cons, toBits, hlow, hhalf, ih hrest]

theorem toBits_spread (n d : Nat) : toBits (2 * n) (spread n d) = (toBits n d).flatMap fun x => [x, 0] := by
  induction n generalizing d with
  | zero => rfl
  | succ n ih =>
    have hlow : spread (n + 1) d % 2 = d % 2 := by rw [spread_succ]; omega
    have hnext : spread (n + 1) d / 2 % 2 = 0 := by rw [spread_succ]; omega
    have hrest : spread (n + 1) d / 2 / 2 = spread n (d / 2) := by rw [spread_succ]; omega
    rw [Nat.mul_succ, toBits, toBits, toBits, hlow, hnext, hrest, ih, List.flatMap_cons]
    rfl

/-- R109: element `i` of the extracted bits is element `2i + sel` of the value's. -/
theorem getElem?_toBits_parityBits (v : Nat) {sel i : Nat} (hsel : sel < 2) (hi : i < 16) :
    (toBits 16 (parityBits 16 sel v))[i]? = (toBits 32 v)[2 * i + sel]? := by
  rw [getElem?_toBits 16 _ hi, getElem?_toBits 32 v (by omega), bit_parityBits 16 sel v hi]

end

/-- Settles O41: a spread has one preimage of `n` bits, its even bits (`parityBits_spread`), and the fresh values are those
without odd bits. -/
theorem spreadIsInjectiveAndFresh : Obligations.SpreadIsInjectiveAndFresh := by
  refine ⟨fun n a b ha hb h => ?_, fun n d => ?_, fun s hs => isFresh_iff_spread16 hs, fun d hd => ?_,
    spread_xor_add_spread_and⟩
  · exact (spread_add_inj ha (Nat.two_pow_pos n) hb (Nat.two_pow_pos n) (congrArg (· + 2 * spread n 0) h)).1
  · have h := three_mul_spread_lt n d
    omega
  · obtain ⟨heven, hodd⟩ := parityBits_spread 16 d
    exact ⟨heven.trans (Nat.mod_eq_of_lt hd), hodd⟩

/-- Settles O43: the two directions at the width of a half-word. -/
theorem parityExtractionIsReversible : Obligations.ParityExtractionIsReversible :=
  ⟨fun v hv => (spread_parityBits 16 v hv).symm, fun _ _ ha hb => evenBits_oddBits_spread16_add ha hb⟩

/-- Settles O44: the half adder and the full adder in each window, then the extraction (R105). -/
theorem slotLaw : Obligations.SlotLaw := by
  intro a b c ha hb hc
  have htwo : spread16 a + spread16 b = spread16 (a ^^^ b) + 2 * spread16 (a &&& b) :=
    (spread_xor_add_spread_and 16 a b).symm
  have hthree : spread16 a + spread16 b + spread16 c =
      spread16 (a ^^^ b ^^^ c) + 2 * spread16 ((a &&& b) ||| (a &&& c) ||| (b &&& c)) :=
    (spread_full_adder 16 a b c).symm
  have hxor : a ^^^ b < 2 ^ 16 := Nat.xor_lt_two_pow ha hb
  have hand : a &&& b < 2 ^ 16 := Nat.and_lt_two_pow a hb
  have hmajority : (a &&& b) ||| (a &&& c) ||| (b &&& c) < 2 ^ 16 :=
    Nat.or_lt_two_pow (Nat.or_lt_two_pow hand (Nat.and_lt_two_pow a hc)) (Nat.and_lt_two_pow b hc)
  have hbound : spread16 a + spread16 b + spread16 c < 2 ^ 32 := by
    have ha' := spread16_le a
    have hb' := spread16_le b
    have hc' := spread16_le c
    rw [m16] at ha' hb' hc'
    omega
  obtain ⟨heven, hodd⟩ := evenBits_oddBits_spread16_add hxor hand
  obtain ⟨heven', hodd'⟩ := evenBits_oddBits_spread16_add (Nat.xor_lt_two_pow hxor hc) hmajority
  rw [htwo]
  rw [← hthree] at heven' hodd'
  exact ⟨heven, hodd, by rwa [← htwo], by rwa [← htwo], by rwa [← htwo]⟩

/-- Settles O46: on a fresh value `negSpread` is `M16 - s`, and a spread and that of its complement add up to `M16`. -/
theorem negSpreadCommutesWithComplement : Obligations.NegSpreadCommutesWithComplement := by
  refine ⟨fun d hd => negSpread_spread16 hd, fun x hx => negSpread_halves hx,
    negSpread_negSpread, fun s hs hf => ?_⟩
  obtain ⟨d, hd, rfl⟩ := (isFresh_iff_spread16 hs).1 hf
  rw [negSpread_spread16 hd]
  exact isFresh_spread16 _

/-- Settles O47: each clause by recursion on the sequence; the last bit by bit. -/
theorem bitSequencesRoundTrip : Obligations.BitSequencesRoundTrip :=
  ⟨fun w v => ⟨length_toBits w v, fun _ hi => getElem?_toBits w v hi, fromBits_toBits w v⟩, toBits_fromBits,
    toBits_spread 16,
    fun v _ hi => ⟨getElem?_toBits_parityBits v (by decide) hi, getElem?_toBits_parityBits v (by decide) hi⟩⟩

/-- Settles O48: by cases on the arguments. -/
theorem combinatorsAreKnownExactlyOnKnownArguments : Obligations.CombinatorsAreKnownExactlyOnKnownArguments := by
  refine ⟨fun f a r => ?_, fun f a b r => ?_, fun f a b c r => ?_⟩
  · cases a <;> simp [Val.vmap, eq_comm]
  · cases a <;> cases b <;> simp [Val.vzip, eq_comm]
  · cases a <;> cases b <;> cases c <;> simp [Val.vzip3, eq_comm]

/-- Settles O49: the odd bits of a 64-bit value are those of its halves, and so are its even bits. -/
theorem freshSixtyFourBitValuesAreOperandSpreads : Obligations.FreshSixtyFourBitValuesAreOperandSpreads := by
  refine ⟨fun s hs => ⟨isFresh64_iff_halves s, ?_⟩, fun d hd => ?_⟩
  · rw [isFresh64_iff_oddBits]
    exact oddBits_zero_iff_spread (n := 32) hs
  · have hhalves := parityBits_halves (spread 32 d) (sel := 0) (by decide)
    rw [(parityBits_spread 32 d).1, Nat.mod_eq_of_lt hd] at hhalves
    exact hhalves

end Sys2Proof.Machine

/-! ## Which command raises what: O18 (spec/60_exceptions.md R225) -/

namespace Sys2Proof.Machine

section

variable {s s' : State} {tb : List (Nat × Option Nat)} {t : Nat} {e : Raise}

/-- The number of a known candidate of a split accumulator has 16 bits. -/
theorem split4_lt {acc : Val} {k c : Nat} (h : (split4 acc).toList[k]? = some (.known c)) : c < 2 ^ 16 := by
  have hmem := List.mem_of_getElem? h
  cases acc with
  | unresolved => simp [split4, Candidates.toList, Val.vmap] at hmem
  | known m =>
    simp only [split4, Candidates.toList, Val.vmap, List.mem_cons, Val.known.injEq, List.not_mem_nil, or_false] at hmem
    rcases hmem with rfl | rfl | rfl | rfl
    · exact evenBits_lt _
    · exact oddBits_lt _
    · exact evenBits_lt _
    · exact oddBits_lt _

/-- R161, R225: a gadget's certification finds no candidate too wide, so it raises `NO_ROW` or nothing. -/
theorem certRaises_split4 {acc : Val} (h : CertRaises tb (split4 acc).toList t e) : e.cause = 2 ∧ e.subcause = 1 := by
  obtain ⟨k, ⟨⟨⟨c, hc, hwide⟩, -⟩, rfl⟩ | ⟨-, rfl⟩⟩ := h
  · exact absurd (split4_lt hc) (not_lt.2 hwide)
  · exact ⟨rfl, rfl⟩

/-- R136: under `TABLE_OK` no certification raises `NO_ROW`. -/
theorem certRaises_not_noRow {vs : List Val} (htb : TableOk tb) (h : CertRaises tb vs t e) : e.subcause = 0 := by
  obtain ⟨k, ⟨-, rfl⟩ | ⟨⟨⟨c, -, hc, hmissing⟩, -⟩, rfl⟩⟩ := h
  · rfl
  · exact absurd htb (not_tableOk_of_missing hc hmissing)

/-- The exception of a gadget comes from its copies or from the certification of its accumulator. -/
theorem gadget_cause {ps : List (CellRef × Nat)}
    (h : ReadRaises s ps e ∨ ∃ acc, CertRaises s.table (split4 acc).toList t e) :
    e.cause = 1 ∨ (e.cause = 2 ∧ e.subcause = 1) :=
  h.imp readRaises_cause fun ⟨_, hcert⟩ => certRaises_split4 hcert

end

/-- Settles O18: a copy raises with cause 1 and a certification with cause 2 (`readRaises_or_certRaises`), and a split
accumulator has no candidate too wide. -/
theorem eachCommandRaisesOnlyItsConditions : Obligations.EachCommandRaisesOnlyItsConditions := by
  intro i s s' _ hnext haborted
  obtain ⟨hr, e, hraise, rfl⟩ := raises_of_next_aborted hnext haborted
  refine ⟨?_, fun htb ⟨hcause, hsubcause⟩ => ?_⟩
  · cases i with
    | certify t v => exact certRaises_cause hraise
    | copy k sel w t => exact readRaises_cause hraise
    | cert4 t a b c d => exact certRaises_cause hraise
    | f1 t b c d => exact gadget_cause (hraise.imp_right fun ⟨_, _, _, _, _, _, _, _, _, hcert⟩ => ⟨_, hcert⟩)
    | ch t x y => exact gadget_cause (hraise.imp_right fun ⟨_, _, _, _, _, _, hcert⟩ => ⟨_, hcert⟩)
    | chneg t x z => exact gadget_cause (hraise.imp_right fun ⟨_, _, _, _, _, _, hcert⟩ => ⟨_, hcert⟩)
  · rcases readRaises_or_certRaises hr hraise with hread | ⟨vs, t, -, hcert⟩
    · exact absurd ((readRaises_cause hread).symm.trans hcause) (by decide)
    · exact absurd ((certRaises_not_noRow htb hcert).symm.trans hsubcause) (by decide)

/-! ## Phases: O31, O32 (spec/10_state.md R29, spec/43_constraint_system.md R204) -/

section

variable {s s' : State} {p : Phase} {i : Instr}

/-! ### A command in the other phase -/

theorem requires_withPhase (i : Instr) (p : Phase) (s : State) : Requires i (withPhase p s) ↔ Requires i s := by
  cases i <;> exact Iff.rfl

/-- In the description phase whatever is assigned resolves. -/
theorem resolved_describe (s : State) (v : Val) : Resolved (withPhase .describe s) v := fun h => by cases h

theorem operandResolves_describe {x : Operand} {lo hi : Val} (h : OperandResolves (withPhase p s) x lo hi) :
    OperandResolves (withPhase .describe s) x lo hi := by
  obtain ⟨hlo, hhi, -, -⟩ := h
  exact ⟨hlo, hhi, resolved_describe s lo, resolved_describe s hi⟩

@[simp] theorem withPhase_withPhase (p q : Phase) (s : State) : withPhase p (withPhase q s) = withPhase p s := rfl

@[simp] theorem respond_withPhase (hs : Handles) (p : Phase) (s : State) :
    respond hs (withPhase p s) = withPhase p (respond hs s) := rfl

@[simp] theorem cellWrite_withPhase (col : CellCol) (r : Nat) (v : Val) (p : Phase) (s : State) :
    cellWrite col r v (withPhase p s) = withPhase p (cellWrite col r v s) := rfl

@[simp] theorem bitSet_withPhase (b : BitCol) (r : Nat) (p : Phase) (s : State) :
    bitSet b r (withPhase p s) = withPhase p (bitSet b r s) := rfl

@[simp] theorem addEq_withPhase (a b : CellRef) (p : Phase) (s : State) :
    addEq a b (withPhase p s) = withPhase p (addEq a b s) := rfl

@[simp] theorem bindRow_withPhase (t : Nat) (v x : Val) (p : Phase) (s : State) :
    bindRow t v x (withPhase p s) = withPhase p (bindRow t v x s) := by simp [bindRow]

@[simp] theorem bound4_withPhase (t : Nat) (c x : Candidates) (p : Phase) (s : State) :
    bound4 t c x (withPhase p s) = withPhase p (bound4 t c x s) := by simp [bound4]

@[simp] theorem copied_withPhase (h : Nat) (sel : Proj) (w : WCol) (t : Nat) (v : Val) (p : Phase) (s : State) :
    copied h sel w t v (withPhase p s) = withPhase p (copied h sel w t v s) := by simp [copied]

@[simp] theorem copiedOperand_withPhase (x : Operand) (w : WCol) (t : Nat) (lo hi : Val) (p : Phase) (s : State) :
    copiedOperand x w t lo hi (withPhase p s) = withPhase p (copiedOperand x w t lo hi s) := by simp [copiedOperand]

/-- R29: what completes in either phase completes alike in the description phase. -/
theorem completed_describe (h : Completed i (withPhase p s) s') :
    Completed i (withPhase .describe s) (withPhase .describe s') := by
  cases i with
  | certify t v => obtain ⟨x, hi, rfl⟩ := h; exact ⟨x, hi, by simp⟩
  | copy k sel w t => obtain ⟨v, hv, -, rfl⟩ := h; exact ⟨v, hv, resolved_describe s v, by simp⟩
  | cert4 t a b c d => obtain ⟨x, hi, rfl⟩ := h; exact ⟨x, hi, by simp⟩
  | f1 t b c d =>
    obtain ⟨_, _, _, _, _, _, x, rb, rc, rd, hi, rfl⟩ := h
    exact ⟨_, _, _, _, _, _, x, operandResolves_describe rb, operandResolves_describe rc, operandResolves_describe rd,
      hi, by simp [f1Wired]⟩
  | ch t x y =>
    obtain ⟨_, _, _, _, i, rx, ry, hi, rfl⟩ := h
    exact ⟨_, _, _, _, i, operandResolves_describe rx, operandResolves_describe ry, hi, by simp [chWired]⟩
  | chneg t x z =>
    obtain ⟨_, _, _, _, i, rx, rz, hi, rfl⟩ := h
    exact ⟨_, _, _, _, i, operandResolves_describe rx, operandResolves_describe rz, hi, by simp [chnegWired]⟩

/-- R29: what a certification raises in either phase it raises in the description phase. -/
theorem raises_describe {e : Raise} (h : Raises i (withPhase p s) e) (hcause : e.cause ≠ 1) :
    Raises i (withPhase .describe s) e := by
  have hread : ∀ {ps : List (CellRef × Nat)}, ¬ ReadRaises (withPhase p s) ps e :=
    fun hread => hcause (readRaises_cause hread)
  cases i with
  | certify t v => exact h
  | copy k sel w t => exact absurd h hread
  | cert4 t a b c d => exact h
  | f1 t b c d =>
    obtain ⟨_, _, _, _, _, _, rb, rc, rd, hcert⟩ := h.resolve_left hread
    exact .inr ⟨_, _, _, _, _, _, operandResolves_describe rb, operandResolves_describe rc, operandResolves_describe rd,
      hcert⟩
  | ch t x y =>
    obtain ⟨_, _, _, _, rx, ry, hcert⟩ := h.resolve_left hread
    exact .inr ⟨_, _, _, _, operandResolves_describe rx, operandResolves_describe ry, hcert⟩
  | chneg t x z =>
    obtain ⟨_, _, _, _, rx, rz, hcert⟩ := h.resolve_left hread
    exact .inr ⟨_, _, _, _, operandResolves_describe rx, operandResolves_describe rz, hcert⟩

/-! ### Refusals, with their reasons -/

/-- R16: a command is refused for its first broken precondition, or by its body when none is broken. -/
theorem runCommand_refused_iff {requires : List (Bool × Refusal)} {body : Except Halt (State × Handles)} {r : Refusal} :
    runCommand requires body s = .refused r ↔
      NoAbort s ∧ (firstBroken requires = some r ∨ (firstBroken requires = none ∧ body = .error (.refuse r))) := by
  unfold runCommand NoAbort
  cases s.status.state with
  | aborted => simp
  | ok =>
    cases firstBroken requires with
    | some r' => simp
    | none =>
      match body with
      | .ok (t, hs) => simp
      | .error (.raise e) => simp
      | .error (.refuse r') => simp

/-- A refusal carries over to a state in which the run is aborted or not alike, the same preconditions are listed, and the
body, if they hold, refuses for the same reasons. -/
theorem runCommand_refused_congr {s1 : State} {requires : List (Bool × Refusal)}
    {body body1 : Except Halt (State × Handles)} (hstatus : s1.status = s.status)
    (hbody : firstBroken requires = none → ∀ r, body1 = .error (.refuse r) ↔ body = .error (.refuse r)) (r : Refusal) :
    runCommand requires body1 s1 = .refused r ↔ runCommand requires body s = .refused r := by
  rw [runCommand_refused_iff, runCommand_refused_iff, NoAbort, hstatus]
  refine and_congr_right fun _ => or_congr_right (and_congr_right fun hnone => hbody hnone r)

/-- R29: a refusal does not depend on the phase: the listed preconditions do not read it, and what a body still refuses is
an accumulator too wide. -/
theorem exec_refused_withPhase (i : Instr) (p : Phase) (s : State) (r : Refusal) :
    exec i (withPhase p s) = .refused r ↔ exec i s = .refused r := by
  cases i with
  | certify t v =>
    refine runCommand_refused_congr (s := s) (s1 := withPhase p s) rfl (fun _ r => ?_) r
    simp [exceptBind_error_iff, certify_raises_iff, pure, Except.pure]
  | copy k sel w t =>
    refine runCommand_refused_congr (s := s) (s1 := withPhase p s) rfl (fun hnone r => ?_) r
    rw [requireRow_none, requireCell_none, requireHandle_none] at hnone
    obtain ⟨-, -, -, hread'⟩ := hnone
    have hread : cellRead s sel.col k ≠ .unassigned := hread'
    simp [exceptBind_error_iff, copy_error_iff, resolve_raises_iff hread, resolve_raises_iff hread', pure, Except.pure]
  | cert4 t a b c d =>
    refine runCommand_refused_congr (s := s) (s1 := withPhase p s) rfl (fun _ r => ?_) r
    simp [exceptBind_error_iff, cert4_raises_iff, pure, Except.pure]
  | f1 t b c d =>
    refine runCommand_refused_congr (s := s) (s1 := withPhase p s) rfl (fun hnone r => ?_) r
    obtain ⟨-, hb, hc, hd⟩ := (f1Requires_none (s := s) t b c d).1 hnone
    rw [f1Body_error_iff (s := withPhase p s) hb hc hd, f1Body_error_iff hb hc hd]
    simp only [reduceCtorEq, and_false, exists_false, false_or]
    rfl
  | ch t x y =>
    refine runCommand_refused_congr (s := s) (s1 := withPhase p s) rfl (fun hnone r => ?_) r
    obtain ⟨-, hx, hy⟩ := (chRequires_none (s := s) t x y).1 hnone
    rw [chBody_error_iff (s := withPhase p s) hx hy, chBody_error_iff hx hy]
    simp only [reduceCtorEq, and_false, exists_false, false_or]
    rfl
  | chneg t x z =>
    refine runCommand_refused_congr (s := s) (s1 := withPhase p s) rfl (fun hnone r => ?_) r
    obtain ⟨-, hx, hz⟩ := (chnegRequires_none (s := s) t x z).1 hnone
    rw [chnegBody_error_iff (s := withPhase p s) hx hz, chnegBody_error_iff hx hz]
    simp only [reduceCtorEq, and_false, exists_false, false_or]
    rfl

end

/-- Settles O31: the phase is kept (`exec_keeps_inputs`); what completes or raises without cause 1 does alike in the
description phase; refusals do not read the phase. -/
theorem phaseIsReadByOneCheckOnly : Obligations.PhaseIsReadByOneCheckOnly := by
  refine fun i s => ⟨fun s' h => ?_, fun s' h hcause => ?_, fun r => ?_⟩
  · obtain ⟨-, -, hphase, -⟩ := exec_keeps_inputs h
    exact hphase
  · obtain ⟨hs, hr, hdone⟩ := (exec_next_iff i).1 h
    have hr' := (requires_withPhase i .describe s).2 ((requires_withPhase i .witness s).1 hr)
    refine (exec_next_iff i).2 ⟨hs, hr', ?_⟩
    rcases hdone with hc | ⟨e, hraise, rfl⟩
    · exact .inl (completed_describe hc)
    · exact .inr ⟨e, raises_describe hraise hcause, rfl⟩
  · rw [exec_refused_withPhase, exec_refused_withPhase]

section

variable {i i' : Instr} {is : List Instr} {s s' s1 s1' s2 s2' : State}

/-! ### The layout of a run (R204) -/

/-- R261: commands that differ in candidate values only have one layout. -/
theorem layout_of_sameLayout (h : SameLayout i i') :
    cellsOf i = cellsOf i' ∧ bitsOf i = bitsOf i' ∧ entriesOf i = entriesOf i' ∧ handlesOf i = handlesOf i' := by
  cases i <;> cases i' <;> simp only [SameLayout, reduceCtorEq, Instr.copy.injEq, Instr.f1.injEq, Instr.ch.injEq,
    Instr.chneg.injEq] at h
  case certify.certify => subst h; exact ⟨rfl, rfl, rfl, rfl⟩
  case cert4.cert4 => subst h; exact ⟨rfl, rfl, rfl, rfl⟩
  case copy.copy => obtain ⟨rfl, rfl, rfl, rfl⟩ := h; exact ⟨rfl, rfl, rfl, rfl⟩
  case f1.f1 => obtain ⟨rfl, rfl, rfl, rfl⟩ := h; exact ⟨rfl, rfl, rfl, rfl⟩
  case ch.ch => obtain ⟨rfl, rfl, rfl⟩ := h; exact ⟨rfl, rfl, rfl, rfl⟩
  case chneg.chneg => obtain ⟨rfl, rfl, rfl⟩ := h; exact ⟨rfl, rfl, rfl, rfl⟩

/-- After a completed command a cell is unassigned exactly when it was and the command does not assign it. -/
theorem completed_unassigned_iff (hs : NoAbort s) (hc : Completed i s s') (col : CellCol) (r : Nat) :
    cellRead s' col r = .unassigned ↔ ⟨col, r⟩ ∉ cellsOf i ∧ cellRead s col r = .unassigned := by
  by_cases hmem : ⟨col, r⟩ ∈ cellsOf i
  · simp [hmem, completed_cell_of_listed hs hc hmem]
  · simp [hmem, completed_cell_of_not_listed hs hc hmem]

/-- R204: commands of one layout that complete from states of one layout leave states of one layout. -/
theorem completed_sameShape (h : SameLayout i i') (hshape : SameShape s1 s2) (hs1 : NoAbort s1) (hs2 : NoAbort s2)
    (hc1 : Completed i s1 s1') (hc2 : Completed i' s2 s2') :
    SameShape s1' s2' ∧ s1'.rsp.map (·.handles) = s2'.rsp.map (·.handles) := by
  obtain ⟨hcells, hbits, hentries, hhandles⟩ := layout_of_sameLayout h
  obtain ⟨heq, hbit, hcell⟩ := hshape
  obtain ⟨_, -, he1⟩ := completed_effect hs1 hc1
  obtain ⟨_, -, he2⟩ := completed_effect hs2 hc2
  refine ⟨⟨?_, fun b r => ?_, fun col r => ?_⟩, ?_⟩
  · rw [he1.eqs, he2.eqs, heq, hentries]
  · rw [he1.bit, he2.bit, hbit, hbits]
  · rw [completed_unassigned_iff hs1 hc1, completed_unassigned_iff hs2 hc2, hcells, hcell]
  · rw [he1.rsp, he2.rsp, Option.map_some, Option.map_some, hhandles]

/-- A run starts in a state that is not aborted if it succeeds. -/
theorem noAbort_of_runSucceeds (h : RunSucceeds is s s') : NoAbort s := by
  obtain ⟨hrun, hok⟩ := h
  cases is with
  | nil => cases hrun; exact hok
  | cons i is =>
    simp only [execAll] at hrun
    split at hrun
    case h_1 s1 hnext => exact ((exec_next_iff i).1 hnext).1
    case h_2 => cases hrun
    case h_3 => cases hrun

/-- R256: a run succeeds exactly when its first command completes and the rest of it succeeds from there. -/
theorem runSucceeds_cons_iff :
    RunSucceeds (i :: is) s s' ↔ ∃ s1, exec i s = .next s1 ∧ NoAbort s1 ∧ RunSucceeds is s1 s' := by
  have hcons : execAll (i :: is) s = .next s' ↔ ∃ s1, exec i s = .next s1 ∧ execAll is s1 = .next s' := by
    rw [execAll]
    cases exec i s <;> simp
  rw [RunSucceeds, hcons]
  constructor
  · rintro ⟨⟨s1, hnext, hrun⟩, hok⟩
    exact ⟨s1, hnext, noAbort_of_runSucceeds ⟨hrun, hok⟩, hrun, hok⟩
  · rintro ⟨s1, hnext, -, hrun, hok⟩
    exact ⟨⟨s1, hnext, hrun⟩, hok⟩

end

/-- Settles O32: by induction along both lists; each pair of commands has one layout (`completed_sameShape`). -/
theorem runsOfOneLayoutKeepOneShape : Obligations.RunsOfOneLayoutKeepOneShape := by
  intro is is' s1 s1' s2 s2' his hshape hrsp hrun1 hrun2
  induction his generalizing s1 s2 with
  | nil =>
    obtain ⟨hdone1, -⟩ := hrun1
    obtain ⟨hdone2, -⟩ := hrun2
    cases hdone1
    cases hdone2
    exact ⟨hshape, hrsp⟩
  | cons hi _ ih =>
    obtain ⟨m1, hnext1, hok1, hrest1⟩ := runSucceeds_cons_iff.1 hrun1
    obtain ⟨m2, hnext2, hok2, hrest2⟩ := runSucceeds_cons_iff.1 hrun2
    obtain ⟨hs1, -, hc1⟩ := completed_of_next hnext1 hok1
    obtain ⟨hs2, -, hc2⟩ := completed_of_next hnext2 hok2
    obtain ⟨hshape', hrsp'⟩ := completed_sameShape hi hshape hs1 hs2 hc1 hc2
    exact ih m1 m2 hshape' hrsp' hrest1 hrest2

end Sys2Proof.Machine

/-! ## Gadgets on known operands: O25, O26, O27, O28, O30 (spec/42_boolean_gadgets.md) -/

namespace Sys2Proof.Machine

section

variable {s s' : State} {tb : List (Nat × Option Nat)} {x y z : Operand} {r t d : Nat}

/-! ### Certified pairs under `TABLE_OK` (R33, R131) -/

/-- R131: under `TABLE_OK` the pairs of the table are the half-words with their spreads. -/
theorem inTable_iff (htb : TableOk tb) {n : Nat} : inTable tb d n = true ↔ d < 2 ^ 16 ∧ n = spread16 d := by
  rw [inTable, Bool.and_eq_true, decide_eq_true_iff, decide_eq_true_iff]
  exact and_congr_right fun hd => by rw [htb d hd, Option.some.injEq, eq_comm]

/-- R33: a certified row holds `Unresolved` in both cells, or a half-word and its spread. -/
theorem certifiedRow_cases (htb : TableOk s.table) (h : certifiedRow s r = true) :
    (cellRead s .ld r = .assigned .unresolved ∧ cellRead s .ls r = .assigned .unresolved) ∨
    ∃ d < 2 ^ 16, cellRead s .ld r = .assigned (.known d) ∧ cellRead s .ls r = .assigned (.known (spread16 d)) := by
  unfold certifiedRow at h
  split at h
  case h_1 hd hl => exact .inl ⟨hd, hl⟩
  case h_2 d n hd hl =>
    obtain ⟨hlt, rfl⟩ := (inTable_iff htb).1 h
    exact .inr ⟨d, hlt, hd, hl⟩
  case h_3 => cases h

/-- R33, R131: the spread cell beside a known dense cell holds its spread. -/
theorem spread_of_dense (htb : TableOk s.table) (h : CertifiedRows s) (hv : ValidHandle s r)
    (hd : cellRead s .ld r = .assigned (.known d)) : cellRead s .ls r = .assigned (.known (spread16 d)) := by
  rcases certifiedRow_cases htb (h r hv.2) with ⟨hd', -⟩ | ⟨d', -, hd', hl⟩
  · rw [hd] at hd'; cases hd'
  · rw [hd] at hd'; cases hd'; exact hl

theorem operandValue_lt {v : Nat} (hx : OperandValue s x v) : v < 2 ^ 32 := by
  obtain ⟨-, -, -, -, hv⟩ := hx
  exact hv

/-- R32, R131: the spread halves of an operand with a known value are the spreads of its half-words. -/
theorem spreadHalves_of_operandValue {v : Nat} (htb : TableOk s.table) (h : CertifiedRows s) (hx : OperandValue s x v) :
    SpreadHalves s x (.known (spread16 (lo16 v))) (.known (spread16 (hi16 v))) := by
  obtain ⟨hlo, hhi, dlo, dhi, -⟩ := hx
  exact ⟨hlo, hhi, spread_of_dense htb h hlo dlo, spread_of_dense htb h hhi dhi⟩

/-! ### Accumulators as sums of windows (R160, R161) -/

/-- R160: the halves of an operand join to its spread. -/
theorem join64_spread (v : Nat) : join64 (.known (spread16 (lo16 v))) (.known (spread16 (hi16 v))) = .known (spread 32 v) := by
  rw [spread_32_halves]; rfl

/-- R186: the complemented halves join to the spread of the complement. -/
theorem join64_negSpread {v : Nat} (hv : v < 2 ^ 32) :
    join64 ((Val.known (spread16 (lo16 v))).vmap negSpread) ((Val.known (spread16 (hi16 v))).vmap negSpread) =
      .known (spread 32 (notW 32 v)) := by
  rw [← negSpread_halves hv]; rfl

/-- R162: a sum of 32 windows fits 64 bits. -/
theorem windows_lt (e o : Nat) : spread 32 e + 2 * spread 32 o < 2 ^ 64 := by
  have he := three_mul_spread_lt 32 e
  have ho := three_mul_spread_lt 32 o
  rw [show (4 : Nat) ^ 32 = 2 ^ 64 by norm_num] at he ho
  omega

theorem accFits_windows (e o : Nat) : AccFits (.known (spread 32 e + 2 * spread 32 o)) := by
  rintro n ⟨⟩
  exact windows_lt e o

/-- R12: the halves of a sum of 32 windows are sums of 16 windows each. -/
theorem halves_windows (e o : Nat) :
    lo32 (spread 32 e + 2 * spread 32 o) = spread16 (lo16 e) + 2 * spread16 (lo16 o) ∧
    hi32 (spread 32 e + 2 * spread 32 o) = spread16 (hi16 e) + 2 * spread16 (hi16 o) := by
  have hlt : ∀ a b, spread16 a + 2 * spread16 b < 2 ^ 32 := by
    intro a b
    have ha := spread16_le a
    have hb := spread16_le b
    rw [m16] at ha hb
    omega
  have hsum : spread 32 e + 2 * spread 32 o = spread16 (lo16 e) + 2 * spread16 (lo16 o) +
      2 ^ 32 * (spread16 (hi16 e) + 2 * spread16 (hi16 o)) := by
    rw [spread_32_halves, spread_32_halves]; ring
  rw [hsum]
  refine ⟨slice_head _ (hlt _ _), (slice_skip _ 0 32 (hlt _ _)).trans ?_⟩
  rw [slice, Nat.pow_zero, Nat.div_one, Nat.mod_eq_of_lt (hlt _ _)]

/-- R161: the candidates of a sum of windows are the half-words of its even and of its odd bits. -/
theorem split4_windows (e o : Nat) : split4 (.known (spread 32 e + 2 * spread 32 o)) =
    ⟨.known (lo16 e), .known (lo16 o), .known (hi16 e), .known (hi16 o)⟩ := by
  obtain ⟨hlo, hhi⟩ := halves_windows e o
  obtain ⟨elo, olo⟩ := evenBits_oddBits_spread16_add (lo16_lt e) (lo16_lt o)
  obtain ⟨ehi, ohi⟩ := evenBits_oddBits_spread16_add (hi16_lt e) (hi16_lt o)
  simp only [split4, Val.vmap, hlo, hhi, elo, olo, ehi, ohi]

/-- R131: under `TABLE_OK` every candidate below 2^16 has an image. -/
theorem tableImage_exists {v : Val} (htb : TableOk tb) (hv : ∀ c, v = .known c → c < 2 ^ 16) : ∃ i, TableImage tb v i := by
  cases v with
  | unresolved => exact ⟨.unresolved, rfl⟩
  | known c => exact ⟨_, hv c rfl, _, htb c (hv c rfl), rfl⟩

/-- R142: under `TABLE_OK` the certification of an accumulator does not fail. -/
theorem tableImages_split4 (htb : TableOk tb) (acc : Val) : ∃ i, TableImages tb (split4 acc) i := by
  have himage : ∀ k v, (split4 acc).toList[k]? = some v → ∃ i, TableImage tb v i := fun k v hv =>
    tableImage_exists htb fun c hc => split4_lt (k := k) (hc ▸ hv)
  obtain ⟨i0, h0⟩ := himage 0 _ rfl
  obtain ⟨i1, h1⟩ := himage 1 _ rfl
  obtain ⟨i2, h2⟩ := himage 2 _ rfl
  obtain ⟨i3, h3⟩ := himage 3 _ rfl
  exact ⟨⟨i0, i1, i2, i3⟩, h0, h1, h2, h3⟩

/-! ### The pairs a gadget certifies -/

theorem lo16_add_hi16 {v : Nat} (hv : v < 2 ^ 32) : lo16 v + 2 ^ 16 * hi16 v = v := by
  simp only [lo16, hi16, slice]
  omega

theorem pairNumber_of_dense {v : Nat} (hv : v < 2 ^ 32) (hlo : cellRead s .ld x.lo = .assigned (.known (lo16 v)))
    (hhi : cellRead s .ld x.hi = .assigned (.known (hi16 v))) : pairNumber s x = some v := by
  rw [pairNumber, numRead_assigned hlo, numRead_assigned hhi]
  exact congrArg some (lo16_add_hi16 hv)

/-- R143, R161: a gadget whose accumulator is a sum of windows holds the even bits in its even pair and the odd bits in its
odd pair. -/
theorem GadgetEffect.pairNumbers {flag : BitCol} {acc : Val} {i : Candidates} {cells : List (CellRef × Val)} {e o : Nat}
    (h : GadgetEffect s s' flag t acc i cells) (hacc : acc = .known (spread 32 e + 2 * spread 32 o)) (he : e < 2 ^ 32)
    (ho : o < 2 ^ 32) : pairNumber s' ⟨t, t + 2⟩ = some e ∧ pairNumber s' ⟨t + 1, t + 3⟩ = some o := by
  subst hacc
  have hrow : ∀ k v, (split4 (.known (spread 32 e + 2 * spread 32 o))).toList[k]? = some v →
      cellRead s' .ld (t + k) = .assigned v := fun k v hv => (h.lookup_row hv).1
  rw [split4_windows] at hrow
  exact ⟨pairNumber_of_dense he (hrow 0 _ rfl) (hrow 2 _ rfl), pairNumber_of_dense ho (hrow 1 _ rfl) (hrow 3 _ rfl)⟩

/-! ### The accumulators of the gadgets on known operands -/

theorem xor_three_lt {a b c : Nat} (ha : a < 2 ^ 32) (hb : b < 2 ^ 32) (hc : c < 2 ^ 32) : a ^^^ b ^^^ c < 2 ^ 32 :=
  Nat.xor_lt_two_pow (Nat.xor_lt_two_pow ha hb) hc

theorem majority_lt {a b c : Nat} (hb : b < 2 ^ 32) (hc : c < 2 ^ 32) :
    (a &&& b) ||| (a &&& c) ||| (b &&& c) < 2 ^ 32 :=
  Nat.or_lt_two_pow (Nat.or_lt_two_pow (Nat.and_lt_two_pow a hb) (Nat.and_lt_two_pow a hc)) (Nat.and_lt_two_pow b hc)

section

variable {vx vy vz : Nat}

/-- R165, R172: F1 sums the windows of XOR and of the majority. -/
theorem f1Sum_spread (vx vy vz : Nat) :
    f1Sum (.known (spread16 (lo16 vx))) (.known (spread16 (hi16 vx))) (.known (spread16 (lo16 vy)))
      (.known (spread16 (hi16 vy))) (.known (spread16 (lo16 vz))) (.known (spread16 (hi16 vz))) =
    .known (spread 32 (vx ^^^ vy ^^^ vz) + 2 * spread 32 ((vx &&& vy) ||| (vx &&& vz) ||| (vy &&& vz))) := by
  rw [spread_full_adder, f1Sum, join64_spread, join64_spread, join64_spread]; rfl

/-- R175, R182: CH sums the windows of XOR and of AND. -/
theorem pairSum_spread (vx vy : Nat) :
    pairSum (.known (spread16 (lo16 vx))) (.known (spread16 (hi16 vx))) (.known (spread16 (lo16 vy)))
      (.known (spread16 (hi16 vy))) = .known (spread 32 (vx ^^^ vy) + 2 * spread 32 (vx &&& vy)) := by
  rw [spread_xor_add_spread_and, pairSum, join64_spread, join64_spread]; rfl

/-- R185, R192: CHNEG sums the windows of CH on the complement of its first operand. -/
theorem pairSum_negSpread (hx : vx < 2 ^ 32) (vz : Nat) :
    pairSum ((Val.known (spread16 (lo16 vx))).vmap negSpread) ((Val.known (spread16 (hi16 vx))).vmap negSpread)
      (.known (spread16 (lo16 vz))) (.known (spread16 (hi16 vz))) =
    .known (spread 32 (notW 32 vx ^^^ vz) + 2 * spread 32 (notW 32 vx &&& vz)) := by
  rw [spread_xor_add_spread_and, pairSum, join64_negSpread hx, join64_spread]; rfl

variable (htb : TableOk s.table) (hinv : CertifiedRows s) (hok : NoAbort s')
include htb hinv hok

/-- R166, R172: both pairs of a completed F1 on known operands. -/
theorem f1_pairs (hx : OperandValue s x vx) (hy : OperandValue s y vy) (hz : OperandValue s z vz)
    (hnext : exec (.f1 t x y z) s = .next s') :
    pairNumber s' ⟨t, t + 2⟩ = some (vx ^^^ vy ^^^ vz) ∧
    pairNumber s' ⟨t + 1, t + 3⟩ = some ((vx &&& vy) ||| (vx &&& vz) ||| (vy &&& vz)) := by
  obtain ⟨acc, i, cells, hacc, he⟩ := gadgetEffect_of_next (.inl ⟨⟨x, y, z, rfl⟩, rfl⟩) hnext hok
  have hknown : GadgetAccumulator s (.f1 t x y z) _ :=
    ⟨_, _, _, _, _, _, spreadHalves_of_operandValue htb hinv hx, spreadHalves_of_operandValue htb hinv hy,
      spreadHalves_of_operandValue htb hinv hz, (f1Sum_spread vx vy vz).symm⟩
  exact he.pairNumbers (gadgetAccumulator_unique hknown hacc)
    (xor_three_lt (operandValue_lt hx) (operandValue_lt hy) (operandValue_lt hz))
    (majority_lt (operandValue_lt hy) (operandValue_lt hz))

/-- R176, R182: both pairs of a completed CH on known operands. -/
theorem ch_pairs (hx : OperandValue s x vx) (hy : OperandValue s y vy) (hnext : exec (.ch t x y) s = .next s') :
    pairNumber s' ⟨t, t + 2⟩ = some (vx ^^^ vy) ∧ pairNumber s' ⟨t + 1, t + 3⟩ = some (vx &&& vy) := by
  obtain ⟨acc, i, cells, hacc, he⟩ := gadgetEffect_of_next (.inr (.inl ⟨⟨x, y, rfl⟩, rfl⟩)) hnext hok
  have hknown : GadgetAccumulator s (.ch t x y) _ :=
    ⟨_, _, _, _, spreadHalves_of_operandValue htb hinv hx, spreadHalves_of_operandValue htb hinv hy,
      (pairSum_spread vx vy).symm⟩
  exact he.pairNumbers (gadgetAccumulator_unique hknown hacc)
    (Nat.xor_lt_two_pow (operandValue_lt hx) (operandValue_lt hy)) (Nat.and_lt_two_pow vx (operandValue_lt hy))

/-- R192, R266: both pairs of a completed CHNEG on known operands. -/
theorem chneg_pairs (hx : OperandValue s x vx) (hz : OperandValue s z vz) (hnext : exec (.chneg t x z) s = .next s') :
    pairNumber s' ⟨t, t + 2⟩ = some (notW 32 vx ^^^ vz) ∧
    pairNumber s' ⟨t + 1, t + 3⟩ = some (notW 32 vx &&& vz) := by
  obtain ⟨acc, i, cells, hacc, he⟩ := gadgetEffect_of_next (.inr (.inr ⟨⟨x, z, rfl⟩, rfl⟩)) hnext hok
  have hknown : GadgetAccumulator s (.chneg t x z) _ :=
    ⟨_, _, _, _, spreadHalves_of_operandValue htb hinv hx, spreadHalves_of_operandValue htb hinv hz,
      (pairSum_negSpread (operandValue_lt hx) vz).symm⟩
  exact he.pairNumbers (gadgetAccumulator_unique hknown hacc)
    (Nat.xor_lt_two_pow (notW_32_lt vx) (operandValue_lt hz)) (Nat.and_lt_two_pow _ (operandValue_lt hz))

end

/-! ### Accumulators fit (R162) -/

/-- The numbers in the spread cells of certified rows are spreads. -/
theorem numRead_spread (htb : TableOk s.table) (h : CertifiedRows s) (hv : ValidHandle s r) {n : Nat}
    (hn : numRead s .ls r = some n) : ∃ d < 2 ^ 16, n = spread16 d := by
  rcases certifiedRow_cases htb (h r hv.2) with ⟨-, hl⟩ | ⟨d, hd, -, hl⟩
  · rw [numRead_assigned hl] at hn; cases hn
  · rw [numRead_assigned hl] at hn; cases hn; exact ⟨d, hd, rfl⟩

theorem readable_of_valid (htb : TableOk s.table) (h : CertifiedRows s) (hv : ValidHandle s r) : Readable s .ls r := by
  refine ⟨hv, ?_⟩
  rcases certifiedRow_cases htb (h r hv.2) with ⟨-, hl⟩ | ⟨d, -, -, hl⟩ <;> simp [hl]

theorem operandReadable_of_valid (htb : TableOk s.table) (h : CertifiedRows s)
    (hx : ValidHandle s x.lo ∧ ValidHandle s x.hi) : OperandReadable s x :=
  ⟨readable_of_valid htb h hx.1, readable_of_valid htb h hx.2⟩

/-- An operand whose halves under `g` stay within `M16` has a number of 32 windows holding at most 1. -/
theorem operandNumber_le {g : Nat → Nat} (hg : ∀ d < 2 ^ 16, g (spread16 d) ≤ m16) (htb : TableOk s.table)
    (h : CertifiedRows s) (hx : ValidHandle s x.lo ∧ ValidHandle s x.hi) :
    ∀ n, operandNumber s g x = some n → n ≤ joinHalves m16 m16 := by
  intro n hn
  obtain ⟨lo, hlo, hn⟩ := Option.bind_eq_some_iff.1 hn
  obtain ⟨hi, hhi, hn⟩ := Option.bind_eq_some_iff.1 hn
  obtain ⟨d, hd, rfl⟩ := numRead_spread htb h hx.1 hlo
  obtain ⟨d', hd', rfl⟩ := numRead_spread htb h hx.2 hhi
  cases hn
  have hlow := hg d hd
  have hhigh := hg d' hd'
  simp only [joinHalves]
  omega

theorem id_spread16_le : ∀ d < 2 ^ 16, id (spread16 d) ≤ m16 := fun d _ => (id_eq (spread16 d)).trans_le (spread16_le d)

theorem negSpread_spread16_le : ∀ d < 2 ^ 16, negSpread (spread16 d) ≤ m16 := fun d hd => by
  rw [negSpread_spread16 hd]; exact spread16_le _

/-- A sum of known numbers none of which exceeds `b`. -/
theorem sumKnown_le {b : Nat} {xs : List (Option Nat)} (h : ∀ o ∈ xs, ∀ n, o = some n → n ≤ b) :
    (sumKnown xs).getD 0 ≤ xs.length * b := by
  induction xs with
  | nil => simp [sumKnown]
  | cons o xs ih =>
    obtain ⟨ho, hxs⟩ := List.forall_mem_cons.1 h
    cases o with
    | none => simp [sumKnown]
    | some n =>
      have hrest := ih hxs
      have hn := ho n rfl
      rw [List.length_cons, Nat.succ_mul, sumKnown]
      cases hsum : sumKnown xs with
      | none => simp
      | some m =>
        rw [hsum] at hrest
        simp only [Option.map_some, Option.getD_some] at hrest ⊢
        omega

/-- R162: at most three operands of 32 windows holding at most 1 fit 64 bits. -/
theorem sumFits_of_le {xs : List (Option Nat)} (hlen : xs.length ≤ 3)
    (h : ∀ o ∈ xs, ∀ n, o = some n → n ≤ joinHalves m16 m16) : SumFits xs := by
  have hsum := sumKnown_le h
  have hthree : xs.length * joinHalves m16 m16 ≤ 3 * joinHalves m16 m16 := Nat.mul_le_mul_right _ hlen
  have hmax : 3 * joinHalves m16 m16 < 2 ^ 64 := by decide
  exact lt_of_le_of_lt (hsum.trans hthree) hmax

end

/-- A command that completed has not aborted the run. -/
theorem Effect.noAbort {s s' : State} {cells : List (CellRef × Val)} {bits : List (BitCol × Nat)} {entries : List EqEntry}
    {handles : Handles} (he : Effect s s' cells bits entries handles) (hs : NoAbort s) : NoAbort s' := by
  rw [NoAbort, he.status]
  exact hs

/-- Settles O25: the command completes (O22) since the sum is one of 32 windows, and its even pair holds the XOR. -/
theorem f1ComputesXorOfThree : Obligations.F1ComputesXorOfThree := by
  intro s t b c d vb vc vd hs htb hinv hfree hb hc hd
  have hbx := spreadHalves_of_operandValue htb hinv hb
  have hcx := spreadHalves_of_operandValue htb hinv hc
  have hdx := spreadHalves_of_operandValue htb hinv hd
  obtain ⟨i, hi⟩ := tableImages_split4 htb (f1Sum _ _ _ _ _ _)
  have hcomplete := f1CopiesSumsAndCertifies.1 s t b c d _ _ _ _ _ _ _ hs hfree hbx hcx hdx (f1Sum_spread vb vc vd).symm
    (accFits_windows _ _)
  obtain ⟨s', hnext, he⟩ := (hcomplete.1 (by simp [Resolved])).1 i (f1Sum_spread vb vc vd ▸ hi)
  have hok := he.noAbort hs
  exact ⟨s', hnext, hok, by rw [he.rsp]; rfl, (f1_pairs htb hinv hok hb hc hd hnext).1⟩

/-- Settles O26, as `f1ComputesXorOfThree` does O25, with the odd pair. -/
theorem chComputesAnd : Obligations.ChComputesAnd := by
  intro s t x y vx vy hs htb hinv hfree hx hy
  have hxx := spreadHalves_of_operandValue htb hinv hx
  have hyx := spreadHalves_of_operandValue htb hinv hy
  obtain ⟨i, hi⟩ := tableImages_split4 htb (pairSum _ _ _ _)
  have hcomplete := chCopiesSumsAndCertifies.1 s t x y _ _ _ _ _ hs hfree hxx hyx (pairSum_spread vx vy).symm
    (accFits_windows _ _)
  obtain ⟨s', hnext, he⟩ := (hcomplete.1 (by simp [Resolved])).1 i (pairSum_spread vx vy ▸ hi)
  have hok := he.noAbort hs
  exact ⟨s', hnext, hok, by rw [he.rsp]; rfl, (ch_pairs htb hinv hok hx hy hnext).2⟩

/-- Settles O27, as `chComputesAnd` does O26, on the complement of X. -/
theorem chnegComputesAndWithComplement : Obligations.ChnegComputesAndWithComplement := by
  intro s t x z vx vz hs htb hinv hfree hx hz
  have hxx := spreadHalves_of_operandValue htb hinv hx
  have hzx := spreadHalves_of_operandValue htb hinv hz
  have hlt := operandValue_lt hx
  obtain ⟨i, hi⟩ := tableImages_split4 htb (pairSum _ _ _ _)
  have hcomplete := chnegComplementsSumsAndCertifies.1 s t x z _ _ _ _ _ hs hfree hxx hzx (pairSum_negSpread hlt vz).symm
    (accFits_windows _ _)
  obtain ⟨s', hnext, he⟩ := (hcomplete.1 (by simp [Resolved])).1 i (pairSum_negSpread hlt vz ▸ hi)
  have hok := he.noAbort hs
  exact ⟨s', hnext, hok, by rw [he.rsp]; rfl, (chneg_pairs htb hinv hok hx hz hnext).2⟩

/-- Settles O28: the other pair of each gadget. -/
theorem unreturnedPairsHoldMajorityAndXor : Obligations.UnreturnedPairsHoldMajorityAndXor := by
  intro s s' t htb hinv hok
  refine ⟨fun b c d vb vc vd hb hc hd hnext => (f1_pairs htb hinv hok hb hc hd hnext).2, fun x y vx vy hx hy => ?_⟩
  exact ⟨fun hnext => (ch_pairs htb hinv hok hx hy hnext).1, fun hnext => (chneg_pairs htb hinv hok hx hy hnext).1⟩

/-- Settles O30: valid handles read certified rows, whose spreads, complemented or not, stay within `M16`. -/
theorem accumulatorsFitUnderTableOk : Obligations.AccumulatorsFitUnderTableOk := by
  intro s t htb hinv
  refine ⟨fun b c d hfree hvalid => ?_, fun x y hvalid => ?_⟩
  · simp only [List.forall_mem_cons] at hvalid
    obtain ⟨bLo, bHi, cLo, cHi, dLo, dHi, -⟩ := hvalid
    refine ⟨hfree, operandReadable_of_valid htb hinv ⟨bLo, bHi⟩, operandReadable_of_valid htb hinv ⟨cLo, cHi⟩,
      operandReadable_of_valid htb hinv ⟨dLo, dHi⟩, sumFits_of_le le_rfl ?_⟩
    simp only [List.forall_mem_cons]
    exact ⟨operandNumber_le id_spread16_le htb hinv ⟨bLo, bHi⟩, operandNumber_le id_spread16_le htb hinv ⟨cLo, cHi⟩,
      operandNumber_le id_spread16_le htb hinv ⟨dLo, dHi⟩, List.forall_mem_nil _⟩
  · simp only [List.forall_mem_cons] at hvalid
    obtain ⟨xLo, xHi, yLo, yHi, -⟩ := hvalid
    have hx := operandReadable_of_valid htb hinv ⟨xLo, xHi⟩
    have hy := operandReadable_of_valid htb hinv ⟨yLo, yHi⟩
    have hyle := operandNumber_le id_spread16_le htb hinv ⟨yLo, yHi⟩
    refine ⟨fun hfree => ⟨hfree, hx, hy, sumFits_of_le (Nat.le_succ 2) ?_⟩,
      fun hfree => ⟨hfree, hx, hy, sumFits_of_le (Nat.le_succ 2) ?_⟩⟩ <;> simp only [List.forall_mem_cons]
    · exact ⟨operandNumber_le id_spread16_le htb hinv ⟨xLo, xHi⟩, hyle, List.forall_mem_nil _⟩
    · exact ⟨operandNumber_le negSpread_spread16_le htb hinv ⟨xLo, xHi⟩, hyle, List.forall_mem_nil _⟩

end Sys2Proof.Machine

/-! ## The enforced relations: O33 to O39 (spec/43_constraint_system.md) -/

namespace Sys2Proof.Machine

section

variable {s s' a : State} {i : Instr} {x y z : Operand} {col : CellCol} {r t v n : Nat}

/-! ### Numbers read -/

theorem numRead_eq_some_iff : numRead s col r = some n ↔ cellRead s col r = .assigned (.known n) := by
  unfold numRead
  split
  case h_1 m hm => rw [hm, Option.some.injEq, Cell.assigned.injEq, Val.known.injEq]
  case h_2 hother => exact ⟨fun h => (by cases h), fun h => absurd h (hother n)⟩

theorem lookupHolds_iff : lookupHolds s r = true ↔
    ∃ d m, numRead s .ld r = some d ∧ numRead s .ls r = some m ∧ inTable s.table d m = true := by
  unfold lookupHolds
  cases numRead s .ld r <;> cases numRead s .ls r <;> simp

theorem eqHolds_iff {e : EqEntry} : eqHolds s e = true ↔
    ∃ m, numRead s e.left.col e.left.row = some m ∧ numRead s e.right.col e.right.row = some m := by
  unfold eqHolds
  cases numRead s e.left.col e.left.row <;> cases numRead s e.right.col e.right.row <;> simp [eq_comm]

theorem gateLeft_eq_some_iff {l : Nat} : gateLeft s t = some l ↔
    ∃ a b c d, numRead s .ls t = some a ∧ numRead s .ls (t + 1) = some b ∧ numRead s .ls (t + 2) = some c ∧
      numRead s .ls (t + 3) = some d ∧ a + 2 * b + 2 ^ 32 * (c + 2 * d) = l := by
  simp [gateLeft, Option.bind_eq_some_iff]

theorem gateSummand_eq_some_iff {l : Nat} : gateSummand s col t = some l ↔
    ∃ a b, numRead s col t = some a ∧ numRead s col (t + 1) = some b ∧ a + 2 ^ 32 * b = l := by
  simp [gateSummand, Option.bind_eq_some_iff]

/-! ### Gates as equations (R170, R180, R190) -/

theorem f1Gate_iff : f1Gate s t = true ↔ ∃ l a b c, gateLeft s t = some l ∧ gateSummand s .w0 t = some a ∧
    gateSummand s .w1 t = some b ∧ gateSummand s .w2 t = some c ∧ l = a + b + c := by
  unfold f1Gate
  cases gateLeft s t <;> cases gateSummand s .w0 t <;> cases gateSummand s .w1 t <;> cases gateSummand s .w2 t <;> simp

theorem chGate_iff : chGate s t = true ↔ ∃ l a b, gateLeft s t = some l ∧ gateSummand s .w0 t = some a ∧
    gateSummand s .w1 t = some b ∧ l = a + b := by
  unfold chGate
  cases gateLeft s t <;> cases gateSummand s .w0 t <;> cases gateSummand s .w1 t <;> simp

theorem chnegGate_iff : chnegGate s t = true ↔ ∃ l a b, gateLeft s t = some l ∧ gateSummand s .w2 t = some a ∧
    gateSummand s .w1 t = some b ∧ l = a + b := by
  unfold chnegGate
  cases gateLeft s t <;> cases gateSummand s .w2 t <;> cases gateSummand s .w1 t <;> simp

theorem chnegLink_iff : chnegLink s r = true ↔
    ∃ a b, numRead s .w0 r = some a ∧ numRead s .w2 r = some b ∧ a + b = m16 := by
  unfold chnegLink
  cases numRead s .w0 r <;> cases numRead s .w2 r <;> simp

/-! ### Lookups determine the dense values (R207) -/

/-- R201: under `TABLE_OK` an enabled row holds a half-word and its spread. -/
theorem lookup_row (htb : TableOk s.table) (hlook : LookupClause s) (hr : ValidHandle s r) :
    ∃ d < 2 ^ 16, cellRead s .ld r = .assigned (.known d) ∧ cellRead s .ls r = .assigned (.known (spread16 d)) := by
  obtain ⟨d, m, hd, hm, hpair⟩ := lookupHolds_iff.1 (hlook r hr.1 hr.2)
  obtain ⟨hlt, rfl⟩ := (inTable_iff htb).1 hpair
  exact ⟨d, hlt, numRead_eq_some_iff.1 hd, numRead_eq_some_iff.1 hm⟩

/-- R207: an operand of enabled rows holds a 32-bit number, and the spreads of its half-words. -/
theorem lookup_operand (htb : TableOk s.table) (hlook : LookupClause s)
    (hx : ValidHandle s x.lo ∧ ValidHandle s x.hi) :
    ∃ v, OperandValue s x v ∧ SpreadHalves s x (.known (spread16 (lo16 v))) (.known (spread16 (hi16 v))) := by
  obtain ⟨hlo, hhi⟩ := hx
  obtain ⟨d, hd, dlo, slo⟩ := lookup_row htb hlook hlo
  obtain ⟨d', hd', dhi, shi⟩ := lookup_row htb hlook hhi
  have hlow : lo16 (d + 2 ^ 16 * d') = d := by simp only [lo16, slice]; omega
  have hhigh : hi16 (d + 2 ^ 16 * d') = d' := by simp only [hi16, slice]; omega
  refine ⟨d + 2 ^ 16 * d', ?_, ?_⟩
  · rw [OperandValue, hlow, hhigh]
    exact ⟨hlo, hhi, dlo, dhi, by omega⟩
  · rw [hlow, hhigh]
    exact ⟨hlo, hhi, slo, shi⟩

theorem pairNumber_of_operandValue (hx : OperandValue s x v) : pairNumber s x = some v := by
  obtain ⟨-, -, hlo, hhi, hv⟩ := hx
  exact pairNumber_of_dense hv hlo hhi

/-- R170, R207: the left side of a gate over enabled rows is a sum of windows, whose even and odd bits are the dense numbers
of the two pairs. -/
theorem gateLeft_of_lookup (htb : TableOk s.table) (hlook : LookupClause s) (hrows : ∀ k < 4, ValidHandle s (t + k)) :
    ∃ e < 2 ^ 32, ∃ o < 2 ^ 32, pairNumber s ⟨t, t + 2⟩ = some e ∧ pairNumber s ⟨t + 1, t + 3⟩ = some o ∧
      gateLeft s t = some (spread 32 e + 2 * spread 32 o) := by
  obtain ⟨e, heven, -, -, e0, e1⟩ := lookup_operand (x := ⟨t, t + 2⟩) htb hlook ⟨hrows 0 (by decide), hrows 2 (by decide)⟩
  obtain ⟨o, hodd, -, -, o0, o1⟩ := lookup_operand (x := ⟨t + 1, t + 3⟩) htb hlook ⟨hrows 1 (by decide), hrows 3 (by decide)⟩
  refine ⟨e, operandValue_lt heven, o, operandValue_lt hodd, pairNumber_of_operandValue heven, pairNumber_of_operandValue hodd,
    gateLeft_eq_some_iff.2 ⟨_, _, _, _, numRead_eq_some_iff.2 e0, numRead_eq_some_iff.2 o0, numRead_eq_some_iff.2 e1,
      numRead_eq_some_iff.2 o1, ?_⟩⟩
  rw [spread_32_halves, spread_32_halves]
  ring

/-- R170: a witness pair that holds the spread halves of a number holds its spread. -/
theorem gateSummand_spread (hlo : numRead s col t = some (spread16 (lo16 v)))
    (hhi : numRead s col (t + 1) = some (spread16 (hi16 v))) : gateSummand s col t = some (spread 32 v) :=
  gateSummand_eq_some_iff.2 ⟨_, _, hlo, hhi, (spread_32_halves v).symm⟩

/-- R202: the copies of an operand hold its spread halves. -/
theorem numRead_of_copies {lo hi : Nat} (hcopy : ∀ e ∈ copiedEntries col t x, eqHolds s e = true)
    (hx : SpreadHalves s x (.known lo) (.known hi)) : numRead s col t = some lo ∧ numRead s col (t + 1) = some hi := by
  obtain ⟨-, -, hlo, hhi⟩ := hx
  simp only [copiedEntries, List.forall_mem_cons, eqHolds_iff, numRead_eq_some_iff.2 hlo, numRead_eq_some_iff.2 hhi,
    Option.some.injEq, exists_eq_left'] at hcopy
  obtain ⟨hlo', hhi', -⟩ := hcopy
  exact ⟨hlo', hhi'⟩

theorem gateSummand_of_copies (hcopy : ∀ e ∈ copiedEntries col t x, eqHolds s e = true)
    (hx : SpreadHalves s x (.known (spread16 (lo16 v))) (.known (spread16 (hi16 v)))) :
    gateSummand s col t = some (spread 32 v) :=
  gateSummand_spread (numRead_of_copies hcopy hx).1 (numRead_of_copies hcopy hx).2

/-- R190: what the link makes of a spread is the spread of the complement. -/
theorem link_iff {d : Nat} (hd : d < 2 ^ 16) : spread16 d + n = m16 ↔ n = spread16 (notW 16 d) := by
  have hsum := spread_notW_add 16 d hd
  rw [m16_eq_spread16, spread16, spread16, spread16]
  omega

/-! ### The layout a command leaves (R204) -/

/-- The assignment `a` has the layout that `i` leaves from `s`: its bits and entries, and the handles valid before. -/
structure LaidOut (i : Instr) (s a : State) : Prop where
  bits : ∀ b ∈ bitsOf i, bitRead a b.1 b.2 = true
  entries : ∀ e ∈ entriesOf i, e ∈ a.eqList
  handles : ∀ h, ValidHandle s h → ValidHandle a h
  rows : a.nRows = s.nRows

theorem sameShape_refl (s : State) : SameShape s s := ⟨rfl, fun _ _ => rfl, fun _ _ => Iff.rfl⟩

/-- R204: every assignment of the shape of the state a command left has its layout. -/
theorem laidOut_of_sameShape (hnext : exec i s = .next s') (hok : NoAbort s') (hshape : SameShape s' a)
    (hrows : a.nRows = s'.nRows) : LaidOut i s a := by
  obtain ⟨hs, -, hc⟩ := completed_of_next hnext hok
  obtain ⟨-, hrows', -, -⟩ := exec_keeps_inputs hnext
  obtain ⟨heq, hbit, -⟩ := hshape
  obtain ⟨cells, -, he⟩ := completed_effect hs hc
  refine ⟨fun b hb => ?_, fun e hmem => ?_, fun h hh => ⟨?_, ?_⟩, hrows.trans hrows'⟩
  · rw [hbit]
    exact (completed_bit_iff hs hc _ _).2 (.inl hb)
  · rw [heq, he.eqs]
    exact List.mem_append_right _ hmem
  · rw [hrows, hrows']
    exact hh.1
  · rw [hbit]
    exact (completed_bit_iff hs hc _ _).2 (.inr hh.2)

theorem valid_of_operandReadable (hx : OperandReadable s x) : ValidHandle s x.lo ∧ ValidHandle s x.hi := by
  obtain ⟨⟨hlo, -⟩, hhi, -⟩ := hx
  exact ⟨hlo, hhi⟩

theorem LaidOut.operand (h : LaidOut i s a) (hx : OperandReadable s x) : ValidHandle a x.lo ∧ ValidHandle a x.hi :=
  (valid_of_operandReadable hx).imp (h.handles _) (h.handles _)

/-- The four lookup rows of a gadget at `t` are enabled in its layout. -/
theorem LaidOut.lookupRows (h : LaidOut i s a) (hbits : ∀ b ∈ lookupBits4 t, b ∈ bitsOf i) (ht : t + 3 < s.nRows) :
    ∀ k < 4, ValidHandle a (t + k) := by
  refine fun k hk => ⟨by rw [h.rows]; omega, h.bits (.lq, t + k) (hbits _ ?_)⟩
  exact mem_lookupBits4.2 ⟨rfl, by omega, by omega⟩

/-- R202: the copies a command wired hold in every assignment of its layout that meets the copy clause. -/
theorem LaidOut.copies (h : LaidOut i s a) (hcopy : CopyClause a) : ∀ e ∈ entriesOf i, eqHolds a e = true :=
  fun e he => hcopy e (h.entries e he)

end

/-- Settles O35: the sum of the two rows is a sum of windows, whose even and odd bits are the half-words. -/
theorem gateRowsDetermineDenseValues : Obligations.GateRowsDetermineDenseValues := by
  intro s r a b htb hlook hlt hr hr' ha hb
  obtain ⟨d, hd, dense, spread⟩ := lookup_row htb hlook ⟨by omega, hr⟩
  obtain ⟨d', hd', dense', spread'⟩ := lookup_row htb hlook ⟨hlt, hr'⟩
  rw [numRead_eq_some_iff.2 spread, Option.some.injEq] at ha
  rw [numRead_eq_some_iff.2 spread', Option.some.injEq] at hb
  subst ha hb
  obtain ⟨heven, hodd⟩ := evenBits_oddBits_spread16_add hd hd'
  have hle := spread16_le d
  have hle' := spread16_le d'
  exact ⟨by omega, by rw [heven, numRead_eq_some_iff.2 dense], by rw [hodd, numRead_eq_some_iff.2 dense']⟩

/-! ### Soundness: the gate equation determines both pairs (R208, R209, R210) -/

section

variable {s : State} {t p q : Nat}

/-- R207: when the gate equates the lookup rows to the windows of `p` and `q`, the even pair holds `p` and the odd pair
`q`. -/
theorem pairs_of_gateLeft (htb : TableOk s.table) (hlook : LookupClause s) (hrows : ∀ k < 4, ValidHandle s (t + k))
    (hp : p < 2 ^ 32) (hq : q < 2 ^ 32) (hleft : gateLeft s t = some (spread 32 p + 2 * spread 32 q)) :
    pairNumber s ⟨t, t + 2⟩ = some p ∧ pairNumber s ⟨t + 1, t + 3⟩ = some q := by
  obtain ⟨e, he, o, ho, heven, hodd, hleft'⟩ := gateLeft_of_lookup htb hlook hrows
  rw [hleft', Option.some.injEq] at hleft
  obtain ⟨rfl, rfl⟩ := spread_add_inj he ho hp hq hleft
  exact ⟨heven, hodd⟩

end

/-- Settles O36: the gate equates the lookup rows to the sum of the operands' spreads, the windows of XOR and majority
(`spread_full_adder`). -/
theorem f1LayoutIsSound : Obligations.F1LayoutIsSound := by
  rintro link s s' a t b c d hnext hok hshape hrows htb ⟨-, hlook, hcopy, hgate⟩
  obtain ⟨-, ⟨⟨⟨ht, -⟩, -⟩, hb, hc, hd, -⟩, -⟩ := completed_of_next hnext hok
  have hlaid := laidOut_of_sameShape hnext hok hshape hrows
  obtain ⟨vb, hvb, sb⟩ := lookup_operand htb hlook (hlaid.operand hb)
  obtain ⟨vc, hvc, sc⟩ := lookup_operand htb hlook (hlaid.operand hc)
  obtain ⟨vd, hvd, sd⟩ := lookup_operand htb hlook (hlaid.operand hd)
  have hcopies := hlaid.copies hcopy
  simp only [entriesOf, List.forall_mem_append] at hcopies
  obtain ⟨⟨copyB, copyC⟩, copyD⟩ := hcopies
  have hon := (hgate t (by rw [hlaid.rows]; omega)).1 (hlaid.bits (.sf1, t) (List.mem_cons_self ..))
  obtain ⟨l, nb, nc, nd, hleft, hnb, hnc, hnd, rfl⟩ := f1Gate_iff.1 hon
  obtain rfl := Option.some.inj (hnb.symm.trans (gateSummand_of_copies copyB sb))
  obtain rfl := Option.some.inj (hnc.symm.trans (gateSummand_of_copies copyC sc))
  obtain rfl := Option.some.inj (hnd.symm.trans (gateSummand_of_copies copyD sd))
  rw [← spread_full_adder] at hleft
  have hpairs := pairs_of_gateLeft htb hlook (hlaid.lookupRows (fun _ => List.mem_cons_of_mem _) ht)
    (xor_three_lt (operandValue_lt hvb) (operandValue_lt hvc) (operandValue_lt hvd))
    (majority_lt (operandValue_lt hvc) (operandValue_lt hvd)) hleft
  exact ⟨vb, vc, vd, pairNumber_of_operandValue hvb, pairNumber_of_operandValue hvc, pairNumber_of_operandValue hvd,
    hpairs.1⟩

/-- Settles O37, as `f1LayoutIsSound` does O36, with the windows of XOR and AND. -/
theorem chLayoutIsSound : Obligations.ChLayoutIsSound := by
  rintro link s s' a t x y hnext hok hshape hrows htb ⟨-, hlook, hcopy, hgate⟩
  obtain ⟨-, ⟨⟨⟨ht, -⟩, -⟩, hx, hy, -⟩, -⟩ := completed_of_next hnext hok
  have hlaid := laidOut_of_sameShape hnext hok hshape hrows
  obtain ⟨vx, hvx, sx⟩ := lookup_operand htb hlook (hlaid.operand hx)
  obtain ⟨vy, hvy, sy⟩ := lookup_operand htb hlook (hlaid.operand hy)
  have hcopies := hlaid.copies hcopy
  simp only [entriesOf, List.forall_mem_append] at hcopies
  obtain ⟨copyX, copyY⟩ := hcopies
  have hon := (hgate t (by rw [hlaid.rows]; omega)).2.1 (hlaid.bits (.sch, t) (List.mem_cons_self ..))
  obtain ⟨l, nx, ny, hleft, hnx, hny, rfl⟩ := chGate_iff.1 hon
  obtain rfl := Option.some.inj (hnx.symm.trans (gateSummand_of_copies copyX sx))
  obtain rfl := Option.some.inj (hny.symm.trans (gateSummand_of_copies copyY sy))
  rw [← spread_xor_add_spread_and] at hleft
  have hpairs := pairs_of_gateLeft htb hlook (hlaid.lookupRows (fun _ => List.mem_cons_of_mem _) ht)
    (Nat.xor_lt_two_pow (operandValue_lt hvx) (operandValue_lt hvy)) (Nat.and_lt_two_pow vx (operandValue_lt hvy)) hleft
  exact ⟨vx, vy, pairNumber_of_operandValue hvx, pairNumber_of_operandValue hvy, hpairs.2, hpairs.1⟩

/-- R190: linked to a copied spread, a complemented cell holds the spread of the complement. -/
theorem numRead_w2_of_link {s : State} {r d : Nat} (hd : d < 2 ^ 16) (hcopied : numRead s .w0 r = some (spread16 d))
    (hlink : chnegLink s r = true) : numRead s .w2 r = some (spread16 (notW 16 d)) := by
  obtain ⟨m, n, hm, hn, hsum⟩ := chnegLink_iff.1 hlink
  obtain rfl := Option.some.inj (hm.symm.trans hcopied)
  rw [hn, (link_iff hd).1 hsum]

/-- Settles O38: the links make `W2` the spread of the complement of X; then as O37. -/
theorem chnegLayoutIsSoundWithTheLink : Obligations.ChnegLayoutIsSoundWithTheLink := by
  rintro s s' a t x z hnext hok hshape hrows htb ⟨-, hlook, hcopy, hgate⟩
  obtain ⟨-, ⟨⟨⟨ht, -⟩, -⟩, hx, hz, -⟩, -⟩ := completed_of_next hnext hok
  have hlaid := laidOut_of_sameShape hnext hok hshape hrows
  obtain ⟨vx, hvx, sx⟩ := lookup_operand htb hlook (hlaid.operand hx)
  obtain ⟨vz, hvz, sz⟩ := lookup_operand htb hlook (hlaid.operand hz)
  have hcopies := hlaid.copies hcopy
  simp only [entriesOf, List.forall_mem_append] at hcopies
  obtain ⟨copyX, copyZ⟩ := hcopies
  obtain ⟨hon, hlinks⟩ :=
    (hgate t (by rw [hlaid.rows]; omega)).2.2 (hlaid.bits (.scn, t) (List.mem_cons_self ..))
  obtain ⟨hlinkLo, hlinkHi⟩ := hlinks rfl
  obtain ⟨hcopyLo, hcopyHi⟩ := numRead_of_copies copyX sx
  have hcomplement : gateSummand a .w2 t = some (spread 32 (notW 32 vx)) := by
    obtain ⟨hlo, hhi⟩ := halves_notW_32 (operandValue_lt hvx)
    refine gateSummand_spread ?_ ?_
    · rw [hlo]; exact numRead_w2_of_link (lo16_lt vx) hcopyLo hlinkLo
    · rw [hhi]; exact numRead_w2_of_link (hi16_lt vx) hcopyHi hlinkHi
  obtain ⟨l, nx, nz, hleft, hnx, hnz, rfl⟩ := chnegGate_iff.1 hon
  obtain rfl := Option.some.inj (hnx.symm.trans hcomplement)
  obtain rfl := Option.some.inj (hnz.symm.trans (gateSummand_of_copies copyZ sz))
  rw [← spread_xor_add_spread_and] at hleft
  have hpairs := pairs_of_gateLeft htb hlook (hlaid.lookupRows (fun _ => List.mem_cons_of_mem _) ht)
    (Nat.xor_lt_two_pow (notW_32_lt vx) (operandValue_lt hvz)) (Nat.and_lt_two_pow _ (operandValue_lt hvz)) hleft
  exact ⟨vx, vz, pairNumber_of_operandValue hvx, pairNumber_of_operandValue hvz, hpairs.2⟩

end Sys2Proof.Machine

namespace Sys2Proof.Machine

/-! ### Unsoundness of CHNEG without the link: a counterexample (R210) -/

/-- Rows of one shape: the same enables and flags, and the same cells assigned. -/
abbrev SameRowShape (r r' : RegionRow) : Prop :=
  (∀ b ∈ [BitCol.lq, .sf1, .sch, .scn], r'.bit b = r.bit b) ∧
  (∀ c ∈ [CellCol.ld, .ls, .w0, .w1, .w2], r'.cell c = .unassigned ↔ r.cell c = .unassigned)

theorem SameRowShape.bit {r r' : RegionRow} (h : SameRowShape r r') (b : BitCol) : r'.bit b = r.bit b :=
  h.1 b (by cases b <;> decide)

theorem SameRowShape.cell {r r' : RegionRow} (h : SameRowShape r r') (c : CellCol) :
    r'.cell c = .unassigned ↔ r.cell c = .unassigned :=
  h.2 c (by cases c <;> decide)

/-- Regions that list the same keys with rows of one shape read rows of one shape everywhere. -/
theorem sameRowShape_get {m m' : List (Nat × RegionRow)}
    (h : List.Forall₂ (fun e e' => e'.1 = e.1 ∧ SameRowShape e.2 e'.2) m m') (k : Nat) :
    SameRowShape (sparseGet blankRow m k) (sparseGet blankRow m' k) := by
  induction h with
  | nil => exact ⟨fun _ _ => rfl, fun _ _ => Iff.rfl⟩
  | cons he _ ih =>
    obtain ⟨hkey, hrow⟩ := he
    rw [sparseGet_cons, sparseGet_cons, hkey]
    split
    · exact hrow
    · exact ih

theorem sameShape_of_regions {s s' : State} (heq : s'.eqList = s.eqList)
    (h : List.Forall₂ (fun e e' => e'.1 = e.1 ∧ SameRowShape e.2 e'.2) s.region s'.region) : SameShape s s' :=
  ⟨heq, fun b r => (sameRowShape_get h r).bit b, fun c r => (sameRowShape_get h r).cell c⟩

/-- A certified row with these cells in the witness columns. -/
def gadgetRow (dense spread w0 w1 w2 : Nat) (flag : Bool) : RegionRow :=
  { ld := .assigned (.known dense), ls := .assigned (.known spread), lq := true, w0 := .assigned (.known w0),
    w1 := .assigned (.known w1), w2 := .assigned (.known w2), sf1 := false, sch := false, scn := flag }

/-- A certified row of a number, its witness columns free. -/
def denseRow (dense spread : Nat) : RegionRow :=
  { RegionRow.blank with ld := .assigned (.known dense), ls := .assigned (.known spread), lq := true }

/-- Six rows, the first two certified as 0. -/
def zeroOperands : State :=
  { State.launch 6 [] .witness with region := [(0, denseRow 0 0), (1, denseRow 0 0)] }

/-- The assignment of the counterexample: of the layout CHNEG leaves at row 2 on the operands 0 and 0, with 2 in the first
`W2` cell, where the complement of 0 belongs, and so a 1 in the odd pair. -/
def forgedComplement : State :=
  { zeroOperands with
    region := [(0, denseRow 0 0), (1, denseRow 0 0), (2, gadgetRow 0 0 0 0 2 true), (3, gadgetRow 1 1 0 0 0 false),
      (4, denseRow 0 0), (5, denseRow 0 0)]
    eqList := copiedEntries .w0 2 ⟨0, 1⟩ ++ copiedEntries .w1 2 ⟨0, 1⟩ }

/-- The state CHNEG leaves there: 0xFFFF and 0 in the lookup rows, `M16` in `W2`. -/
def honestComplement : State :=
  respond (pairHandles (oddPair 2))
    { forgedComplement with
      region := [(0, denseRow 0 0), (1, denseRow 0 0), (2, gadgetRow 0xFFFF m16 0 0 m16 true),
        (3, gadgetRow 0 0 0 0 m16 false), (4, denseRow 0xFFFF m16), (5, denseRow 0 0)] }

/-- Settles O39: `forgedComplement` meets every clause but the link, and its odd pair holds 1, not (NOT 0) AND 0. -/
theorem chnegLayoutIsUnsoundWithoutTheLink : Obligations.ChnegLayoutIsUnsoundWithoutTheLink := by
  refine ⟨zeroOperands, honestComplement, forgedComplement, 2, ⟨0, 1⟩, ⟨0, 1⟩, 0, 0, rfl, by decide, ?_, by decide,
    tableOk_of_no_differences, by decide, by decide, by decide, by decide⟩
  exact sameShape_of_regions rfl (by decide)

end Sys2Proof.Machine

/-! ## Completeness: O33, O34 (spec/43_constraint_system.md R206) -/

namespace Sys2Proof.Machine

section

variable {s s' : State} {i : Instr} {tb : List (Nat × Option Nat)} {x y z : Operand} {col : CellCol} {r t n : Nat}
  {v w : Val}

/-! ### What is computed from known values is known -/

theorem vmap_known {f : Nat → Nat} (hv : v ≠ .unresolved) : v.vmap f ≠ .unresolved := by
  cases v with
  | unresolved => exact absurd rfl hv
  | known n => exact Val.noConfusion

theorem vzip_known {f : Nat → Nat → Nat} (hv : v ≠ .unresolved) (hw : w ≠ .unresolved) :
    Val.vzip f v w ≠ .unresolved := by
  cases v with
  | unresolved => exact absurd rfl hv
  | known n =>
    cases w with
    | unresolved => exact absurd rfl hw
    | known m => exact Val.noConfusion

theorem vzip3_known {f : Nat → Nat → Nat → Nat} {u : Val} (hu : u ≠ .unresolved) (hv : v ≠ .unresolved)
    (hw : w ≠ .unresolved) : Val.vzip3 f u v w ≠ .unresolved := by
  cases u with
  | unresolved => exact absurd rfl hu
  | known k =>
    cases v with
    | unresolved => exact absurd rfl hv
    | known n =>
      cases w with
      | unresolved => exact absurd rfl hw
      | known m => exact Val.noConfusion

theorem pairSum_known {xLo xHi yLo yHi : Val} (hx : xLo ≠ .unresolved ∧ xHi ≠ .unresolved)
    (hy : yLo ≠ .unresolved ∧ yHi ≠ .unresolved) : pairSum xLo xHi yLo yHi ≠ .unresolved :=
  vzip_known (vzip_known hx.1 hx.2) (vzip_known hy.1 hy.2)

theorem f1Sum_known {bLo bHi cLo cHi dLo dHi : Val} (hb : bLo ≠ .unresolved ∧ bHi ≠ .unresolved)
    (hc : cLo ≠ .unresolved ∧ cHi ≠ .unresolved) (hd : dLo ≠ .unresolved ∧ dHi ≠ .unresolved) :
    f1Sum bLo bHi cLo cHi dLo dHi ≠ .unresolved :=
  vzip3_known (vzip_known hb.1 hb.2) (vzip_known hc.1 hc.2) (vzip_known hd.1 hd.2)

theorem split4_known {acc : Val} (h : acc ≠ .unresolved) : ∀ v ∈ (split4 acc).toList, v ≠ .unresolved := by
  simp only [split4, Candidates.toList, List.forall_mem_cons]
  exact ⟨vmap_known (vmap_known h), vmap_known (vmap_known h), vmap_known (vmap_known h), vmap_known (vmap_known h),
    List.forall_mem_nil _⟩

theorem tableImage_known (hi : TableImage tb v w) (hv : v ≠ .unresolved) : w ≠ .unresolved := by
  cases v with
  | unresolved => exact absurd rfl hv
  | known c =>
    obtain ⟨-, n, -, rfl⟩ := hi
    exact Val.noConfusion

/-! ### The cells a command assigns are known -/

/-- Every listed cell is given a number. -/
def KnownCells (cells : List (CellRef × Val)) : Prop := ∀ c ∈ cells, c.2 ≠ .unresolved

theorem KnownCells.append {cells cells' : List (CellRef × Val)} (h : KnownCells cells) (h' : KnownCells cells') :
    KnownCells (cells ++ cells') :=
  List.forall_mem_append.2 ⟨h, h'⟩

theorem knownCells_pair {ref ref' : CellRef} (hv : v ≠ .unresolved) (hw : w ≠ .unresolved) :
    KnownCells [(ref, v), (ref', w)] :=
  List.forall_mem_cons.2 ⟨hv, List.forall_mem_cons.2 ⟨hw, List.forall_mem_nil _⟩⟩

theorem knownCells_copied (col : CellCol) (t : Nat) (h : v ≠ .unresolved ∧ w ≠ .unresolved) :
    KnownCells (copiedCells col t v w) :=
  knownCells_pair h.1 h.2

theorem knownCells_certified4 {c xs : Candidates} (hi : TableImages tb c xs) (hc : ∀ v ∈ c.toList, v ≠ .unresolved) :
    KnownCells (certifiedCells4 t c xs) := by
  simp only [Candidates.toList, List.forall_mem_cons] at hc
  obtain ⟨h0, h1, h2, h3, -⟩ := hc
  obtain ⟨i0, i1, i2, i3⟩ := hi
  exact (((knownCells_pair h0 (tableImage_known i0 h0)).append (knownCells_pair h1 (tableImage_known i1 h1))).append
    (knownCells_pair h2 (tableImage_known i2 h2))).append (knownCells_pair h3 (tableImage_known i3 h3))

theorem KnownCells.cellAfter {cells : List (CellRef × Val)} (h : KnownCells cells) (ref : CellRef) {old : Cell}
    (hold : old ≠ .assigned .unresolved) : cellAfter cells ref old ≠ .assigned .unresolved := by
  induction cells with
  | nil => exact hold
  | cons c cells ih =>
    obtain ⟨hc, hrest⟩ := List.forall_mem_cons.1 h
    rw [Machine.cellAfter]
    split
    · exact fun heq => hc (Cell.assigned.inj heq)
    · exact ih hrest

theorem AllKnown.cell (h : AllKnown s) (hr : r < s.nRows) (col : CellCol) :
    cellRead s col r ≠ .assigned .unresolved :=
  h r hr col (by cases col <;> decide)

/-- The halves the copies of an operand read are known when every cell is. -/
theorem operandResolves_known {lo hi : Val} (h : AllKnown s) (hx : OperandReadable s x) (hres : OperandResolves s x lo hi) :
    lo ≠ .unresolved ∧ hi ≠ .unresolved := by
  obtain ⟨⟨⟨hlo, -⟩, -⟩, ⟨hhi, -⟩, -⟩ := hx
  obtain ⟨rlo, rhi, -, -⟩ := hres
  exact ⟨fun heq => AllKnown.cell h hlo .ls (heq ▸ rlo), fun heq => AllKnown.cell h hhi .ls (heq ▸ rhi)⟩

/-- On known cells and known candidates a completed command assigns numbers. -/
theorem completed_knownCells (hs : NoAbort s) (hr : Requires i s) (hc : Completed i s s') (h : AllKnown s)
    (hcand : ∀ v ∈ candidatesOf i, v ≠ .unresolved) :
    ∃ cells, KnownCells cells ∧ Effect s s' cells (bitsOf i) (entriesOf i) (handlesOf i) := by
  cases i with
  | certify t v =>
    obtain ⟨x, hi, rfl⟩ := hc
    have hv : v ≠ .unresolved := hcand v (List.mem_cons_self ..)
    exact ⟨_, knownCells_pair hv (tableImage_known hi hv), certify_effect t v x hs⟩
  | copy k sel w t =>
    obtain ⟨v, hv, -, rfl⟩ := hc
    obtain ⟨-, -, ⟨hk, -⟩, -⟩ := hr
    have hv' : v ≠ .unresolved := fun heq => AllKnown.cell h hk sel.col (heq ▸ hv)
    exact ⟨_, List.forall_mem_cons.2 ⟨hv', List.forall_mem_nil _⟩, copy_effect k sel w t v hs⟩
  | cert4 t a b c d =>
    obtain ⟨x, hi, rfl⟩ := hc
    exact ⟨_, knownCells_certified4 hi hcand, cert4_effect t ⟨a, b, c, d⟩ x hs⟩
  | f1 t b c d =>
    obtain ⟨bLo, bHi, cLo, cHi, dLo, dHi, x, rb, rc, rd, hi, rfl⟩ := hc
    obtain ⟨-, hb, hc, hd, -⟩ := hr
    have kb := operandResolves_known h hb rb
    have kc := operandResolves_known h hc rc
    have kd := operandResolves_known h hd rd
    have hcopied := ((knownCells_copied .w0 t kb).append (knownCells_copied .w1 t kc)).append (knownCells_copied .w2 t kd)
    exact ⟨_, hcopied.append (knownCells_certified4 hi (split4_known (f1Sum_known kb kc kd))),
      f1_effect t b c d bLo bHi cLo cHi dLo dHi _ x hs⟩
  | ch t x y =>
    obtain ⟨xLo, xHi, yLo, yHi, i, rx, ry, hi, rfl⟩ := hc
    obtain ⟨-, hx, hy, -⟩ := hr
    have kx := operandResolves_known h hx rx
    have ky := operandResolves_known h hy ry
    have hcopied := (knownCells_copied .w0 t kx).append (knownCells_copied .w1 t ky)
    exact ⟨_, hcopied.append (knownCells_certified4 hi (split4_known (pairSum_known kx ky))),
      ch_effect t x y xLo xHi yLo yHi _ i hs⟩
  | chneg t x z =>
    obtain ⟨xLo, xHi, zLo, zHi, i, rx, rz, hi, rfl⟩ := hc
    obtain ⟨-, hx, hz, -⟩ := hr
    have kx := operandResolves_known h hx rx
    have kz := operandResolves_known h hz rz
    have kn : xLo.vmap negSpread ≠ .unresolved ∧ xHi.vmap negSpread ≠ .unresolved := ⟨vmap_known kx.1, vmap_known kx.2⟩
    have hcopied := ((knownCells_copied .w0 t kx).append (knownCells_copied .w1 t kz)).append (knownCells_copied .w2 t kn)
    exact ⟨_, hcopied.append (knownCells_certified4 hi (split4_known (pairSum_known kn kz))),
      chneg_effect t x z xLo xHi zLo zHi _ i hs⟩

theorem completed_allKnown (hs : NoAbort s) (hr : Requires i s) (hc : Completed i s s') (h : AllKnown s)
    (hcand : ∀ v ∈ candidatesOf i, v ≠ .unresolved) : AllKnown s' := by
  obtain ⟨cells, hcells, he⟩ := completed_knownCells hs hr hc h hcand
  intro r hlt col hcol
  rw [he.nRows] at hlt
  rw [he.cell]
  exact hcells.cellAfter _ (h r hlt col hcol)

/-! ### The lookup and copy clauses, from the machine's invariant -/

/-- R201: certified rows without an `Unresolved` cell meet the lookup clause. -/
theorem lookupClause_of_certifiedRows (hinv : CertifiedRows s) (h : AllKnown s) : LookupClause s := by
  intro r hr hq
  have hrow := hinv r hq
  unfold certifiedRow at hrow
  split at hrow
  case h_1 hd hl => exact absurd hd (AllKnown.cell h hr .ld)
  case h_2 d m hd hl => exact lookupHolds_iff.2 ⟨d, m, numRead_eq_some_iff.2 hd, numRead_eq_some_iff.2 hl, hrow⟩
  case h_3 => cases hrow

theorem sparseGet_of_not_listed {α : Type} (dflt : Nat → α) {m : List (Nat × α)} {k : Nat} (h : ∀ e ∈ m, e.1 ≠ k) :
    sparseGet dflt m k = dflt k := by
  induction m with
  | nil => rfl
  | cons e m ih =>
    obtain ⟨he, hm⟩ := List.forall_mem_cons.1 h
    rw [sparseGet_cons, if_neg he.symm, ih hm]

/-- R24: an assigned cell is in the region. -/
theorem row_lt_of_assigned (hwf : regionWf s.nRows s.region = true) (hv : cellRead s col r = .assigned v) :
    r < s.nRows := by
  by_contra hge
  obtain ⟨-, hrows⟩ := (regionWf_iff ..).1 hwf
  have hblank : rowRead s r = .blank :=
    sparseGet_of_not_listed blankRow fun e he heq => hge (heq ▸ hrows e he)
  rw [cellRead, hblank, RegionRow.cell_blank] at hv
  cases hv

/-- R202: wired entries without an `Unresolved` cell meet the copy clause. -/
theorem copyClause_of_wired (hwf : regionWf s.nRows s.region = true) (hwired : ∀ e ∈ s.eqList, EqWired s e)
    (h : AllKnown s) : CopyClause s := by
  intro e he
  obtain ⟨v, hleft, hright⟩ := hwired e he
  cases v with
  | unresolved => exact absurd hleft (AllKnown.cell h (row_lt_of_assigned hwf hleft) _)
  | known n => exact eqHolds_iff.2 ⟨n, numRead_eq_some_iff.2 hleft, numRead_eq_some_iff.2 hright⟩

/-! ### Gates that were on keep holding -/

section

variable (hkeep : ∀ col r v, cellRead s col r = .assigned v → cellRead s' col r = .assigned v)
include hkeep

theorem numRead_kept (h : numRead s col r = some n) : numRead s' col r = some n :=
  numRead_eq_some_iff.2 (hkeep _ _ _ (numRead_eq_some_iff.1 h))

theorem gateLeft_kept (h : gateLeft s t = some n) : gateLeft s' t = some n := by
  obtain ⟨a, b, c, d, ha, hb, hc, hd, hsum⟩ := gateLeft_eq_some_iff.1 h
  exact gateLeft_eq_some_iff.2 ⟨a, b, c, d, numRead_kept hkeep ha, numRead_kept hkeep hb, numRead_kept hkeep hc,
    numRead_kept hkeep hd, hsum⟩

theorem gateSummand_kept (h : gateSummand s col t = some n) : gateSummand s' col t = some n := by
  obtain ⟨a, b, ha, hb, hsum⟩ := gateSummand_eq_some_iff.1 h
  exact gateSummand_eq_some_iff.2 ⟨a, b, numRead_kept hkeep ha, numRead_kept hkeep hb, hsum⟩

theorem f1Gate_kept (h : f1Gate s t = true) : f1Gate s' t = true := by
  obtain ⟨l, a, b, c, hl, ha, hb, hc, hequation⟩ := f1Gate_iff.1 h
  exact f1Gate_iff.2 ⟨l, a, b, c, gateLeft_kept hkeep hl, gateSummand_kept hkeep ha, gateSummand_kept hkeep hb,
    gateSummand_kept hkeep hc, hequation⟩

theorem chGate_kept (h : chGate s t = true) : chGate s' t = true := by
  obtain ⟨l, a, b, hl, ha, hb, hequation⟩ := chGate_iff.1 h
  exact chGate_iff.2 ⟨l, a, b, gateLeft_kept hkeep hl, gateSummand_kept hkeep ha, gateSummand_kept hkeep hb, hequation⟩

theorem chnegGate_kept (h : chnegGate s t = true) : chnegGate s' t = true := by
  obtain ⟨l, a, b, hl, ha, hb, hequation⟩ := chnegGate_iff.1 h
  exact chnegGate_iff.2 ⟨l, a, b, gateLeft_kept hkeep hl, gateSummand_kept hkeep ha, gateSummand_kept hkeep hb, hequation⟩

theorem chnegLink_kept (h : chnegLink s r = true) : chnegLink s' r = true := by
  obtain ⟨a, b, ha, hb, hequation⟩ := chnegLink_iff.1 h
  exact chnegLink_iff.2 ⟨a, b, numRead_kept hkeep ha, numRead_kept hkeep hb, hequation⟩

end

/-! ### The gate a command turns on holds -/

theorem f1_of_sf1_mem (h : (.sf1, r) ∈ bitsOf i) : ∃ b c d, i = .f1 r b c d := by
  cases i <;> simp [bitsOf, lookupBits4] at h
  case f1 t b c d => exact ⟨b, c, d, by rw [h]⟩

theorem ch_of_sch_mem (h : (.sch, r) ∈ bitsOf i) : ∃ x y, i = .ch r x y := by
  cases i <;> simp [bitsOf, lookupBits4] at h
  case ch t x y => exact ⟨x, y, by rw [h]⟩

theorem chneg_of_scn_mem (h : (.scn, r) ∈ bitsOf i) : ∃ x z, i = .chneg r x z := by
  cases i <;> simp [bitsOf, lookupBits4] at h
  case chneg t x z => exact ⟨x, z, by rw [h]⟩

/-- R170: over enabled rows whose pairs hold `e` and `o` the left side of a gate is the sum of their windows. -/
theorem gateLeft_of_pairs {e o : Nat} (htb : TableOk s.table) (hlook : LookupClause s)
    (hrows : ∀ k < 4, ValidHandle s (t + k)) (heven : pairNumber s ⟨t, t + 2⟩ = some e)
    (hodd : pairNumber s ⟨t + 1, t + 3⟩ = some o) : gateLeft s t = some (spread 32 e + 2 * spread 32 o) := by
  obtain ⟨e', -, o', -, heven', hodd', hleft⟩ := gateLeft_of_lookup htb hlook hrows
  obtain rfl := Option.some.inj (heven'.symm.trans heven)
  obtain rfl := Option.some.inj (hodd'.symm.trans hodd)
  exact hleft

/-- The spread halves an operand holds it still holds in the state a command leaves. -/
theorem LaidOut.spreadHalves {lo hi : Val} (h : LaidOut i s s')
    (hkeep : ∀ col r v, cellRead s col r = .assigned v → cellRead s' col r = .assigned v) (hx : SpreadHalves s x lo hi) :
    SpreadHalves s' x lo hi := by
  obtain ⟨vlo, vhi, rlo, rhi⟩ := hx
  exact ⟨h.handles _ vlo, h.handles _ vhi, hkeep _ _ _ rlo, hkeep _ _ _ rhi⟩

/-- R186: CHNEG leaves the complemented halves of X in `W2`. -/
theorem chneg_w2 {lo hi : Val} (hs : NoAbort s) (hc : Completed (.chneg t x z) s s') (hx : SpreadHalves s x lo hi) :
    cellRead s' .w2 t = .assigned (lo.vmap negSpread) ∧ cellRead s' .w2 (t + 1) = .assigned (hi.vmap negSpread) := by
  obtain ⟨xLo, xHi, zLo, zHi, i, ⟨rlo, rhi, -⟩, -, -, rfl⟩ := hc
  obtain ⟨-, -, hlo, hhi⟩ := hx
  obtain rfl := Cell.assigned.inj (rlo.symm.trans hlo)
  obtain rfl := Cell.assigned.inj (rhi.symm.trans hhi)
  have hcell := (chneg_effect t x z xLo xHi zLo zHi
    (split4 (pairSum (xLo.vmap negSpread) (xHi.vmap negSpread) zLo zHi)) i hs).cell
  rw [hcell, hcell]
  simp [copiedCells]

section

variable (htb : TableOk s.table) (hinv : CertifiedRows s) (hlook : LookupClause s) (hlook' : LookupClause s')
  (hcopy' : CopyClause s') (hok : NoAbort s')
include htb hinv hlook hlook' hcopy' hok

/-- R171: F1 leaves XOR and majority in its lookup rows, whose windows are the sum of its operands' spreads. -/
theorem f1Gate_of_next (hnext : exec (.f1 t x y z) s = .next s') : f1Gate s' t = true := by
  obtain ⟨hs, hr, hc⟩ := completed_of_next hnext hok
  have hkeep := completed_keeps_assigned hs hr hc
  have hlaid := laidOut_of_sameShape hnext hok (sameShape_refl s') rfl
  obtain ⟨⟨⟨ht, -⟩, -⟩, hx, hy, hz, -⟩ := hr
  obtain ⟨vx, hvx, sx⟩ := lookup_operand htb hlook (valid_of_operandReadable hx)
  obtain ⟨vy, hvy, sy⟩ := lookup_operand htb hlook (valid_of_operandReadable hy)
  obtain ⟨vz, hvz, sz⟩ := lookup_operand htb hlook (valid_of_operandReadable hz)
  obtain ⟨heven, hodd⟩ := f1_pairs htb hinv hok hvx hvy hvz hnext
  rw [← (exec_keeps_inputs hnext).1] at htb
  have hleft := gateLeft_of_pairs htb hlook' (hlaid.lookupRows (fun _ => List.mem_cons_of_mem _) ht) heven hodd
  rw [spread_full_adder] at hleft
  have hcopies := hlaid.copies hcopy'
  simp only [entriesOf, List.forall_mem_append] at hcopies
  obtain ⟨⟨copyX, copyY⟩, copyZ⟩ := hcopies
  exact f1Gate_iff.2 ⟨_, _, _, _, hleft, gateSummand_of_copies copyX (hlaid.spreadHalves hkeep sx),
    gateSummand_of_copies copyY (hlaid.spreadHalves hkeep sy), gateSummand_of_copies copyZ (hlaid.spreadHalves hkeep sz),
    rfl⟩

/-- R182: CH leaves XOR and AND in its lookup rows. -/
theorem chGate_of_next (hnext : exec (.ch t x y) s = .next s') : chGate s' t = true := by
  obtain ⟨hs, hr, hc⟩ := completed_of_next hnext hok
  have hkeep := completed_keeps_assigned hs hr hc
  have hlaid := laidOut_of_sameShape hnext hok (sameShape_refl s') rfl
  obtain ⟨⟨⟨ht, -⟩, -⟩, hx, hy, -⟩ := hr
  obtain ⟨vx, hvx, sx⟩ := lookup_operand htb hlook (valid_of_operandReadable hx)
  obtain ⟨vy, hvy, sy⟩ := lookup_operand htb hlook (valid_of_operandReadable hy)
  obtain ⟨heven, hodd⟩ := ch_pairs htb hinv hok hvx hvy hnext
  rw [← (exec_keeps_inputs hnext).1] at htb
  have hleft := gateLeft_of_pairs htb hlook' (hlaid.lookupRows (fun _ => List.mem_cons_of_mem _) ht) heven hodd
  rw [spread_xor_add_spread_and] at hleft
  have hcopies := hlaid.copies hcopy'
  simp only [entriesOf, List.forall_mem_append] at hcopies
  obtain ⟨copyX, copyY⟩ := hcopies
  exact chGate_iff.2 ⟨_, _, _, hleft, gateSummand_of_copies copyX (hlaid.spreadHalves hkeep sx),
    gateSummand_of_copies copyY (hlaid.spreadHalves hkeep sy), rfl⟩

/-- R190: CHNEG leaves the pairs of CH on the complement of X, whose spread it leaves in `W2`, linked to `W0`. -/
theorem chnegGate_of_next (hnext : exec (.chneg t x z) s = .next s') :
    chnegGate s' t = true ∧ chnegLink s' t = true ∧ chnegLink s' (t + 1) = true := by
  obtain ⟨hs, hr, hc⟩ := completed_of_next hnext hok
  have hkeep := completed_keeps_assigned hs hr hc
  have hlaid := laidOut_of_sameShape hnext hok (sameShape_refl s') rfl
  obtain ⟨⟨⟨ht, -⟩, -⟩, hx, hz, -⟩ := hr
  obtain ⟨vx, hvx, sx⟩ := lookup_operand htb hlook (valid_of_operandReadable hx)
  obtain ⟨vz, hvz, sz⟩ := lookup_operand htb hlook (valid_of_operandReadable hz)
  obtain ⟨heven, hodd⟩ := chneg_pairs htb hinv hok hvx hvz hnext
  rw [← (exec_keeps_inputs hnext).1] at htb
  have hleft := gateLeft_of_pairs htb hlook' (hlaid.lookupRows (fun _ => List.mem_cons_of_mem _) ht) heven hodd
  rw [spread_xor_add_spread_and] at hleft
  have hcopies := hlaid.copies hcopy'
  simp only [entriesOf, List.forall_mem_append] at hcopies
  obtain ⟨copyX, copyZ⟩ := hcopies
  obtain ⟨w0Lo, w0Hi⟩ := numRead_of_copies copyX (hlaid.spreadHalves hkeep sx)
  obtain ⟨w2Lo, w2Hi⟩ := chneg_w2 hs hc sx
  rw [Val.vmap, negSpread_spread16 (lo16_lt vx), ← numRead_eq_some_iff] at w2Lo
  rw [Val.vmap, negSpread_spread16 (hi16_lt vx), ← numRead_eq_some_iff] at w2Hi
  have hcomplement : gateSummand s' .w2 t = some (spread 32 (notW 32 vx)) := by
    obtain ⟨hlo, hhi⟩ := halves_notW_32 (operandValue_lt hvx)
    exact gateSummand_spread (by rw [hlo, w2Lo]) (by rw [hhi, w2Hi])
  exact ⟨chnegGate_iff.2 ⟨_, _, _, hleft, hcomplement, gateSummand_of_copies copyZ (hlaid.spreadHalves hkeep sz), rfl⟩,
    chnegLink_iff.2 ⟨_, _, w0Lo, w2Lo, (link_iff (lo16_lt vx)).2 rfl⟩,
    chnegLink_iff.2 ⟨_, _, w0Hi, w2Hi, (link_iff (hi16_lt vx)).2 rfl⟩⟩

/-- R203: after a completed command every gate that is on holds: one the command turned on, or one that held before. -/
theorem gateClause_of_next {link : Bool} (hgate : GateClause link s) (hnext : exec i s = .next s') :
    GateClause link s' := by
  obtain ⟨hs, hr, hc⟩ := completed_of_next hnext hok
  have hkeep := completed_keeps_assigned hs hr hc
  intro t ht
  rw [(exec_keeps_inputs hnext).2.1] at ht
  obtain ⟨hf1, hch, hchneg⟩ := hgate t ht
  refine ⟨fun hon => ?_, fun hon => ?_, fun hon => ?_⟩
  · rcases (completed_bit_iff hs hc .sf1 t).1 hon with hnew | hold
    · obtain ⟨b, c, d, rfl⟩ := f1_of_sf1_mem hnew
      exact f1Gate_of_next htb hinv hlook hlook' hcopy' hok hnext
    · exact f1Gate_kept hkeep (hf1 hold)
  · rcases (completed_bit_iff hs hc .sch t).1 hon with hnew | hold
    · obtain ⟨x, y, rfl⟩ := ch_of_sch_mem hnew
      exact chGate_of_next htb hinv hlook hlook' hcopy' hok hnext
    · exact chGate_kept hkeep (hch hold)
  · rcases (completed_bit_iff hs hc .scn t).1 hon with hnew | hold
    · obtain ⟨x, z, rfl⟩ := chneg_of_scn_mem hnew
      obtain ⟨hgate', hlinks⟩ := chnegGate_of_next htb hinv hlook hlook' hcopy' hok hnext
      exact ⟨hgate', fun _ => hlinks⟩
    · obtain ⟨hgate', hlinks⟩ := hchneg hold
      exact ⟨chnegGate_kept hkeep hgate',
        fun hlink => ⟨chnegLink_kept hkeep (hlinks hlink).1, chnegLink_kept hkeep (hlinks hlink).2⟩⟩

end

/-- R206: at launch nothing is assigned, enabled or wired. -/
theorem launch_satisfied (link : Bool) (n : Nat) (tb : List (Nat × Option Nat)) (p : Phase) :
    Satisfied link (State.launch n tb p) := by
  refine ⟨fun r _ col _ => by simp, fun r _ hq => by simp at hq, fun e he => (by cases he), fun t _ => ?_⟩
  exact ⟨fun hon => by simp at hon, fun hon => by simp at hon, fun hon => by simp at hon⟩

end

/-- Settles O33: known cells stay known, the lookup and copy clauses are then the machine's invariant, and each gate that
is on holds. -/
theorem commandsKeepSatisfied : Obligations.CommandsKeepSatisfied := by
  rintro link i s s' htb hinv ⟨hknown, hlook, -, hgate⟩ hcand hnext hok
  obtain ⟨hs, hr, hc⟩ := completed_of_next hnext hok
  have hinv' := exec_machineInv hinv hnext
  obtain ⟨-, hregion⟩ := (Memory.wf_iff s').1 hinv'.wf
  have hknown' := completed_allKnown hs hr hc hknown hcand
  have hlook' := lookupClause_of_certifiedRows (hinv'.certified hok) hknown'
  have hcopy' := copyClause_of_wired hregion (hinv'.wired hok) hknown'
  exact ⟨hknown', hlook', hcopy', gateClause_of_next htb (hinv.certified hs) hlook hlook' hcopy' hok hgate hnext⟩

/-- From a state that meets `Satisfied` and the machine's invariant a successful run on known candidates ends in one. -/
theorem runSucceeds_satisfied (link : Bool) {is : List Instr} {s s' : State} (htb : TableOk s.table) (hinv : MachineInv s)
    (hsat : Satisfied link s) (hcand : ∀ i ∈ is, ∀ v ∈ candidatesOf i, v ≠ .unresolved) (hrun : RunSucceeds is s s') :
    Satisfied link s' := by
  induction is generalizing s with
  | nil =>
    obtain ⟨hdone, -⟩ := hrun
    cases hdone
    exact hsat
  | cons i is ih =>
    obtain ⟨hi, his⟩ := List.forall_mem_cons.1 hcand
    obtain ⟨m, hnext, hok, hrest⟩ := runSucceeds_cons_iff.1 hrun
    have htb' : TableOk m.table := by rw [(exec_keeps_inputs hnext).1]; exact htb
    exact ih htb' (exec_machineInv hinv hnext) (commandsKeepSatisfied link i s m htb hinv hsat hi hnext hok) his hrest

/-- Settles O34: by induction along the run from launch, with O33 as its step. -/
theorem completedRunsAreSatisfied : Obligations.CompletedRunsAreSatisfied := by
  intro link n tb is s' hwf htb hcand hrun
  exact runSucceeds_satisfied link htb (launch_machineInv n .witness hwf) (launch_satisfied link n tb .witness) hcand hrun

end Sys2Proof.Machine
